-- ==== Sys2Proof/Word.lean ====
section
/-! DEFINITION. The word type and the small named sets of the command interface. -/

namespace Sys2Proof

/-- A word is 32 bits (00_scope.md R10). A stored value is its binary32 word (20_memory.md R61). -/
abbrev Word := BitVec 32

/-- A word address of the host space (20_memory.md R60). -/
abbrev Addr := BitVec 24

/-- The operand `src` of RESYNTH (30_encoding.md R91): 0 is the analyzer's `FRAME`, 1 the external frame `XF`. -/
inductive Source where
  | frame
  | xf
deriving DecidableEq, Repr

/-- The causes of a command error (60_exceptions.md R211). -/
inductive Cause where
  | illegalOpcode
  | reservedField
  | lengthRange
  | badRate
deriving DecidableEq, Repr

end Sys2Proof
end

