-- ==== Sys2Proof/Config.lean ====
section
/-! DEFINITION. The configuration of an instance (00_scope.md R5), the numerics record (R12), and the
primitives of the numerics that the spec leaves open, as constants without a body. -/

namespace Sys2Proof

/-- Which transform direction divides by N (00_scope.md R5, 41_transform.md R130). -/
inductive Norm where
  | fwd
  | inv
deriving DecidableEq, Repr

/-- The numerics record `cfg.Num` (00_scope.md R12, D5): the operations on values that the rules are
written with. Beyond R12's list it names what the rules' formulas also use: unary minus (R13), `ceil`
(R14), the exact conversion of an integer (R45, R118), the constant 1/2 (R135), the test `= 0` (R111).
`atan2 im re` is the angle of the point (re, im) (R111). -/
structure Num (V : Type) where
  ofNat  : Nat → V
  half   : V
  pi     : V
  add    : V → V → V
  sub    : V → V → V
  mul    : V → V → V
  div    : V → V → V
  neg    : V → V
  sqrt   : V → V
  cos    : V → V
  sin    : V → V
  ceil   : V → V
  atan2  : V → V → V
  isZero : V → Bool

/-- The configuration record of one instance (00_scope.md R5), without `Num`, which is not plain data.
Fixed at construction; no rule changes it. -/
structure Config (V : Type) where
  n     : Nat
  h     : Nat
  vs    : Nat
  chmax : Nat
  sr0   : V
  wa    : List V
  ws    : List V
  norm  : Norm
deriving DecidableEq, Repr

namespace Config

/-- `dm = N / H`, the number of overlapping buffers (00_scope.md R5, R8). -/
def dm {V : Type} (c : Config V) : Nat := c.n / c.h

/-- `M = N / 2`, the number of complex slots of the packed real transform (00_scope.md R8). -/
def m {V : Type} (c : Config V) : Nat := c.n / 2

/-- `NB = N / 2 + 1`, the number of bins of a frame (00_scope.md R8). -/
def nb {V : Type} (c : Config V) : Nat := c.n / 2 + 1

/-! The open numerics of a binary32 instance (00_scope.md R12: "assumes nothing but that each depends on its
operands alone"). Free values: they have no body, so no proof can see what they are (entries 2 and 3). -/

/-- DESIGN CHOICE (entry 2): free, a function of the operands. -/
opaque add : Word → Word → Word
/-- DESIGN CHOICE (entry 2): free, a function of the operands. -/
opaque sub : Word → Word → Word
/-- DESIGN CHOICE (entry 2): free, a function of the operands. -/
opaque mul : Word → Word → Word
/-- DESIGN CHOICE (entry 2): free, a function of the operands. -/
opaque div : Word → Word → Word
/-- DESIGN CHOICE (entry 2): free, a function of the operand. -/
opaque sqrt : Word → Word
/-- DESIGN CHOICE (entry 2): free, a function of the operand. -/
opaque cos : Word → Word
/-- DESIGN CHOICE (entry 2): free, a function of the operand. -/
opaque sin : Word → Word
/-- DESIGN CHOICE (entry 2): free, a function of the operands (U5: also at -0). -/
opaque atan2 : Word → Word → Word
/-- DESIGN CHOICE (entry 2): free. -/
opaque pi : Word
/-- DESIGN CHOICE (entry 3): unary minus of a zero, an infinity or a NaN; free, a function of the operand. -/
opaque neg : Word → Word
/-- DESIGN CHOICE (entry 3): free, a function of the operand. -/
opaque ceil : Word → Word
/-- DESIGN CHOICE (entry 4): the word of an integer too large for an exact binary32 conversion; free, and never
reached by a legal configuration. -/
opaque largeNat : Nat → Word

end Config
end Sys2Proof
end

