-- ==== Sys2Proof/Syntax.lean ====
section
/-! DEFINITION. The commands, one constructor per row of spec/opcode_table.json (30_encoding.md R93). -/

namespace Sys2Proof

inductive Instr where
  /-- `CFFT.F`, forward complex transform of CB (R133). -/
  | cfftF
  /-- `CFFT.I`, inverse complex transform of CB (R134). -/
  | cfftI
  /-- `RFFT`, real forward transform of RB into SP (R136). -/
  | rfft
  /-- `IRFFT`, real inverse transform of SP into RB (R138). -/
  | irfft
  /-- `ANALYZE len`, accept `len` samples of SIN (R161). -/
  | analyze (len : Nat)
  /-- `RESYNTH src`, produce VS samples into SOUT (R181). -/
  | resynth (src : Source)
  /-- `RESET`, set the sample rate from ARG (R200). -/
  | reset
deriving DecidableEq, Repr

end Sys2Proof
end

