-- ==== Sys2Proof/WellFormed.lean ====
section
/-! DEFINITION. Which instruction terms the encoding can hold. -/

namespace Sys2Proof

/-- An instruction term has an encoding. The one check: `len` is a 24-bit unsigned integer (30_encoding.md R92). -/
def Instr.wellFormed : Instr → Bool
  | .cfftF       => true
  | .cfftI       => true
  | .rfft        => true
  | .irfft       => true
  | .analyze len => len < 2 ^ 24
  | .resynth _   => true
  | .reset       => true

end Sys2Proof
end

