-- ==== Sys2Proof/Decode.lean ====
section
/-! DEFINITION. The decoder (30_encoding.md R94), total on every word and rejecting by cause, and the encoder. -/

namespace Sys2Proof

/-- `w[hi:lo]`, the unsigned integer made of bits hi down to lo of `w` (00_scope.md R10). -/
def bits (w : Word) (hi lo : Nat) : Nat := w.toNat / 2 ^ lo % 2 ^ (hi + 1 - lo)

/-- The three operand formats (30_encoding.md R91). -/
inductive Format where
  | z
  | l
  | s
deriving DecidableEq, Repr

/-- The format of an assigned opcode; none for an unassigned one (30_encoding.md R93). -/
def formatOf (op : Nat) : Option Format :=
  if op = 0x01 ∨ op = 0x02 ∨ op = 0x03 ∨ op = 0x04 ∨ op = 0x30 then some .z
  else if op = 0x10 then some .l
  else if op = 0x20 then some .s
  else none

/-- A must-be-zero field of the format holds a 1 (30_encoding.md R91, R94). -/
def reservedSet (f : Format) (w : Word) : Bool :=
  match f with
  | .z => bits w 23 0 ≠ 0
  | .l => false
  | .s => bits w 23 1 ≠ 0

/-- `src = w[0]` (30_encoding.md R92). -/
def srcOf (w : Word) : Source := if bits w 0 0 = 0 then .frame else .xf

/-- The command of an assigned opcode (30_encoding.md R93). -/
def commandOf (op : Nat) (w : Word) : Option Instr :=
  if op = 0x01 then some .cfftF
  else if op = 0x02 then some .cfftI
  else if op = 0x03 then some .rfft
  else if op = 0x04 then some .irfft
  else if op = 0x10 then some (.analyze (bits w 23 0))
  else if op = 0x20 then some (.resynth (srcOf w))
  else if op = 0x30 then some .reset
  else none

/-- The decoder of 30_encoding.md R94: opcode first, then the reserved field (60_exceptions.md R213). -/
def decode (w : Word) : Except Cause Instr :=
  match formatOf (bits w 31 24), commandOf (bits w 31 24) w with
  | some f, some i => if reservedSet f w then .error .reservedField else .ok i
  | _, _ => .error .illegalOpcode

/-- `op` in bits 31:24 and the operand field in bits 23:0 (30_encoding.md R90). -/
def wordOf (op field : Nat) : Word := BitVec.ofNat 32 (op * 2 ^ 24 + field)

/-- The value of the bit `src` (30_encoding.md R91). -/
def srcBit : Source → Nat
  | .frame => 0
  | .xf    => 1

/-- The command word of an instruction (30_encoding.md R93, R97). -/
def encode : Instr → Word
  | .cfftF       => wordOf 0x01 0
  | .cfftI       => wordOf 0x02 0
  | .rfft        => wordOf 0x03 0
  | .irfft       => wordOf 0x04 0
  | .analyze len => wordOf 0x10 len
  | .resynth src => wordOf 0x20 (srcBit src)
  | .reset       => wordOf 0x30 0

/-- The instruction the decoder reads from the bits `w` of an opcode-table row of `nbits` bits, the bits
above `nbits` zero. A command is one 32-bit word (30_encoding.md R90). -/
def decodeTableWord (nbits w : Nat) : Option Instr :=
  match decode (BitVec.ofNat 32 (w % 2 ^ nbits)) with
  | .ok i    => some i
  | .error _ => none

end Sys2Proof
end

