-- ==== Sys2Proof/Machine/Numerics.lean ====
section
/-! DEFINITION. Complex values (00_scope.md R13), the principal value of an angle (R14), bounded loops
(R11), element access, and the numerics of a binary32 instance (20_memory.md R61). -/

namespace Sys2Proof.Machine

/-- A complex value `(re, im)` (00_scope.md R13). -/
structure Cx (V : Type) where
  re : V
  im : V
deriving DecidableEq, Repr

/-- A bin `(amp, freq)` (10_state.md R23). -/
structure Bin (V : Type) where
  amp  : V
  freq : V
deriving DecidableEq, Repr

/-- `for i in 0..n-1`: the body runs with i = 0, 1, ..., n-1 in that order (00_scope.md R11). -/
def forTo {σ : Type} : Nat → (Nat → σ → σ) → σ → σ
  | 0, _, s => s
  | n + 1, body, s => body n (forTo n body s)

variable {V : Type}

/-- The value zero. -/
def zero (num : Num V) : V := num.ofNat 0

/-- The constant `TWOPI = 2 × π` (00_scope.md R13). -/
def twoPi (num : Num V) : V := num.mul (num.ofNat 2) num.pi

/-- `wrap(θ) = θ - TWOPI × ceil((θ - π) / TWOPI)` (00_scope.md R14; DEDUCED, entry 5: a finite-precision
instance evaluates this formula). -/
def wrap (num : Num V) (θ : V) : V :=
  num.sub θ (num.mul (twoPi num) (num.ceil (num.div (num.sub θ num.pi) (twoPi num))))

namespace Cx

/-- The complex value (0, 0). -/
def zero (num : Num V) : Cx V := ⟨num.ofNat 0, num.ofNat 0⟩

/-- `a + b` (00_scope.md R13). -/
def add (num : Num V) (a b : Cx V) : Cx V := ⟨num.add a.re b.re, num.add a.im b.im⟩

/-- `a - b` (00_scope.md R13). -/
def sub (num : Num V) (a b : Cx V) : Cx V := ⟨num.sub a.re b.re, num.sub a.im b.im⟩

/-- `a × b` (00_scope.md R13). -/
def mul (num : Num V) (a b : Cx V) : Cx V :=
  ⟨num.sub (num.mul a.re b.re) (num.mul a.im b.im), num.add (num.mul a.re b.im) (num.mul a.im b.re)⟩

/-- `a / s` for a value `s` (00_scope.md R13). -/
def divBy (num : Num V) (a : Cx V) (s : V) : Cx V := ⟨num.div a.re s, num.div a.im s⟩

/-- `s × a` for a value `s` (00_scope.md R13). -/
def scale (num : Num V) (s : V) (a : Cx V) : Cx V := ⟨num.mul s a.re, num.mul s a.im⟩

/-- `i × a` (00_scope.md R13). No pseudocode of the spec evaluates it: where it writes `E + i×O` it is a comment. -/
def timesI (num : Num V) (a : Cx V) : Cx V := ⟨num.neg a.im, a.re⟩

/-- `conj(a)` (00_scope.md R13). -/
def conj (num : Num V) (a : Cx V) : Cx V := ⟨a.re, num.neg a.im⟩

end Cx

/-- Element `i` of an array of values. Every index a rule computes is in range (10_state.md R52); entry 14. -/
def valAt (num : Num V) (a : List V) (i : Nat) : V := a.getD i (zero num)

/-- Element `i` of an array of complex values (10_state.md R52; entry 14). -/
def cxAt (num : Num V) (a : List (Cx V)) (i : Nat) : Cx V := a.getD i (Cx.zero num)

/-- The bin (0, 0) (10_state.md R50). -/
def Bin.zero (num : Num V) : Bin V := ⟨num.ofNat 0, num.ofNat 0⟩

/-- Bin `k` of a frame (10_state.md R24; entry 14). -/
def binAt (num : Num V) (a : List (Bin V)) (k : Nat) : Bin V := a.getD k (Bin.zero num)

/-! ## binary32 (20_memory.md R61) -/

/-- What a binary32 word encodes (20_memory.md R61). A finite value is `± significand × 2^exponent`, the significand below 2^23
only at the least exponent, -149. Which words encode no finite value is entry 15. -/
inductive Binary32 where
  | finite (negative : Bool) (significand : Nat) (exponent : Int)
  | infinite (negative : Bool)
  | nan (negative : Bool) (fraction : Nat)
deriving DecidableEq, Repr

/-- `f32(w)`, the value the word encodes: bit 31 sign, bits 30:23 biased exponent (bias 127), bits 22:0 fraction
(20_memory.md R61). -/
def f32 (w : Word) : Binary32 :=
  if bits w 30 23 = 255 then
    if bits w 22 0 = 0 then .infinite (bits w 31 31 = 1) else .nan (bits w 31 31 = 1) (bits w 22 0)
  else if bits w 30 23 = 0 then .finite (bits w 31 31 = 1) (bits w 22 0) (-149)
  else .finite (bits w 31 31 = 1) (2 ^ 23 + bits w 22 0) (bits w 30 23 - 150)

/-- The word of a sign, a biased exponent and a fraction (20_memory.md R61). -/
def packWord (negative : Bool) (biased fraction : Nat) : Word :=
  BitVec.ofNat 32 (negative.toNat * 2 ^ 31 + biased * 2 ^ 23 + fraction)

/-- `bits32(v)`, the word that encodes v (20_memory.md R61; of a NaN, the word it came from, entry 13). -/
def bits32 : Binary32 → Word
  | .finite s m x => if m < 2 ^ 23 then packWord s 0 m else packWord s (x + 150).toNat (m - 2 ^ 23)
  | .infinite s   => packWord s 255 0
  | .nan s f      => packWord s 255 f

/-- The number a finite value is; none for an infinity and a NaN. Used by statements and tests only. -/
def valueOf : Binary32 → Option ℚ
  | .finite s m x => some ((if s then -1 else 1) * m * (2 : ℚ) ^ x)
  | .infinite _   => none
  | .nan _ _      => none

/-- The binary32 word of an integer, exact for every integer below 2^24 (20_memory.md R61; DEDUCED, entry 4). -/
def wordOfNat (n : Nat) : Word :=
  if n = 0 then 0
  else if n < 2 ^ 24 then bits32 (.finite false (n * 2 ^ (23 - Nat.log2 n)) (Nat.log2 n - 23))
  else Config.largeNat n

/-- Unary minus: of a finite value other than zero the word that encodes its negative, which is exact (20_memory.md R61;
DEDUCED, entry 3); free for a zero, whose sign the spec leaves open, and for a value that is not finite (U6). -/
def negWord (w : Word) : Word :=
  match f32 w with
  | .finite s m x => if m = 0 then Config.neg w else bits32 (.finite (!s) m x)
  | .infinite _   => Config.neg w
  | .nan _ _      => Config.neg w

/-- The word encodes the value zero, of either sign (20_memory.md R61, 44_system.md R200; DEDUCED, entry 12). -/
def isZeroWord (w : Word) : Bool :=
  match f32 w with
  | .finite _ m _ => m = 0
  | .infinite _   => false
  | .nan _ _      => false

/-- A positive finite value: what a sample rate must be (44_system.md R200, 00_scope.md R6). -/
def isLegalRate (w : Word) : Bool :=
  match f32 w with
  | .finite s m _ => !s && m ≠ 0
  | .infinite _   => false
  | .nan _ _      => false

/-- The numerics of a binary32 instance (00_scope.md R12, D5): exact where R61 and
R45 fix the word, free elsewhere. -/
def num : Num Word where
  ofNat  := wordOfNat
  half   := 0x3F000000
  pi     := Config.pi
  add    := Config.add
  sub    := Config.sub
  mul    := Config.mul
  div    := Config.div
  neg    := negWord
  sqrt   := Config.sqrt
  cos    := Config.cos
  sin    := Config.sin
  ceil   := Config.ceil
  atan2  := Config.atan2
  isZero := isZeroWord

end Sys2Proof.Machine
end

