-- ==== Sys2Proof/Machine/Construct.lean ====
section
/-! DEFINITION. Construction of an instance (00_scope.md R6), which configurations are legal (R5), and the
instance of `State.reset`. -/

namespace Sys2Proof.Machine

/-- The least power of two at or above `n`, for n ≥ 1 (00_scope.md R6). -/
def pow2ceil (n : Nat) : Nat := if 2 ^ Nat.log2 n = n then n else 2 ^ (Nat.log2 n + 1)

/-- The sizes of a configuration are legal (00_scope.md R5, R6, D28, D36). -/
abbrev LegalGeometry {V : Type} (c : Config V) : Prop :=
  (∃ p < 20, 1 ≤ p ∧ c.n = 2 ^ p) ∧ 1 ≤ c.h ∧ c.h ≤ c.n ∧ c.n % c.h = 0 ∧
  1 ≤ c.vs ∧ c.vs ≤ 2 ^ 20 ∧ 1 ≤ c.chmax ∧ c.chmax ≤ 2 ^ 20 ∧
  c.wa.length = c.n ∧ c.ws.length = c.n

/-- A legal configuration of a binary32 instance (00_scope.md R5): legal sizes and a positive finite rate. -/
abbrev LegalConfig (c : Config Word) : Prop := LegalGeometry c ∧ isLegalRate c.sr0 = true

/-- `construct` (00_scope.md R6): the configuration of a new instance, or none where the constructor refuses. -/
def construct (nreq h vs : Nat) (sr0 : Word) (wa ws : List Word) (norm : Norm) (chmax : Nat) :
    Option (Config Word) :=
  if nreq = 0 then none
  else if pow2ceil nreq < 2 ∨ pow2ceil nreq > 2 ^ 19 then none
  else if h = 0 ∨ pow2ceil nreq % h ≠ 0 then none
  else if wa.length ≠ pow2ceil nreq ∨ ws.length ≠ pow2ceil nreq then none
  else if isLegalRate sr0 = false then none
  else if vs < 1 ∨ vs > 2 ^ 20 ∨ chmax < 1 ∨ chmax > 2 ^ 20 then none
  else some { n := pow2ceil nreq, h, vs, chmax, sr0, wa, ws, norm }

/-- The instance of `State.reset`. DESIGN CHOICE (entry 1): the configuration T4 of 95_test_vectors.md; the spec leaves
every field to the constructor's caller. -/
def t4 : Config Word where
  n     := 4
  h     := 2
  vs    := 2
  chmax := 8
  sr0   := 0x40800000
  wa    := [0x3F800000, 0x3F800000, 0x3F800000, 0x3F800000]
  ws    := [0x3F000000, 0x3F000000, 0x3F000000, 0x3F000000]
  norm  := .inv

end Sys2Proof.Machine
end

