-- ==== Sys2Proof/Machine/Components.lean ====
section
/-! DEFINITION. The state of each component, as explicit owned arrays (10_state.md), and its reset value (R50). -/

namespace Sys2Proof.Machine

/-- The four rate registers (10_state.md R45). -/
structure Rates (V : Type) where
  srate : V
  facA  : V
  facS  : V
  binw  : V
deriving DecidableEq, Repr

/-- The Streaming Analyzer (10_state.md R25 to R29). -/
structure Analyzer (V : Type) where
  /-- `AB`, the sample ring (R25). -/
  ab    : List V
  /-- `HNUM`, the write-buffer index (R26). -/
  hnum  : Nat
  /-- `POS`, the intra-hop write position (R26). -/
  pos   : Nat
  /-- `PPH`, the previous phase of each bin (R27). -/
  pph   : List V
  /-- `FRAME`, the one live frame (R28). -/
  frame : List (Bin V)
  /-- `FCNT`, the frame counter (R29). -/
  fcnt  : BitVec 32
deriving DecidableEq, Repr

/-- The Streaming Resynthesizer (10_state.md R30 to R33). -/
structure Resynth (V : Type) where
  /-- `OB`, the output accumulation buffers (R30). -/
  ob   : List (List V)
  /-- `RCNT`, one counter per output buffer (R31). -/
  rcnt : List Nat
  /-- `PHS`, the running phase of each bin (R32). -/
  phs  : List V
  /-- `SOUT`, the output chunk (R33). -/
  sout : List V
deriving DecidableEq, Repr

/-- The Transform Engine's buffers of the real transforms (10_state.md R34 to R36). -/
structure Engine (V : Type) where
  /-- `RB`, the real buffer (R34). -/
  rb : List V
  /-- `SP`, the spectrum buffer (R35). -/
  sp : List (Cx V)
  /-- `TS`, the scratch buffer (R36). -/
  ts : List (Cx V)
deriving DecidableEq, Repr

variable {V : Type}

/-- The rate registers for sample rate `sr` (10_state.md R45; 44_system.md R200). -/
def ratesOf (num : Num V) (cfg : Config V) (sr : V) : Rates V where
  srate := sr
  facA  := num.div sr (num.mul (twoPi num) (num.ofNat cfg.h))
  facS  := num.div (num.mul (twoPi num) (num.ofNat cfg.h)) sr
  binw  := num.div sr (num.ofNat cfg.n)

/-- The analyzer after hardware reset (10_state.md R50). -/
def Analyzer.resetOf (num : Num V) (cfg : Config V) : Analyzer V where
  ab    := List.replicate cfg.n (zero num)
  hnum  := 0
  pos   := 0
  pph   := List.replicate cfg.nb (zero num)
  frame := List.replicate cfg.nb (Bin.zero num)
  fcnt  := 0

/-- The resynthesizer after hardware reset (10_state.md R50): `RCNT[b] = (dm - 1 - b) × H`. -/
def Resynth.resetOf (num : Num V) (cfg : Config V) : Resynth V where
  ob   := List.replicate cfg.dm (List.replicate cfg.n (zero num))
  rcnt := (List.range cfg.dm).map fun b => (cfg.dm - 1 - b) * cfg.h
  phs  := List.replicate cfg.nb (zero num)
  sout := List.replicate cfg.vs (zero num)

/-- The engine after hardware reset (10_state.md R50). -/
def Engine.resetOf (num : Num V) (cfg : Config V) : Engine V where
  rb := List.replicate cfg.n (zero num)
  sp := List.replicate cfg.nb (Cx.zero num)
  ts := List.replicate cfg.m (Cx.zero num)

end Sys2Proof.Machine
end

