-- ==== Sys2Proof/Machine/BinOps.lean ====
section
/-! DEFINITION. The bin operations, phase unwrapping and phase accumulation (40_bin_ops.md). -/

namespace Sys2Proof.Machine

variable {V : Type}

/-- `arg(re, im)` (40_bin_ops.md R111): 0 for the zero value, else `atan2(im, re)`. -/
def arg (num : Num V) (re im : V) : V :=
  if num.isZero re && num.isZero im then zero num else num.atan2 im re

/-- `TOPOLAR(c)` (40_bin_ops.md R111): amplitude and phase. -/
def toPolar (num : Num V) (c : Cx V) : V × V :=
  (num.sqrt (num.add (num.mul c.re c.re) (num.mul c.im c.im)), arg num c.re c.im)

/-- `TORECT(a, φ)` (40_bin_ops.md R112): amplitude × (cos phase, sin phase). -/
def toRect (num : Num V) (a φ : V) : Cx V := Cx.scale num a ⟨num.cos φ, num.sin φ⟩

/-- `BIN.SCALE(b, s)` (40_bin_ops.md R113). No command uses it. -/
def binScale (num : Num V) (b : Bin V) (s : V) : Bin V := ⟨num.mul b.amp s, b.freq⟩

/-- `BIN.DIFF(φ, k)` (40_bin_ops.md R114) over the previous-phase memory: the wrapped difference and the memory after. -/
def binDiff (num : Num V) (φ : V) (k : Nat) (pph : List V) : V × List V :=
  (wrap num (num.sub φ (valAt num pph k)), pph.set k φ)

/-- `BIN.INTEG(inc, k)` (40_bin_ops.md R115) over the running phases: the new phase and the array after. -/
def binInteg (num : Num V) (inc : V) (k : Nat) (phs : List V) : V × List V :=
  (wrap num (num.add (valAt num phs k) inc), phs.set k (wrap num (num.add (valAt num phs k) inc)))

/-- The bin centre frequency `k × BINW` (40_bin_ops.md R118). -/
def binCenter (num : Num V) (r : Rates V) (k : Nat) : V := num.mul (num.ofNat k) r.binw

/-- `PH2HZ(d, k)` (40_bin_ops.md R116). -/
def ph2hz (num : Num V) (r : Rates V) (d : V) (k : Nat) : V :=
  num.add (binCenter num r k) (num.mul d r.facA)

/-- `HZ2INC(f, k)` (40_bin_ops.md R117). -/
def hz2inc (num : Num V) (r : Rates V) (f : V) (k : Nat) : V :=
  num.mul (num.sub f (binCenter num r k)) r.facS

end Sys2Proof.Machine
end

