-- ==== Sys2Proof/Machine/State.lean ====
section
/-! DEFINITION. The machine's state (10_state.md), its reset value (R50), and the reasons a step can stop. -/

namespace Sys2Proof.Machine

/-- One action of the host (20_memory.md R63, R64; 70_reset_and_hazards.md R240). -/
inductive HostAction where
  /-- `HostRead(a)` (R63). -/
  | read (a : Addr)
  /-- `HostWrite(a, w)` (R64). -/
  | write (a : Addr) (w : Word)
  /-- The hardware reset event (R240; DESIGN CHOICE, entry 10: an action among the host's). -/
  | hardwareReset
deriving DecidableEq, Repr

/-- What the last host action was answered with (20_memory.md R63, R64, R67). DESIGN CHOICE (entry 9). -/
inductive Response where
  /-- No host action since hardware reset. -/
  | none
  /-- A write that was accepted. -/
  | done
  /-- The word a read returned. -/
  | word (w : Word)
  /-- `HostFault`: unmapped address, or a write to a read-only location (R66, R67). -/
  | hostFault
deriving DecidableEq, Repr

/-- The state of one instance. `an`, `rs`, `te` are the analyzer, the resynthesizer and the Transform Engine. -/
structure State where
  /-- The instance's configuration, carried along and never written (00_scope.md R5; entry 1). -/
  cfg      : Config Word
  /-- `STATUS.BUSY` (10_state.md R42). -/
  busy     : Bool
  /-- `STATUS.ERR` (10_state.md R42). -/
  err      : Bool
  /-- `ERRCODE` (10_state.md R43). -/
  errcode  : Word
  /-- `ERRCMD` (10_state.md R43). -/
  errcmd   : Word
  /-- `ARG` (10_state.md R44). -/
  arg      : Word
  /-- `SRATE`, `FAC_A`, `FAC_S`, `BINW` (10_state.md R45). -/
  rates    : Rates Word
  an       : Analyzer Word
  rs       : Resynth Word
  te       : Engine Word
  /-- `CB`, the complex buffer (10_state.md R37). -/
  cb       : List (Cx Word)
  /-- `SIN`, the sample-input region (10_state.md R38). -/
  sin      : List Word
  /-- `XF`, the external frame (10_state.md R39). -/
  xf       : List (Bin Word)
  /-- The MODEL's own: the host's remaining actions, the next first (20_memory.md R73; DESIGN CHOICE, entry 8). -/
  host     : List HostAction
  /-- The MODEL's own: the answer to the last host action (DESIGN CHOICE, entry 9). -/
  response : Response
deriving DecidableEq, Repr

/-- Reasons the machine stops with a fault: there are none. Every error of the spec is a recorded command error or a
`HostFault` response, both next states (60_exceptions.md R214, 20_memory.md R67). -/
inductive Fault where
deriving DecidableEq, Repr

/-- Reasons the model has no meaning for a step. -/
inductive Refusal where
  /-- An instruction without a meaning, by its mnemonic; raised by an arm of exec only. Safe: the model stops. -/
  | notModelled (mnemonic : String)
  /-- A host access other than reading STATUS while BUSY = 1, raised by step (20_memory.md R78, U8: unspecified, a model
  refuses). Safe: the model stops; no state with BUSY = 0 leads to it. -/
  | hostAccessWhileBusy
deriving DecidableEq, Repr

/-- The state right after hardware reset of an instance with configuration `cfg` (10_state.md R50). -/
def State.resetOf (cfg : Config Word) : State where
  cfg      := cfg
  busy     := false
  err      := false
  errcode  := 0
  errcmd   := 0
  arg      := 0
  rates    := ratesOf num cfg cfg.sr0
  an       := Analyzer.resetOf num cfg
  rs       := Resynth.resetOf num cfg
  te       := Engine.resetOf num cfg
  cb       := List.replicate cfg.n (Cx.zero num)
  sin      := List.replicate cfg.chmax (zero num)
  xf       := List.replicate cfg.nb (Bin.zero num)
  host     := []
  response := .none

/-- The machine right after reset: the instance of entry 1, no host action pending. -/
def State.reset : State := State.resetOf t4

end Sys2Proof.Machine
end

