-- ==== Sys2Proof/Machine/Flags.lean ====
section
/-! DEFINITION. The status flags and the cause codes (10_state.md R22, R42, R43; 60_exceptions.md R211). -/

namespace Sys2Proof.Machine

/-- The cause code stored in `ERRCODE` (60_exceptions.md R211). -/
def causeCode : Cause → Word
  | .illegalOpcode => 1
  | .reservedField => 2
  | .lengthRange   => 3
  | .badRate       => 4

/-- A flag as an integer bit. -/
def flagBit (b : Bool) : Nat := if b then 1 else 0

/-- The word `CSR[STATUS]` reads as: BUSY in bit 0, ERR in bit 1, bits 31:2 zero (10_state.md R42). -/
def statusWord (s : State) : Word := BitVec.ofNat 32 (flagBit s.busy + 2 * flagBit s.err)

/-- The word `CSR[CFG_FLAGS]` reads as: bit 0 is NORM (0 = FWD, 1 = INV), bits 31:1 zero (10_state.md R40). -/
def cfgFlagsWord (n : Norm) : Word :=
  match n with
  | .fwd => 0
  | .inv => 1

/-- A write of `w` to STATUS asks to clear ERR: `w[1] = 1` (10_state.md R42, 60_exceptions.md R216). -/
def clearsError (w : Word) : Bool := bits w 1 1 = 1

end Sys2Proof.Machine
end

