-- ==== Sys2Proof/Machine/Operands.lean ====
section
/-! DEFINITION. The operand forms of the commands (30_encoding.md R91, R92) and the operand checks of R213 (3). -/

namespace Sys2Proof.Machine

/-- The source frame of `RESYNTH src` (43_resynth.md R181). -/
def sourceFrame (src : Source) (s : State) : List (Bin Word) :=
  match src with
  | .frame => s.an.frame
  | .xf    => s.xf

/-- `len` does not pass the check of ANALYZE: `len > CHMAX` (42_analyzer.md R161). -/
def lengthOutOfRange (len : Nat) (s : State) : Bool := s.cfg.chmax < len

/-- The new sample rate of RESET, `f32(ARG)` (44_system.md R200). -/
def rateOperand (s : State) : Word := s.arg

end Sys2Proof.Machine
end

