-- ==== Sys2Proof/Machine/Ops.lean ====
section
/-! DEFINITION. The shared operations over the machine: recording a command error and clearing it
(60_exceptions.md R214, R216), the host space (20_memory.md R62), reading and writing one location (R63, R64). -/

namespace Sys2Proof.Machine

/-- The outcome of a step or of a meaning. -/
abbrev Result := Host.Outcome State Fault Refusal

/-! ## Command errors -/

/-- `raise Error(w)` (60_exceptions.md R214): what every command error does, and all it does. -/
def raise (c : Cause) (w : Word) (s : State) : State :=
  { s with err := true, errcode := causeCode c, errcmd := w, busy := false }

/-- The return from an error (60_exceptions.md R216): ERR, ERRCODE and ERRCMD to 0 and nothing else. -/
def clearError (s : State) : State := { s with err := false, errcode := 0, errcmd := 0 }

/-! ## The host space -/

/-- The control/status registers (10_state.md R40), in the order of their offsets. -/
inductive Csr where
  | cmd | status | errcode | errcmd | arg | fcnt | hnum | pos | srate | facA | facS | binw
  | cfgN | cfgH | cfgDm | cfgVs | cfgChmax | cfgFlags
deriving DecidableEq, Repr

/-- A location of the host space (20_memory.md R62). In a pair element `second` tells the odd word from the even one. -/
inductive Loc where
  | csr (r : Csr)
  | sin (i : Nat)
  | sout (i : Nat)
  | frame (k : Nat) (second : Bool)
  | xf (k : Nat) (second : Bool)
  | rb (i : Nat)
  | sp (k : Nat) (second : Bool)
  | cb (i : Nat) (second : Bool)
  | wa (i : Nat)
  | ws (i : Nat)
deriving DecidableEq, Repr

/-- The registers at the offsets 0x00 to 0x11 (10_state.md R40). -/
def csrOf (offset : Nat) : Option Csr :=
  match offset with
  | 0x00 => some .cmd
  | 0x01 => some .status
  | 0x02 => some .errcode
  | 0x03 => some .errcmd
  | 0x04 => some .arg
  | 0x05 => some .fcnt
  | 0x06 => some .hnum
  | 0x07 => some .pos
  | 0x08 => some .srate
  | 0x09 => some .facA
  | 0x0A => some .facS
  | 0x0B => some .binw
  | 0x0C => some .cfgN
  | 0x0D => some .cfgH
  | 0x0E => some .cfgDm
  | 0x0F => some .cfgVs
  | 0x10 => some .cfgChmax
  | 0x11 => some .cfgFlags
  | _    => none

/-- `A[23:20]`, the region (20_memory.md R62). -/
def regionOf (a : Addr) : Nat := a.toNat / 2 ^ 20

/-- `A[19:0]`, the word offset in the region (20_memory.md R62). -/
def offsetOf (a : Addr) : Nat := a.toNat % 2 ^ 20

/-- An offset is odd: the second word of a pair element (20_memory.md R62). -/
def isSecond (o : Nat) : Bool := o % 2 = 1

/-- The location at an address; none for an unmapped address (20_memory.md R62, R67). -/
def locate (cfg : Config Word) (a : Addr) : Option Loc :=
  let o := offsetOf a
  match regionOf a with
  | 0x0 => (csrOf o).map .csr
  | 0x1 => if o < cfg.chmax then some (.sin o) else none
  | 0x2 => if o < cfg.vs then some (.sout o) else none
  | 0x3 => if o < cfg.n + 2 then some (.frame (o / 2) (isSecond o)) else none
  | 0x4 => if o < cfg.n + 2 then some (.xf (o / 2) (isSecond o)) else none
  | 0x5 => if o < cfg.n then some (.rb o) else none
  | 0x6 => if o < cfg.n + 2 then some (.sp (o / 2) (isSecond o)) else none
  | 0x7 => if o < 2 * cfg.n then some (.cb (o / 2) (isSecond o)) else none
  | 0x8 => if o < cfg.n then some (.wa o) else none
  | 0x9 => if o < cfg.n then some (.ws o) else none
  | _   => none

/-- One word of a bin: the amplitude in the even word, the frequency in the odd one (20_memory.md R62). -/
def binWord (b : Bin Word) (second : Bool) : Word := if second then b.freq else b.amp

/-- One word of a complex value: `re` in the even word, `im` in the odd one (20_memory.md R62). -/
def cxWord (c : Cx Word) (second : Bool) : Word := if second then c.im else c.re

/-- A bin with one of its words replaced. -/
def setBinWord (b : Bin Word) (second : Bool) (w : Word) : Bin Word :=
  if second then { b with freq := w } else { b with amp := w }

/-- A complex value with one of its words replaced. -/
def setCxWord (c : Cx Word) (second : Bool) (w : Word) : Cx Word :=
  if second then { c with im := w } else { c with re := w }

/-- The word a register reads as (10_state.md R40). -/
def csrRead (s : State) : Csr → Word
  | .cmd      => 0
  | .status   => statusWord s
  | .errcode  => s.errcode
  | .errcmd   => s.errcmd
  | .arg      => s.arg
  | .fcnt     => s.an.fcnt
  | .hnum     => BitVec.ofNat 32 s.an.hnum
  | .pos      => BitVec.ofNat 32 s.an.pos
  | .srate    => s.rates.srate
  | .facA     => s.rates.facA
  | .facS     => s.rates.facS
  | .binw     => s.rates.binw
  | .cfgN     => BitVec.ofNat 32 s.cfg.n
  | .cfgH     => BitVec.ofNat 32 s.cfg.h
  | .cfgDm    => BitVec.ofNat 32 s.cfg.dm
  | .cfgVs    => BitVec.ofNat 32 s.cfg.vs
  | .cfgChmax => BitVec.ofNat 32 s.cfg.chmax
  | .cfgFlags => cfgFlagsWord s.cfg.norm

/-- The word at a location (20_memory.md R63, R65). -/
def readLoc (s : State) : Loc → Word
  | .csr r     => csrRead s r
  | .sin i     => valAt num s.sin i
  | .sout i    => valAt num s.rs.sout i
  | .frame k b => binWord (binAt num s.an.frame k) b
  | .xf k b    => binWord (binAt num s.xf k) b
  | .rb i      => valAt num s.te.rb i
  | .sp k b    => cxWord (cxAt num s.te.sp k) b
  | .cb i b    => cxWord (cxAt num s.cb i) b
  | .wa i      => valAt num s.cfg.wa i
  | .ws i      => valAt num s.cfg.ws i

/-- `HostRead(A)` (20_memory.md R63); none is the answer `HostFault`. -/
def hostRead (s : State) (a : Addr) : Option Word := (locate s.cfg a).map (readLoc s)

/-- A read-only location (20_memory.md R66, 10_state.md R40). -/
def readOnly : Loc → Bool
  | .csr .cmd | .csr .status | .csr .arg => false
  | .csr _   => true
  | .sin _   => false
  | .sout _  => true
  | .frame _ _ => true
  | .xf _ _  => false
  | .rb _    => false
  | .sp _ _  => false
  | .cb _ _  => false
  | .wa _    => true
  | .ws _    => true

/-- A host write of `w` to a writable location other than CMD (20_memory.md R64): STATUS is write 1 to clear, every other
one plain storage. Nothing happens at CMD and at a read-only location: those are not written here. -/
def storeLoc (loc : Loc) (w : Word) (s : State) : State :=
  match loc with
  | .csr .status => if clearsError w then clearError s else s
  | .csr .arg    => { s with arg := w }
  | .csr _       => s
  | .sin i       => { s with sin := s.sin.set i w }
  | .sout _      => s
  | .frame _ _   => s
  | .xf k b      => { s with xf := s.xf.set k (setBinWord (binAt num s.xf k) b w) }
  | .rb i        => { s with te := { s.te with rb := s.te.rb.set i w } }
  | .sp k b      => { s with te := { s.te with sp := s.te.sp.set k (setCxWord (cxAt num s.te.sp k) b w) } }
  | .cb i b      => { s with cb := s.cb.set i (setCxWord (cxAt num s.cb i) b w) }
  | .wa _        => s
  | .ws _        => s

/-- Record the answer to the host (20_memory.md R63, R64, R67; entry 9). -/
def respond (r : Response) (s : State) : State := { s with response := r }

/-- `STATUS.BUSY <- b` (30_encoding.md R94). -/
def setBusy (b : Bool) (s : State) : State := { s with busy := b }

/-- The state with `rest` as the host's remaining actions (entry 8). -/
def withHost (rest : List HostAction) (s : State) : State := { s with host := rest }

/-! ## The storage's form -/

/-- The canonical form of the storage (10_state.md R25 to R39; entry 11): every array has exactly the length the
configuration gives it. -/
abbrev Memory.wf (s : State) : Prop :=
  s.an.ab.length = s.cfg.n ∧ s.an.pph.length = s.cfg.nb ∧ s.an.frame.length = s.cfg.nb ∧
  s.rs.ob.length = s.cfg.dm ∧ (∀ row ∈ s.rs.ob, row.length = s.cfg.n) ∧ s.rs.rcnt.length = s.cfg.dm ∧
  s.rs.phs.length = s.cfg.nb ∧ s.rs.sout.length = s.cfg.vs ∧
  s.te.rb.length = s.cfg.n ∧ s.te.sp.length = s.cfg.nb ∧ s.te.ts.length = s.cfg.m ∧
  s.cb.length = s.cfg.n ∧ s.sin.length = s.cfg.chmax ∧ s.xf.length = s.cfg.nb

end Sys2Proof.Machine
end

