-- ==== Sys2Proof/Machine/Transform.lean ====
section
/-! DEFINITION. The Transform Engine (41_transform.md): the complex core, the real transforms on a packed spectrum, and
the meanings of CFFT.F, CFFT.I, RFFT and IRFFT. -/

namespace Sys2Proof.Machine

/-- The two directions of a transform (41_transform.md R130). -/
inductive Direction where
  | forward
  | inverse
deriving DecidableEq, Repr

variable {V : Type}

/-! ## The complex core -/

/-- `bitrev(i, p)` (41_transform.md R131): bit 0 of `i` becomes bit p-1, the rest is reversed below it. -/
def bitrev (i : Nat) : Nat → Nat
  | 0     => 0
  | p + 1 => i % 2 * 2 ^ p + bitrev (i / 2) p

/-- `swap(a[i], a[j])` (00_scope.md R11). -/
def swapAt (num : Num V) (a : List (Cx V)) (i j : Nat) : List (Cx V) :=
  (a.set i (cxAt num a j)).set j (cxAt num a i)

/-- The bit-reversal permutation of `a[0..len-1]`, `len = 2^p` (41_transform.md R132). -/
def bitReverse (num : Num V) (len p : Nat) (a : List (Cx V)) : List (Cx V) :=
  forTo len (fun i a => if i < bitrev i p then swapAt num a i (bitrev i p) else a) a

/-- `sgn` as a value: -1 for forward and +1 for inverse (41_transform.md R132). -/
def sgnVal (num : Num V) : Direction → V
  | .forward => num.neg (num.ofNat 1)
  | .inverse => num.ofNat 1

/-- The twiddle `(cos(TWOPI × j / span), sgn × sin(TWOPI × j / span))` (41_transform.md R132; entry 6). -/
def twiddle (num : Num V) (dir : Direction) (j span : Nat) : Cx V :=
  ⟨num.cos (num.div (num.mul (twoPi num) (num.ofNat j)) (num.ofNat span)),
   num.mul (sgnVal num dir) (num.sin (num.div (num.mul (twoPi num) (num.ofNat j)) (num.ofNat span)))⟩

/-- One butterfly of the group at `g` (41_transform.md R132). -/
def butterfly (num : Num V) (dir : Direction) (span g j : Nat) (a : List (Cx V)) : List (Cx V) :=
  let half := span / 2
  let t := Cx.mul num (twiddle num dir j span) (cxAt num a (g + j + half))
  let u := cxAt num a (g + j)
  (a.set (g + j) (Cx.add num u t)).set (g + j + half) (Cx.sub num u t)

/-- One stage: the groups at 0, span, ..., len-span, and in each the butterflies j = 0..half-1 (41_transform.md R132). -/
def stage (num : Num V) (dir : Direction) (len span : Nat) (a : List (Cx V)) : List (Cx V) :=
  forTo (len / span) (fun g a => forTo (span / 2) (fun j a => butterfly num dir span (g * span) j a) a) a

/-- `cfft_core(a, len, sgn)` (41_transform.md R132): bit reversal, then the stages s = 1..log2(len). -/
def cfftCore (num : Num V) (dir : Direction) (len : Nat) (a : List (Cx V)) : List (Cx V) :=
  forTo (Nat.log2 len) (fun t a => stage num dir len (2 ^ (t + 1)) a) (bitReverse num len (Nat.log2 len) a)

/-- The direction divides by N in this configuration (41_transform.md R130). -/
def normalises (norm : Norm) : Direction → Bool
  | .forward => norm = .fwd
  | .inverse => norm = .inv

/-- Division of every element by N where the direction is the normalised one (41_transform.md R130, R133 to R135). -/
def scaleBy (num : Num V) (cfg : Config V) (dir : Direction) (a : List (Cx V)) : List (Cx V) :=
  if normalises cfg.norm dir then a.map fun c => Cx.divBy num c (num.ofNat cfg.n) else a

/-- The N-point complex transform of CFFT.F and CFFT.I (41_transform.md R133, R134). -/
def cfft (num : Num V) (cfg : Config V) (dir : Direction) (cb : List (Cx V)) : List (Cx V) :=
  scaleBy num cfg dir (cfftCore num dir cfg.n cb)

/-! ## The real forward transform (41_transform.md R135) -/

/-- Step 1: two real samples per complex slot. -/
def packReal (num : Num V) (m : Nat) (rb : List V) : List (Cx V) :=
  (List.range m).map fun k => ⟨valAt num rb (2 * k), valAt num rb (2 * k + 1)⟩

/-- Step 3: slot 0 from (zr, zi) to (zr + zi, zr - zi), the DC and the Nyquist value. -/
def splitSlot0 (num : Num V) (ts : List (Cx V)) : List (Cx V) :=
  let z := cxAt num ts 0
  ts.set 0 ⟨num.add z.re z.im, num.sub z.re z.im⟩

/-- The body of step 4 for one k: the even/odd split of slots k and M - k. -/
def splitPair (num : Num V) (m k : Nat) (w : Cx V) (ts : List (Cx V)) : List (Cx V) :=
  let a := cxAt num ts k
  let b := Cx.conj num (cxAt num ts (m - k))
  let e := Cx.divBy num (Cx.add num a b) (num.ofNat 2)
  let o := Cx.mul num (Cx.sub num a b) ⟨num.ofNat 0, num.neg num.half⟩
  let t := Cx.mul num w o
  (ts.set k (Cx.add num e t)).set (m - k) (Cx.conj num (Cx.sub num e t))

/-- Step 4: the split of slots 1..M-1, two at a time, the twiddle by recurrence. -/
def splitLoop (num : Num V) (cfg : Config V) (ts : List (Cx V)) : List (Cx V) :=
  let w1 : Cx V := ⟨num.cos (num.div (twoPi num) (num.ofNat cfg.n)),
                    num.neg (num.sin (num.div (twoPi num) (num.ofNat cfg.n)))⟩
  (forTo (cfg.m / 2)
    (fun t (p : List (Cx V) × Cx V) => (splitPair num cfg.m (t + 1) p.2 p.1, Cx.mul num p.2 w1))
    (ts, w1)).1

/-- Step 6: the packed spectrum as N/2+1 bins. -/
def unpackSpectrum (num : Num V) (m : Nat) (ts : List (Cx V)) : List (Cx V) :=
  (List.range (m + 1)).map fun k =>
    if k = 0 then ⟨(cxAt num ts 0).re, num.ofNat 0⟩
    else if k = m then ⟨(cxAt num ts 0).im, num.ofNat 0⟩
    else cxAt num ts k

/-- The packed spectrum of RB: steps 1 to 5, what TS holds after them. -/
def packedSpectrum (num : Num V) (cfg : Config V) (rb : List V) : List (Cx V) :=
  scaleBy num cfg .forward
    (splitLoop num cfg (splitSlot0 num (cfftCore num .forward cfg.m (packReal num cfg.m rb))))

/-- `rfft()` (41_transform.md R135): reads RB, overwrites TS, writes SP. -/
def rfft (num : Num V) (cfg : Config V) (te : Engine V) : Engine V :=
  { te with
    ts := packedSpectrum num cfg te.rb
    sp := unpackSpectrum num cfg.m (packedSpectrum num cfg te.rb) }

/-! ## The real inverse transform (41_transform.md R137) -/

/-- Steps 1 and 2: the N/2+1 bins into the packed spectrum; slot 0 from the real parts of bins 0 and M. -/
def packSpectrum (num : Num V) (m : Nat) (sp : List (Cx V)) : List (Cx V) :=
  (List.range m).map fun k =>
    if k = 0 then
      ⟨num.div (num.add (cxAt num sp 0).re (cxAt num sp m).re) (num.ofNat 2),
       num.div (num.sub (cxAt num sp 0).re (cxAt num sp m).re) (num.ofNat 2)⟩
    else cxAt num sp k

/-- The body of step 3 for one k: even and odd parts merged into slots k and M - k. -/
def mergePair (num : Num V) (m k : Nat) (w : Cx V) (ts : List (Cx V)) : List (Cx V) :=
  let a := cxAt num ts k
  let b := Cx.conj num (cxAt num ts (m - k))
  let e := Cx.divBy num (Cx.add num a b) (num.ofNat 2)
  let o := Cx.mul num (Cx.divBy num (Cx.sub num a b) (num.ofNat 2)) w
  (ts.set k ⟨num.sub e.re o.im, num.add e.im o.re⟩).set (m - k)
    ⟨num.add e.re o.im, num.add (num.neg e.im) o.re⟩

/-- Step 3: the merge of slots 1..M-1, two at a time, the twiddle by recurrence, conjugate direction. -/
def mergeLoop (num : Num V) (cfg : Config V) (ts : List (Cx V)) : List (Cx V) :=
  let w1 : Cx V := ⟨num.cos (num.div (twoPi num) (num.ofNat cfg.n)),
                    num.sin (num.div (twoPi num) (num.ofNat cfg.n))⟩
  (forTo (cfg.m / 2)
    (fun t (p : List (Cx V) × Cx V) => (mergePair num cfg.m (t + 1) p.2 p.1, Cx.mul num p.2 w1))
    (ts, w1)).1

/-- The factor `g` of step 5: `2 / N` when NORM = INV, 2 when NORM = FWD. -/
def irfftScale (num : Num V) (cfg : Config V) : V :=
  match cfg.norm with
  | .inv => num.div (num.ofNat 2) (num.ofNat cfg.n)
  | .fwd => num.ofNat 2

/-- Step 5: slot m holds samples 2m and 2m+1, scaled by g. -/
def unpackReal (num : Num V) (n : Nat) (g : V) (ts : List (Cx V)) : List V :=
  (List.range n).map fun i =>
    num.mul g (if i % 2 = 0 then (cxAt num ts (i / 2)).re else (cxAt num ts (i / 2)).im)

/-- The time-domain pairs before the final scale: steps 1 to 4, what TS holds after them. -/
def timePairs (num : Num V) (cfg : Config V) (sp : List (Cx V)) : List (Cx V) :=
  cfftCore num .inverse cfg.m (mergeLoop num cfg (packSpectrum num cfg.m sp))

/-- `irfft()` (41_transform.md R137): reads SP, overwrites TS, writes RB. -/
def irfft (num : Num V) (cfg : Config V) (te : Engine V) : Engine V :=
  { te with
    ts := timePairs num cfg te.sp
    rb := unpackReal num cfg.n (irfftScale num cfg) (timePairs num cfg te.sp) }

/-! ## The commands -/

/-- `CFFT.F` (41_transform.md R133). -/
def execCfftF (s : State) : Result := .next { s with cb := cfft num s.cfg .forward s.cb }

/-- `CFFT.I` (41_transform.md R134). -/
def execCfftI (s : State) : Result := .next { s with cb := cfft num s.cfg .inverse s.cb }

/-- `RFFT` (41_transform.md R136). -/
def execRfft (s : State) : Result := .next { s with te := rfft num s.cfg s.te }

/-- `IRFFT` (41_transform.md R138). -/
def execIrfft (s : State) : Result := .next { s with te := irfft num s.cfg s.te }

end Sys2Proof.Machine
end

