-- ==== Sys2Proof/Machine/Analysis.lean ====
section
/-! DEFINITION. The Streaming Analyzer (42_analyzer.md) and the meaning of ANALYZE. -/

namespace Sys2Proof.Machine

variable {V : Type}

/-- The rotating offset of hop buffer `b`, `((b + 1) mod dm) × H` (42_analyzer.md R163, 43_resynth.md R183). -/
def ringOffset (cfg : Config V) (b : Nat) : Nat := (b + 1) % cfg.dm * cfg.h

/-- The windowed segment in ring order, `RB[i] = AB[i] × WA[(i - o) mod N]` (42_analyzer.md R163, R164). -/
def windowSegment (num : Num V) (cfg : Config V) (an : Analyzer V) : List V :=
  (List.range cfg.n).map fun i =>
    num.mul (valAt num an.ab i) (valAt num cfg.wa ((i + cfg.n - ringOffset cfg an.hnum) % cfg.n))

/-- Bin k of a completed hop: TOPOLAR, BIN.DIFF, PH2HZ (42_analyzer.md R163). -/
def analyzeBin (num : Num V) (r : Rates V) (sp : List (Cx V)) (k : Nat) (p : List V × List (Bin V)) :
    List V × List (Bin V) :=
  let aφ := toPolar num (cxAt num sp k)
  let d := binDiff num aφ.2 k p.1
  (d.2, p.2.set k ⟨aφ.1, ph2hz num r d.1 k⟩)

/-- The engine after the windowed segment is transformed (42_analyzer.md R163). -/
def hopEngine (num : Num V) (cfg : Config V) (p : Analyzer V × Engine V) : Engine V :=
  rfft num cfg { p.2 with rb := windowSegment num cfg p.1 }

/-- The bins k = 0..N/2 of a completed hop: the previous phases and the frame after (42_analyzer.md R163). -/
def hopBins (num : Num V) (cfg : Config V) (r : Rates V) (sp : List (Cx V)) (an : Analyzer V) :
    List V × List (Bin V) :=
  forTo cfg.nb (fun k q => analyzeBin num r sp k q) (an.pph, an.frame)

/-- `complete_hop()` (42_analyzer.md R163). -/
def completeHop (num : Num V) (cfg : Config V) (r : Rates V) (p : Analyzer V × Engine V) :
    Analyzer V × Engine V :=
  ({ p.1 with
      pph   := (hopBins num cfg r (hopEngine num cfg p).sp p.1).1
      frame := (hopBins num cfg r (hopEngine num cfg p).sp p.1).2
      fcnt  := p.1.fcnt + 1
      pos   := 0
      hnum  := (p.1.hnum + 1) % cfg.dm },
   hopEngine num cfg p)

/-- The copy of samples `SIN[i..i+n-1]` into the current hop buffer at offset POS, which advances (42_analyzer.md R161). -/
def acceptSamples (num : Num V) (cfg : Config V) (sin : List V) (i n : Nat) (an : Analyzer V) : Analyzer V :=
  { an with
    ab  := forTo n (fun q ab => ab.set (an.hnum * cfg.h + an.pos + q) (valAt num sin (i + q))) an.ab
    pos := an.pos + n }

/-- One iteration of the loop of ANALYZE: accept `n` samples from `i`, and complete the hop when POS = H (42_analyzer.md R161). -/
def analyzeIter (num : Num V) (cfg : Config V) (r : Rates V) (sin : List V) (i n : Nat) (p : Analyzer V × Engine V) :
    Analyzer V × Engine V :=
  if (acceptSamples num cfg sin i n p.1).pos = cfg.h
  then completeHop num cfg r (acceptSamples num cfg sin i n p.1, p.2)
  else (acceptSamples num cfg sin i n p.1, p.2)

/-- `min(len - i, H - POS)`, as many samples as fit (42_analyzer.md R161). -/
def fitting (cfg : Config V) (len i : Nat) (an : Analyzer V) : Nat := min (len - i) (cfg.h - an.pos)

/-- The loop of ANALYZE from sample `i` (42_analyzer.md R161). `fuel` bounds the iterations: each one moves `i` forward
while POS < H, so `len` of them are enough (entry 14). -/
def analyzeLoop (num : Num V) (cfg : Config V) (r : Rates V) (sin : List V) (len : Nat) :
    Nat → Nat → Analyzer V × Engine V → Analyzer V × Engine V
  | 0, _, p => p
  | fuel + 1, i, p =>
    if i < len then
      analyzeLoop num cfg r sin len fuel (i + fitting cfg len i p.1)
        (analyzeIter num cfg r sin i (fitting cfg len i p.1) p)
    else p

/-- `ANALYZE len` on the analyzer and the engine, `len` in range (42_analyzer.md R161). -/
def analyze (num : Num V) (cfg : Config V) (r : Rates V) (sin : List V) (len : Nat) (p : Analyzer V × Engine V) :
    Analyzer V × Engine V :=
  analyzeLoop num cfg r sin len len 0 p

/-- `ANALYZE len` (42_analyzer.md R161). -/
def execAnalyze (len : Nat) (s : State) : Result :=
  if lengthOutOfRange len s then .next (raise .lengthRange (encode (.analyze len)) s)
  else
    .next { s with
      an := (analyze num s.cfg s.rates s.sin len (s.an, s.te)).1
      te := (analyze num s.cfg s.rates s.sin len (s.an, s.te)).2 }

end Sys2Proof.Machine
end

