-- ==== Sys2Proof/Machine/Resynthesis.lean ====
section
/-! DEFINITION. The Streaming Resynthesizer (43_resynth.md) and the meaning of RESYNTH. -/

namespace Sys2Proof.Machine

variable {V : Type}

/-- Counter `RCNT[b]` (10_state.md R31; entry 14). -/
def counterAt (rs : Resynth V) (b : Nat) : Nat := rs.rcnt.getD b 0

/-- Output buffer `OB[b]` (10_state.md R30; entry 14). -/
def bufferAt (rs : Resynth V) (b : Nat) : List V := rs.ob.getD b []

/-- Bin k of a refresh: HZ2INC, BIN.INTEG, TORECT (43_resynth.md R183). -/
def refreshBin (num : Num V) (r : Rates V) (f : List (Bin V)) (k : Nat) (p : List V × List (Cx V)) :
    List V × List (Cx V) :=
  let φ := binInteg num (hz2inc num r (binAt num f k).freq k) k p.1
  (φ.2, p.2.set k (toRect num (binAt num f k).amp φ.1))

/-- The refilled buffer, `OB[b][c] = RB[(c + o) mod N] × WS[c]` (43_resynth.md R183, R184). -/
def playSegment (num : Num V) (cfg : Config V) (b : Nat) (rb : List V) : List V :=
  (List.range cfg.n).map fun c =>
    num.mul (valAt num rb ((c + ringOffset cfg b) % cfg.n)) (valAt num cfg.ws c)

/-- The bins k = 0..N/2 of a refresh: the running phases and the spectrum after (43_resynth.md R183). -/
def refreshBins (num : Num V) (cfg : Config V) (r : Rates V) (f : List (Bin V)) (phs : List V) (sp : List (Cx V)) :
    List V × List (Cx V) :=
  forTo cfg.nb (fun k q => refreshBin num r f k q) (phs, sp)

/-- The engine after the rebuilt spectrum is inverse-transformed (43_resynth.md R183). -/
def refreshEngine (num : Num V) (cfg : Config V) (r : Rates V) (f : List (Bin V)) (p : Resynth V × Engine V) :
    Engine V :=
  irfft num cfg { p.2 with sp := (refreshBins num cfg r f p.1.phs p.2.sp).2 }

/-- `refresh(b, F)` (43_resynth.md R183). -/
def refresh (num : Num V) (cfg : Config V) (r : Rates V) (f : List (Bin V)) (b : Nat)
    (p : Resynth V × Engine V) : Resynth V × Engine V :=
  ({ p.1 with
      phs := (refreshBins num cfg r f p.1.phs p.2.sp).1
      ob  := p.1.ob.set b (playSegment num cfg b (refreshEngine num cfg r f p).rb) },
   refreshEngine num cfg r f p)

/-- The overlap sum of one output sample, `acc` from zero over b = 0..dm-1 (43_resynth.md R182). -/
def overlapSum (num : Num V) (cfg : Config V) (rs : Resynth V) : V :=
  forTo cfg.dm (fun b acc => num.add acc (valAt num (bufferAt rs b) (counterAt rs b))) (zero num)

/-- `RCNT[b] <- v` (43_resynth.md R182). -/
def setCounter (b v : Nat) (rs : Resynth V) : Resynth V := { rs with rcnt := rs.rcnt.set b v }

/-- `RCNT[b] <- RCNT[b] + 1` (43_resynth.md R182). -/
def countUp (b : Nat) (rs : Resynth V) : Resynth V := setCounter b (counterAt rs b + 1) rs

/-- Refresh buffer b and return its counter to 0 (43_resynth.md R182). -/
def refreshAndClear (num : Num V) (cfg : Config V) (r : Rates V) (f : List (Bin V)) (b : Nat)
    (p : Resynth V × Engine V) : Resynth V × Engine V :=
  (setCounter b 0 (refresh num cfg r f b p).1, (refresh num cfg r f b p).2)

/-- Advance counter b; at N refresh buffer b and return the counter to 0 (43_resynth.md R182). -/
def advance (num : Num V) (cfg : Config V) (r : Rates V) (f : List (Bin V)) (b : Nat)
    (p : Resynth V × Engine V) : Resynth V × Engine V :=
  if counterAt (countUp b p.1) b = cfg.n then refreshAndClear num cfg r f b (countUp b p.1, p.2)
  else (countUp b p.1, p.2)

/-- One output sample: read all buffers, then advance all counters (43_resynth.md R182). -/
def outputSample (num : Num V) (cfg : Config V) (r : Rates V) (f : List (Bin V)) (i : Nat)
    (p : Resynth V × Engine V) : Resynth V × Engine V :=
  forTo cfg.dm (fun b q => advance num cfg r f b q)
    ({ p.1 with sout := p.1.sout.set i (overlapSum num cfg p.1) }, p.2)

/-- The sample loop of RESYNTH with source frame `f` (43_resynth.md R182). -/
def resynthesize (num : Num V) (cfg : Config V) (r : Rates V) (f : List (Bin V)) (p : Resynth V × Engine V) :
    Resynth V × Engine V :=
  forTo cfg.vs (fun i q => outputSample num cfg r f i q) p

/-- `RESYNTH src` (43_resynth.md R181). -/
def execResynth (src : Source) (s : State) : Result :=
  .next { s with
    rs := (resynthesize num s.cfg s.rates (sourceFrame src s) (s.rs, s.te)).1
    te := (resynthesize num s.cfg s.rates (sourceFrame src s) (s.rs, s.te)).2 }

end Sys2Proof.Machine
end

