-- ==== Sys2Proof/Machine/System.lean ====
section
/-! DEFINITION. The system command RESET (44_system.md). -/

namespace Sys2Proof.Machine

/-- `RESET` (44_system.md R200, R201): BadRate for a rate that is not positive and finite, else the four rate registers. -/
def execReset (s : State) : Result :=
  if isLegalRate (rateOperand s) then .next { s with rates := ratesOf num s.cfg (rateOperand s) }
  else .next (raise .badRate (encode .reset) s)

end Sys2Proof.Machine
end

