-- ==== Sys2Proof/Machine/Dispatch.lean ====
section
/-! DEFINITION. The meaning of every command, one arm each (30_encoding.md R93). -/

namespace Sys2Proof.Machine

def exec (i : Instr) (s : State) : Host.Outcome State Fault Refusal :=
  match i with
  | .cfftF => Sys2Proof.Machine.execCfftF s
  | .cfftI => Sys2Proof.Machine.execCfftI s
  | .rfft => Sys2Proof.Machine.execRfft s
  | .irfft => Sys2Proof.Machine.execIrfft s
  | .analyze len => Sys2Proof.Machine.execAnalyze len s
  | .resynth src => Sys2Proof.Machine.execResynth src s
  | .reset => Sys2Proof.Machine.execReset s

end Sys2Proof.Machine
end

