-- ==== Sys2Proof/Machine/Issue.lean ====
section
/-! DEFINITION. Issuing a command word (30_encoding.md R94) and performing one host action (20_memory.md R63, R64). -/

namespace Sys2Proof.Machine

/-- The end of a command: `STATUS.BUSY <- 0` (30_encoding.md R94). -/
def complete : Result → Result
  | .next t    => .next (setBusy false t)
  | .fault r   => .fault r
  | .refused r => .refused r

/-- `issue(w)` (30_encoding.md R94): discarded while ERR = 1 (60_exceptions.md R215); else decoded and executed with BUSY = 1. -/
def issue (w : Word) (s : State) : Result :=
  if s.err then .next s
  else
    match decode w with
    | .ok i    => complete (exec i (setBusy true s))
    | .error c => .next (raise c w (setBusy true s))

/-- `HostRead(A)` as a step: the answer and nothing else (20_memory.md R63). -/
def performRead (a : Addr) (s : State) : Result :=
  match hostRead s a with
  | some w => .next (respond (.word w) s)
  | none   => .next (respond .hostFault s)

/-- `HostWrite(A, w)` as a step (20_memory.md R64): `HostFault` and no change for an unmapped or read-only location, a
command at CMD, a store elsewhere. -/
def performWrite (a : Addr) (w : Word) (s : State) : Result :=
  match locate s.cfg a with
  | none => .next (respond .hostFault s)
  | some loc =>
    if readOnly loc then .next (respond .hostFault s)
    else if loc = .csr .cmd then issue w (respond .done s)
    else .next (storeLoc loc w (respond .done s))

/-- Hardware reset (70_reset_and_hazards.md R240, 10_state.md R50): every piece of state at its reset value, the same
configuration; the host's remaining actions are the host's (entry 10). -/
def performReset (s : State) : State := withHost s.host (State.resetOf s.cfg)

/-- The address of STATUS, the one location the host may read while BUSY = 1 (20_memory.md R78). -/
def statusAddr : Addr := 0x000001

/-- The host may do this now (20_memory.md R63, R64, R78): everything while BUSY = 0, a read of STATUS or a hardware
reset at any time (70_reset_and_hazards.md R240). -/
def permitted (act : HostAction) (s : State) : Bool :=
  !s.busy || act = .read statusAddr || act = .hardwareReset

/-- One host action (20_memory.md R73: one at a time, each complete before the next). -/
def perform (act : HostAction) (s : State) : Result :=
  if permitted act s then
    match act with
    | .read a        => performRead a s
    | .write a w     => performWrite a w s
    | .hardwareReset => .next (performReset s)
  else .refused .hostAccessWhileBusy

/-- The next host action; with none left the machine is idle and keeps all state (60_exceptions.md R226). -/
def runHost (s : State) : Result :=
  match s.host with
  | []          => .next s
  | act :: rest => perform act (withHost rest s)

/-- The address of CMD (10_state.md R40). -/
def cmdAddr : Addr := 0x000000

end Sys2Proof.Machine
end

