-- ==== Sys2Proof/Machine/Step.lean ====
section
/-! DEFINITION. One step of the machine: the host's next action. -/

namespace Sys2Proof.Machine

/-- One step: the next action of the host, a command being one atomic step (20_memory.md R73, R78). -/
def step (s : State) : Host.Outcome State Fault Refusal := runHost s

/-- `s` with the command word `w` as the host's next action, a write to CMD (30_encoding.md R90; entry 8). A command is
one 32-bit word: the bits above `nbits` are zero. -/
def State.withFetchWord (s : State) (nbits w : Nat) : State :=
  { s with host := .write cmdAddr (BitVec.ofNat 32 (w % 2 ^ nbits)) :: s.host }

end Sys2Proof.Machine
end

