-- ==== Sys2Proof/Machine/HostScript.lean ====
section
/-! DEFINITION. The host's side of the interface: addresses of locations and assembler text (30_encoding.md R97, R98), the
pseudo-instructions (R99) and the poll of the frame counter (60_exceptions.md R222). No step reads this file. -/

namespace Sys2Proof.Machine

/-- The offset of a register (10_state.md R40). -/
def csrOffset : Csr → Nat
  | .cmd => 0x00 | .status => 0x01 | .errcode => 0x02 | .errcmd => 0x03 | .arg => 0x04 | .fcnt => 0x05
  | .hnum => 0x06 | .pos => 0x07 | .srate => 0x08 | .facA => 0x09 | .facS => 0x0A | .binw => 0x0B
  | .cfgN => 0x0C | .cfgH => 0x0D | .cfgDm => 0x0E | .cfgVs => 0x0F | .cfgChmax => 0x10 | .cfgFlags => 0x11

/-- The address `{region, offset}` (30_encoding.md R98). -/
def addrAt (region offset : Nat) : Addr := BitVec.ofNat 24 (region * 2 ^ 20 + offset)

/-- The offset of one word of a pair element (30_encoding.md R98). -/
def pairOffset (k : Nat) (second : Bool) : Nat := if second then 2 * k + 1 else 2 * k

/-- The address of a location (30_encoding.md R98, 20_memory.md R62). -/
def addrOf : Loc → Addr
  | .csr r     => addrAt 0x0 (csrOffset r)
  | .sin i     => addrAt 0x1 i
  | .sout i    => addrAt 0x2 i
  | .frame k b => addrAt 0x3 (pairOffset k b)
  | .xf k b    => addrAt 0x4 (pairOffset k b)
  | .rb i      => addrAt 0x5 i
  | .sp k b    => addrAt 0x6 (pairOffset k b)
  | .cb i b    => addrAt 0x7 (pairOffset i b)
  | .wa i      => addrAt 0x8 i
  | .ws i      => addrAt 0x9 i

/-- The location exists in this configuration (20_memory.md R62). -/
def existsLoc (cfg : Config Word) : Loc → Bool
  | .csr _     => true
  | .sin i     => i < cfg.chmax
  | .sout i    => i < cfg.vs
  | .frame k _ => k < cfg.nb
  | .xf k _    => k < cfg.nb
  | .rb i      => i < cfg.n
  | .sp k _    => k < cfg.nb
  | .cb i _    => i < cfg.n
  | .wa i      => i < cfg.n
  | .ws i      => i < cfg.n

/-- A command line of a host script: `HostWrite(CSR[CMD], word)` (30_encoding.md R97). -/
def issueAction (i : Instr) : HostAction := .write cmdAddr (encode i)

/-- `.word w` (30_encoding.md R97). -/
def wordAction (w : Word) : HostAction := .write cmdAddr w

/-- The text of a command (30_encoding.md R97). -/
def asmText : Instr → String
  | .cfftF          => "CFFT.F"
  | .cfftI          => "CFFT.I"
  | .rfft           => "RFFT"
  | .irfft          => "IRFFT"
  | .analyze len    => "ANALYZE " ++ toString len
  | .resynth .frame => "RESYNTH A"
  | .resynth .xf    => "RESYNTH X"
  | .reset          => "RESET"

/-- `SETRATE v` (30_encoding.md R99), `v` as its word. -/
def setRate (v : Word) : List HostAction := [.write (addrOf (.csr .arg)) v, issueAction .reset]

/-- `PUSH v0, ..., v(n-1)` (30_encoding.md R99), the values as their words. -/
def pushSamples (vs : List Word) : List HostAction :=
  vs.zipIdx.map (fun p => .write (addrOf (.sin p.2)) p.1) ++ [issueAction (.analyze vs.length)]

/-- `CLRERR` (30_encoding.md R99). -/
def clrErr : List HostAction := [.write (addrOf (.csr .status)) 0x00000002]

/-- `consumer_poll(last)` (60_exceptions.md R222): the consumer's new `last`, and the frame where a hop completed since. -/
def consumerPoll (last : Word) (s : State) : Word × Option (List (Bin Word)) :=
  if s.an.fcnt = last then (last, none) else (s.an.fcnt, some s.an.frame)

end Sys2Proof.Machine
end

