-- ==== Sys2Proof/Machine/Ideal.lean ====
section
/-! DEFINITION. The ideal semantics (00_scope.md R12): the same rules over the real numbers, and the sums the transforms
are measured against (41_transform.md R139). Used by statements only; no step reads this file. -/

namespace Sys2Proof.Machine

open Complex in
/-- The numerics of the ideal semantics (00_scope.md R12): the real numbers. `atan2` is the angle in (-π, π] (40_bin_ops.md R111). -/
noncomputable def ideal : Num ℝ where
  ofNat  := fun n => (n : ℝ)
  half   := 1 / 2
  pi     := Real.pi
  add    := fun a b => a + b
  sub    := fun a b => a - b
  mul    := fun a b => a * b
  div    := fun a b => a / b
  neg    := fun a => -a
  sqrt   := Real.sqrt
  cos    := Real.cos
  sin    := Real.sin
  ceil   := fun a => (⌈a⌉ : ℝ)
  atan2  := fun im re => Complex.arg ⟨re, im⟩
  isZero := fun a => @decide (a = 0) (Classical.propDecidable _)

/-- A complex value as a complex number. -/
def toC (c : Cx ℝ) : ℂ := ⟨c.re, c.im⟩

/-- Element `k` of an array of complex values as a complex number. -/
noncomputable def cAt (a : List (Cx ℝ)) (k : Nat) : ℂ := toC (cxAt ideal a k)

/-- The kernel `e^(∓2πi·nk/L)`, minus for forward and plus for inverse (41_transform.md R130). -/
noncomputable def kernel (dir : Direction) (len n k : Nat) : ℂ :=
  Complex.exp ((match dir with | .forward => -1 | .inverse => 1) * (2 * Real.pi * Complex.I * (n * k) / len))

/-- The scales `sf` and `si` (41_transform.md R130). -/
noncomputable def dirScale (c : Config ℝ) (dir : Direction) : ℂ :=
  if normalises c.norm dir then 1 / c.n else 1

/-- The transform sum over `len` points (41_transform.md R139). -/
noncomputable def dft (dir : Direction) (len : Nat) (x : Nat → ℂ) (k : Nat) : ℂ :=
  ∑ n ∈ Finset.range len, x n * kernel dir len n k

/-- `Xh`, the full spectrum of the real inverse transform (41_transform.md R139). -/
noncomputable def hermitian (n : Nat) (sp : List (Cx ℝ)) (k : Nat) : ℂ :=
  if k = 0 then ((cAt sp 0).re : ℂ)
  else if k < n / 2 then cAt sp k
  else if k = n / 2 then ((cAt sp (n / 2)).re : ℂ)
  else (starRingEnd ℂ) (cAt sp (n - k))

/-- The analyzer, the engine and the resynthesizer after hardware reset, under the ideal semantics (10_state.md R50). -/
noncomputable def idealReset (c : Config ℝ) : Analyzer ℝ × Engine ℝ × Resynth ℝ :=
  (Analyzer.resetOf ideal c, Engine.resetOf ideal c, Resynth.resetOf ideal c)

/-- One round of the lockstep host (43_resynth.md R187): write `H` samples, `ANALYZE H`, `RESYNTH A`. -/
noncomputable def lockstepRound (c : Config ℝ) (chunk : List ℝ) (p : Analyzer ℝ × Engine ℝ × Resynth ℝ) :
    Analyzer ℝ × Engine ℝ × Resynth ℝ :=
  let r := ratesOf ideal c c.sr0
  let a := analyze ideal c r chunk c.h (p.1, p.2.1)
  let q := resynthesize ideal c r a.1.frame (p.2.2, a.2)
  (a.1, q.2, q.1)

/-- The state after `j` rounds of the lockstep host on the input stream `x` (43_resynth.md R187). -/
noncomputable def lockstep (c : Config ℝ) (x : Nat → ℝ) (j : Nat) : Analyzer ℝ × Engine ℝ × Resynth ℝ :=
  forTo j (fun i p => lockstepRound c ((List.range c.h).map fun q => x (i * c.h + q)) p) (idealReset c)

/-- The analyzer after `j` hops of the input stream `x`, one `ANALYZE H` each, from hardware reset. -/
noncomputable def analyzed (c : Config ℝ) (x : Nat → ℝ) (j : Nat) : Analyzer ℝ × Engine ℝ :=
  forTo j (fun i p => analyze ideal c (ratesOf ideal c c.sr0)
      ((List.range c.h).map fun q => x (i * c.h + q)) c.h p)
    (Analyzer.resetOf ideal c, Engine.resetOf ideal c)

end Sys2Proof.Machine
end

