-- ==== Sys2Proof/Machine/Reference.lean ====
section
/-! DEFINITION. A second description of the transforms, by recursion instead of in place, for any numerics. Used by
statements only; no step reads this file. -/

namespace Sys2Proof.Machine

variable {V : Type}

/-- The decimation-in-time recursion over 2^p points: the transforms of the even and of the odd elements, joined by the
butterflies of 41_transform.md R132. -/
def fftRec (num : Num V) (dir : Direction) : Nat → (Nat → Cx V) → Nat → Cx V
  | 0, x, _ => x 0
  | p + 1, x, k =>
    let u := fftRec num dir p (fun i => x (2 * i)) (k % 2 ^ p)
    let t := Cx.mul num (twiddle num dir (k % 2 ^ p) (2 ^ (p + 1)))
      (fftRec num dir p (fun i => x (2 * i + 1)) (k % 2 ^ p))
    if k < 2 ^ p then Cx.add num u t else Cx.sub num u t

/-- The twiddle of iteration `t + 1` of the recurrence `w <- w × w1` that starts at `w1` (41_transform.md R135, R137). -/
def recurTwiddle (num : Num V) (w1 : Cx V) : Nat → Cx V
  | 0 => w1
  | t + 1 => Cx.mul num (recurTwiddle num w1 t) w1

/-- `w1` of the real forward transform, `(cos(TWOPI / N), -sin(TWOPI / N))` (41_transform.md R135). -/
def splitTwiddle (num : Num V) (n : Nat) : Cx V :=
  ⟨num.cos (num.div (twoPi num) (num.ofNat n)), num.neg (num.sin (num.div (twoPi num) (num.ofNat n)))⟩

/-- `w1` of the real inverse transform, `(cos(TWOPI / N), +sin(TWOPI / N))` (41_transform.md R137). -/
def mergeTwiddle (num : Num V) (n : Nat) : Cx V :=
  ⟨num.cos (num.div (twoPi num) (num.ofNat n)), num.sin (num.div (twoPi num) (num.ofNat n))⟩

end Sys2Proof.Machine
end

