-- ==== Sys2Proof/Safety.lean ====
section
/-! DEFINITION. What holds between any two commands (10_state.md R53), and the part of the state that never depends on
values (70_reset_and_hazards.md R262). -/

namespace Sys2Proof.Machine

/-- The counters of the resynthesizer after T output samples: `RCNT[b] = (T + (dm - 1 - b) × H) mod N` (43_resynth.md R185). -/
def counterPattern {V : Type} (cfg : Config V) (t : Nat) : List Nat :=
  (List.range cfg.dm).map fun b => (t + (cfg.dm - 1 - b) * cfg.h) % cfg.n

/-- The counters follow the pattern for some T (10_state.md R31). -/
abbrev CountersSpaced (s : State) : Prop := ∃ t < s.cfg.n, s.rs.rcnt = counterPattern s.cfg t

/-- The error registers agree (10_state.md R43, R53): both zero while ERR = 0, a cause code 1..4 while ERR = 1. -/
abbrev ErrorRegistersAgree (s : State) : Prop :=
  (s.err = false → s.errcode = 0 ∧ s.errcmd = 0) ∧ (s.err = true → 1 ≤ s.errcode.toNat ∧ s.errcode.toNat ≤ 4)

/-- The rate registers are those of one legal sample rate (10_state.md R45). -/
abbrev RatesDerived (s : State) : Prop :=
  isLegalRate s.rates.srate = true ∧ s.rates = ratesOf num s.cfg s.rates.srate

/-- The invariant of 10_state.md R53 but for its clause on phases, which is about the ideal semantics: a legal
configuration, arrays of the configured lengths, indices in range, BUSY = 0, error registers that agree, derived rates. -/
abbrev Inv (s : State) : Prop :=
  LegalConfig s.cfg ∧ Memory.wf s ∧ s.an.hnum < s.cfg.dm ∧ s.an.pos < s.cfg.h ∧ CountersSpaced s ∧
  s.busy = false ∧ ErrorRegistersAgree s ∧ RatesDerived s

/-- A safe run's every state: the invariant holds and no command error is pending. -/
abbrev Safe (s : State) : Prop := Inv s ∧ s.err = false

/-- The control part of the state: everything that is not a value, or is a value the host gave as an operand (ARG). -/
structure Control where
  cfg     : Config Word
  busy    : Bool
  err     : Bool
  errcode : Word
  errcmd  : Word
  arg     : Word
  rates   : Rates Word
  hnum    : Nat
  pos     : Nat
  fcnt    : BitVec 32
  rcnt    : List Nat
  host    : List HostAction
deriving DecidableEq, Repr

/-- The control part of a state. -/
def control (s : State) : Control where
  cfg     := s.cfg
  busy    := s.busy
  err     := s.err
  errcode := s.errcode
  errcmd  := s.errcmd
  arg     := s.arg
  rates   := s.rates
  hnum    := s.an.hnum
  pos     := s.an.pos
  fcnt    := s.an.fcnt
  rcnt    := s.rs.rcnt
  host    := s.host

end Sys2Proof.Machine
end

