-- ==== Sys2Proof/Certificates/Slice0/Obligations.lean ====
section
/-! DEFINITION. The statements about the model, for the provers. -/

open Sys2Proof Sys2Proof.Machine

/-! ## Encoding -/

/-- 30_encoding.md R90 to R93: decoding the word of a well-formed command gives the command back, with every operand. -/
def Obligations.DecodeOfEncode : Prop :=
  ∀ i : Instr, i.wellFormed = true → decode (encode i) = .ok i

/-- 30_encoding.md R93, R94: a word that decodes is the word of the command it decodes to, and that command is well-formed. -/
def Obligations.EncodeOfDecode : Prop :=
  ∀ (w : Word) (i : Instr), decode w = .ok i → i.wellFormed = true ∧ encode i = w

/-- opcode_table.json with 30_encoding.md R91, R92, R94: a word selects the row with `w AND mask = match` and carries that
row's operand; a word that selects no row is rejected by the cause its opcode decides. -/
def Obligations.DecoderMatchesOpcodeTable : Prop :=
  ∀ w : Word,
    (decode w = .ok .cfftF ↔ w &&& 0xFFFFFFFF#32 = 0x01000000#32) ∧
    (decode w = .ok .cfftI ↔ w &&& 0xFFFFFFFF#32 = 0x02000000#32) ∧
    (decode w = .ok .rfft ↔ w &&& 0xFFFFFFFF#32 = 0x03000000#32) ∧
    (decode w = .ok .irfft ↔ w &&& 0xFFFFFFFF#32 = 0x04000000#32) ∧
    (∀ len, decode w = .ok (.analyze len) ↔
      w &&& 0xFF000000#32 = 0x10000000#32 ∧ len = (w &&& 0x00FFFFFF#32).toNat) ∧
    (∀ src, decode w = .ok (.resynth src) ↔
      w &&& 0xFFFFFFFE#32 = 0x20000000#32 ∧ (src = .xf ↔ w.getLsbD 0 = true)) ∧
    (decode w = .ok .reset ↔ w &&& 0xFFFFFFFF#32 = 0x30000000#32) ∧
    (decode w = .error .illegalOpcode ↔ (w >>> 24).toNat ∉ [0x01, 0x02, 0x03, 0x04, 0x10, 0x20, 0x30]) ∧
    (decode w = .error .reservedField ↔
      ((w >>> 24).toNat ∈ [0x01, 0x02, 0x03, 0x04, 0x30] ∧ w &&& 0x00FFFFFF#32 ≠ 0) ∨
      ((w >>> 24).toNat = 0x20 ∧ w &&& 0x00FFFFFE#32 ≠ 0)) ∧
    decode w ≠ .error .lengthRange ∧ decode w ≠ .error .badRate

/-- 30_encoding.md R97 and 95_test_vectors.md 2.7: words written out by hand decode to the commands they stand for, or are
rejected by the cause the spec names. -/
def Obligations.SampleWordsDecode : Prop :=
  decode 0x01000000#32 = .ok .cfftF ∧ decode 0x02000000#32 = .ok .cfftI ∧
  decode 0x03000000#32 = .ok .rfft ∧ decode 0x04000000#32 = .ok .irfft ∧
  decode 0x10FFFFFF#32 = .ok (.analyze 16777215) ∧
  decode 0x20000000#32 = .ok (.resynth .frame) ∧ decode 0x20000001#32 = .ok (.resynth .xf) ∧
  decode 0x30000000#32 = .ok .reset ∧
  decode 0x00000000#32 = .error .illegalOpcode ∧ decode 0x11000000#32 = .error .illegalOpcode ∧
  decode 0x03800000#32 = .error .reservedField ∧ decode 0x20000002#32 = .error .reservedField

/-! ## Steps, command errors -/

/-- 30_encoding.md R90, R94: when the host's next action writes to CMD a word that decodes to `i`, and no error is pending,
step is exec of `i`, with BUSY = 1 while it runs and 0 after. The fields `host` and `response` are the model's own (entries 8, 9). -/
def Obligations.StepRunsDecodedCommand : Prop :=
  ∀ (s : State) (rest : List HostAction) (w : Word) (i : Instr),
    s.busy = false → s.err = false → s.host = .write 0x000000#24 w :: rest → decode w = .ok i →
    ∃ t, exec i { s with host := rest, response := .done, busy := true } = .next t ∧
      step s = .next { t with busy := false }

/-- 60_exceptions.md R214 for the decoder's two causes (R211): a word that selects no command sets ERR, its cause code and
ERRCMD, and changes nothing else. -/
def Obligations.UndecodableWordRecorded : Prop :=
  ∀ (s : State) (rest : List HostAction) (w : Word),
    s.busy = false → s.err = false → s.host = .write 0x000000#24 w :: rest →
    (decode w = .error .illegalOpcode →
      step s = .next { s with host := rest, response := .done, err := true, errcode := 1, errcmd := w }) ∧
    (decode w = .error .reservedField →
      step s = .next { s with host := rest, response := .done, err := true, errcode := 2, errcmd := w })

/-- 60_exceptions.md R215: while ERR = 1 a write to CMD is discarded; reads and writes of every other location work as usual. -/
def Obligations.CommandDiscardedWhileErr : Prop :=
  ∀ (s : State) (rest : List HostAction), s.busy = false → s.err = true →
    (∀ w, s.host = .write 0x000000#24 w :: rest → step s = .next { s with host := rest, response := .done }) ∧
    (∀ a, a ≠ 0x000001#24 → hostRead s a = hostRead { s with err := false } a) ∧
    (∀ a, s.host = .read a :: rest → step s = .next { s with
      host := rest
      response := match hostRead s a with | some w => .word w | none => .hostFault }) ∧
    (∀ a w loc, s.host = .write a w :: rest → locate s.cfg a = some loc → readOnly loc = false → a ≠ 0x000000#24 →
      step s = .next (storeLoc loc w { s with host := rest, response := .done }))

/-- 60_exceptions.md R216: a write to STATUS with bit 1 set clears ERR, ERRCODE and ERRCMD and nothing else; with bit 1
clear, or when no error is recorded, it changes nothing. -/
def Obligations.ErrorClearedByStatusWrite : Prop :=
  ∀ (s : State) (rest : List HostAction) (w : Word), s.busy = false → s.host = .write 0x000001#24 w :: rest →
    (w.getLsbD 1 = true →
      step s = .next { s with host := rest, response := .done, err := false, errcode := 0, errcmd := 0 }) ∧
    (w.getLsbD 1 = false → step s = .next { s with host := rest, response := .done }) ∧
    (ErrorRegistersAgree s → s.err = false → step s = .next { s with host := rest, response := .done })

/-- 60_exceptions.md R212, R214: errors are precise. A step that sets ERR has issued a command word, records it in ERRCMD with
a cause code 1 to 4, and changes nothing else. -/
def Obligations.ErrorsArePrecise : Prop :=
  ∀ s t : State, s.busy = false → s.err = false → step s = .next t → t.err = true →
    ∃ w rest, s.host = .write 0x000000#24 w :: rest ∧ 1 ≤ t.errcode.toNat ∧ t.errcode.toNat ≤ 4 ∧
      t = { s with host := rest, response := .done, err := true, errcode := t.errcode, errcmd := w }

/-- 60_exceptions.md R218: the only events that change ERR: a command that raises sets it; a write of STATUS with bit 1 set, or
hardware reset, clears it. -/
def Obligations.OnlyTheseEventsChangeErr : Prop :=
  ∀ s t : State, s.busy = false → step s = .next t → t.err ≠ s.err →
    (s.err = false ∧ ∃ w rest, s.host = .write 0x000000#24 w :: rest ∧ t.errcmd = w ∧ t.errcode ≠ 0) ∨
    (s.err = true ∧ t.errcode = 0 ∧ t.errcmd = 0 ∧
      ((∃ w rest, s.host = .write 0x000001#24 w :: rest ∧ w.getLsbD 1 = true) ∨
       ∃ rest, s.host = .hardwareReset :: rest))

/-- 60_exceptions.md R213: on a RESET word with a reserved bit set, ReservedField is reported whatever ARG holds. -/
def Obligations.ReservedFieldBeforeBadRate : Prop :=
  ∀ (s : State) (rest : List HostAction) (w : Word), s.busy = false → s.err = false →
    s.host = .write 0x000000#24 w :: rest → (w >>> 24).toNat = 0x30 → w &&& 0x00FFFFFF#32 ≠ 0 →
    step s = .next { s with host := rest, response := .done, err := true, errcode := 2, errcmd := w }

/-- 70_reset_and_hazards.md R262 with 20_memory.md R78: from BUSY = 0 every step answers a next state, again with BUSY = 0; and
60_exceptions.md R226: with no host action the machine is idle and keeps all state (that step then answers the same state is
the model's convention, entry 8). -/
def Obligations.EveryStepCompletes : Prop :=
  (∀ s : State, s.busy = false → ∃ t, step s = .next t ∧ t.busy = false) ∧ ∀ s : State, s.host = [] → step s = .next s

/-- 20_memory.md R78 and 93_implementation_defined.md U8: while BUSY = 1 the host may read STATUS, which shows BUSY; any other
access the model refuses (the model's choice, entry 7). -/
def Obligations.HostAccessWhileBusyRefused : Prop :=
  ∀ (s : State) (rest : List HostAction) (act : HostAction), s.busy = true → s.host = act :: rest →
    (act = .read 0x000001#24 →
      step s = .next { s with host := rest, response := .word (if s.err then 3#32 else 1#32) }) ∧
    (act ≠ .read 0x000001#24 → act ≠ .hardwareReset → step s = .refused .hostAccessWhileBusy)

/-! ## The host space -/

/-- 20_memory.md R62 with 30_encoding.md R98: `{region, offset}` addresses exactly the locations of the map, one address each. -/
def Obligations.HostAddressMap : Prop :=
  ∀ cfg : Config Word, LegalConfig cfg →
    (∀ loc, existsLoc cfg loc = true → locate cfg (addrOf loc) = some loc) ∧
    (∀ a loc, locate cfg a = some loc → existsLoc cfg loc = true ∧ addrOf loc = a)

/-- 20_memory.md R62: the size in words of each region. -/
def regionSizes (cfg : Config Word) : List Nat :=
  [18, cfg.chmax, cfg.vs, cfg.n + 2, cfg.n + 2, cfg.n, cfg.n + 2, 2 * cfg.n, cfg.n, cfg.n]

/-- The address is mapped: its offset is below its region's size; regions 0xA to 0xF have no location (20_memory.md R62, R67). -/
def mapped (cfg : Config Word) (a : Addr) : Prop := a.toNat % 2 ^ 20 < (regionSizes cfg).getD (a.toNat / 2 ^ 20) 0

/-- 20_memory.md R67: an access to an unmapped address changes no state of the ASU and is answered with HostFault. The fields
`host` and `response` are the model's own (entries 8, 9). -/
def Obligations.UnmappedAccessAnsweredHostFault : Prop :=
  ∀ (s : State) (rest : List HostAction) (a : Addr), s.busy = false → ¬ mapped s.cfg a →
    (s.host = .read a :: rest → step s = .next { s with host := rest, response := .hostFault }) ∧
    (∀ w, s.host = .write a w :: rest → step s = .next { s with host := rest, response := .hostFault })

/-- 20_memory.md R66: a write to SOUT, FRAME, WA, WS or a register marked RO changes no state and is answered with HostFault. -/
def Obligations.ReadOnlyWriteAnsweredHostFault : Prop :=
  ∀ (s : State) (rest : List HostAction) (a : Addr) (w : Word), s.busy = false → mapped s.cfg a →
    s.host = .write a w :: rest →
    (a.toNat / 2 ^ 20 ∈ [0x2, 0x3, 0x8, 0x9] ∨
      (a.toNat / 2 ^ 20 = 0 ∧ a.toNat ∉ [0x00, 0x01, 0x04])) →
    step s = .next { s with host := rest, response := .hostFault }

/-- 20_memory.md R63: HostRead of a mapped address returns a word and changes nothing; and R62: which word that is, outside
region 0 (RegistersRead has that one). In a pair element the even word is the amplitude or the real part and the odd word the
frequency or the imaginary part. -/
def Obligations.HostReadReturnsWordAndChangesNothing : Prop :=
  (∀ (s : State) (rest : List HostAction) (a : Addr), s.busy = false → mapped s.cfg a → s.host = .read a :: rest →
    ∃ w, hostRead s a = some w ∧ step s = .next { s with host := rest, response := .word w }) ∧
  ∀ s : State, LegalConfig s.cfg →
    (∀ i < s.cfg.chmax, hostRead s (BitVec.ofNat 24 (0x100000 + i)) = some (valAt num s.sin i)) ∧
    (∀ i < s.cfg.vs, hostRead s (BitVec.ofNat 24 (0x200000 + i)) = some (valAt num s.rs.sout i)) ∧
    (∀ k ≤ s.cfg.n / 2,
      hostRead s (BitVec.ofNat 24 (0x300000 + 2 * k)) = some (binAt num s.an.frame k).amp ∧
      hostRead s (BitVec.ofNat 24 (0x300000 + 2 * k + 1)) = some (binAt num s.an.frame k).freq ∧
      hostRead s (BitVec.ofNat 24 (0x400000 + 2 * k)) = some (binAt num s.xf k).amp ∧
      hostRead s (BitVec.ofNat 24 (0x400000 + 2 * k + 1)) = some (binAt num s.xf k).freq ∧
      hostRead s (BitVec.ofNat 24 (0x600000 + 2 * k)) = some (cxAt num s.te.sp k).re ∧
      hostRead s (BitVec.ofNat 24 (0x600000 + 2 * k + 1)) = some (cxAt num s.te.sp k).im) ∧
    ∀ i < s.cfg.n,
      hostRead s (BitVec.ofNat 24 (0x500000 + i)) = some (valAt num s.te.rb i) ∧
      hostRead s (BitVec.ofNat 24 (0x700000 + 2 * i)) = some (cxAt num s.cb i).re ∧
      hostRead s (BitVec.ofNat 24 (0x700000 + 2 * i + 1)) = some (cxAt num s.cb i).im ∧
      hostRead s (BitVec.ofNat 24 (0x800000 + i)) = some (valAt num s.cfg.wa i) ∧
      hostRead s (BitVec.ofNat 24 (0x900000 + i)) = some (valAt num s.cfg.ws i)

/-- 20_memory.md R64, R70: ARG and the words of SIN, XF, RB, SP, CB are plain storage. The last word written is the word read
back, every other location reads as before, and nothing hidden changes. -/
def Obligations.PlainStorageReadsBack : Prop :=
  ∀ (s : State) (rest : List HostAction) (a : Addr) (w : Word),
    LegalConfig s.cfg → Memory.wf s → s.busy = false → mapped s.cfg a → s.host = .write a w :: rest →
    (a = 0x000004#24 ∨ a.toNat / 2 ^ 20 ∈ [0x1, 0x4, 0x5, 0x6, 0x7]) →
    ∃ t, step s = .next t ∧ hostRead t a = some w ∧ (∀ b, b ≠ a → hostRead t b = hostRead s b) ∧
      t.cfg = s.cfg ∧ t.busy = s.busy ∧ t.err = s.err ∧ t.errcode = s.errcode ∧ t.errcmd = s.errcmd ∧
      t.rates = s.rates ∧ t.an = s.an ∧ t.rs = s.rs ∧ t.te.ts = s.te.ts ∧ t.host = rest ∧ t.response = .done

/-- 10_state.md R40 to R46: what each register reads as. -/
def Obligations.RegistersRead : Prop :=
  ∀ s : State,
    hostRead s 0x000000#24 = some 0 ∧
    hostRead s 0x000001#24 = some (BitVec.ofNat 32 ((if s.busy then 1 else 0) + (if s.err then 2 else 0))) ∧
    hostRead s 0x000002#24 = some s.errcode ∧ hostRead s 0x000003#24 = some s.errcmd ∧
    hostRead s 0x000004#24 = some s.arg ∧ hostRead s 0x000005#24 = some s.an.fcnt ∧
    hostRead s 0x000006#24 = some (BitVec.ofNat 32 s.an.hnum) ∧
    hostRead s 0x000007#24 = some (BitVec.ofNat 32 s.an.pos) ∧
    hostRead s 0x000008#24 = some s.rates.srate ∧ hostRead s 0x000009#24 = some s.rates.facA ∧
    hostRead s 0x00000A#24 = some s.rates.facS ∧ hostRead s 0x00000B#24 = some s.rates.binw ∧
    hostRead s 0x00000C#24 = some (BitVec.ofNat 32 s.cfg.n) ∧
    hostRead s 0x00000D#24 = some (BitVec.ofNat 32 s.cfg.h) ∧
    hostRead s 0x00000E#24 = some (BitVec.ofNat 32 (s.cfg.n / s.cfg.h)) ∧
    hostRead s 0x00000F#24 = some (BitVec.ofNat 32 s.cfg.vs) ∧
    hostRead s 0x000010#24 = some (BitVec.ofNat 32 s.cfg.chmax) ∧
    hostRead s 0x000011#24 = some (if s.cfg.norm = .inv then 1 else 0)

/-- 10_state.md R46, R47: the CFG registers and the windows never change, whatever the step. -/
def Obligations.ConfigurationHardwired : Prop :=
  ∀ s t : State, step s = .next t → t.cfg = s.cfg ∧
    ∀ a : Addr, ((0x0C ≤ a.toNat ∧ a.toNat ≤ 0x11) ∨ a.toNat / 2 ^ 20 = 0x8 ∨ a.toNat / 2 ^ 20 = 0x9) →
      hostRead t a = hostRead s a

/-! ## Reset, construction, invariants -/

/-- 70_reset_and_hazards.md R240: hardware reset, also while BUSY = 1, leaves every piece of state at its reset value; the
host's remaining actions are not the ASU's (entry 10). -/
def Obligations.HardwareResetFromAnyState : Prop :=
  ∀ (s : State) (rest : List HostAction), s.host = .hardwareReset :: rest →
    step s = .next { State.resetOf s.cfg with host := rest }

/-- 10_state.md R50: the reset values, with the value zero as the word 0x00000000 and the rate registers of R45. -/
def Obligations.ResetValues : Prop :=
  ∀ cfg : Config Word,
    let s := State.resetOf cfg
    s.cfg = cfg ∧
    s.an.ab = List.replicate cfg.n 0#32 ∧ s.an.hnum = 0 ∧ s.an.pos = 0 ∧
    s.an.pph = List.replicate (cfg.n / 2 + 1) 0#32 ∧
    s.an.frame = List.replicate (cfg.n / 2 + 1) ⟨0#32, 0#32⟩ ∧ s.an.fcnt = 0 ∧
    s.rs.ob = List.replicate (cfg.n / cfg.h) (List.replicate cfg.n 0#32) ∧
    s.rs.rcnt.length = cfg.n / cfg.h ∧
    (∀ b < cfg.n / cfg.h, counterAt s.rs b = (cfg.n / cfg.h - 1 - b) * cfg.h) ∧
    s.rs.phs = List.replicate (cfg.n / 2 + 1) 0#32 ∧ s.rs.sout = List.replicate cfg.vs 0#32 ∧
    s.te.rb = List.replicate cfg.n 0#32 ∧ s.te.sp = List.replicate (cfg.n / 2 + 1) ⟨0#32, 0#32⟩ ∧
    s.te.ts = List.replicate (cfg.n / 2) ⟨0#32, 0#32⟩ ∧ s.cb = List.replicate cfg.n ⟨0#32, 0#32⟩ ∧
    s.sin = List.replicate cfg.chmax 0#32 ∧ s.xf = List.replicate (cfg.n / 2 + 1) ⟨0#32, 0#32⟩ ∧
    s.arg = 0 ∧ s.busy = false ∧ s.err = false ∧ s.errcode = 0 ∧ s.errcmd = 0 ∧
    s.rates.srate = cfg.sr0 ∧
    s.rates.facA = num.div cfg.sr0 (num.mul (num.mul (num.ofNat 2) num.pi) (num.ofNat cfg.h)) ∧
    s.rates.facS = num.div (num.mul (num.mul (num.ofNat 2) num.pi) (num.ofNat cfg.h)) cfg.sr0 ∧
    s.rates.binw = num.div cfg.sr0 (num.ofNat cfg.n)

/-- 00_scope.md R6: what `construct` refuses, and that what it yields is a legal configuration of the rounded-up size. -/
def Obligations.ConstructRefusesOrYieldsLegal : Prop :=
  ∀ (nreq h vs : Nat) (sr0 : Word) (wa ws : List Word) (norm : Norm) (chmax n : Nat),
    (nreq ≠ 0 → (∃ p, n = 2 ^ p) ∧ nreq ≤ n ∧ (∀ p, nreq ≤ 2 ^ p → n ≤ 2 ^ p)) →
    (nreq = 0 ∨ n < 2 ∨ n > 2 ^ 19 ∨ h = 0 ∨ n % h ≠ 0 ∨ wa.length ≠ n ∨ ws.length ≠ n ∨ isLegalRate sr0 = false ∨
        vs < 1 ∨ vs > 2 ^ 20 ∨ chmax < 1 ∨ chmax > 2 ^ 20 →
      construct nreq h vs sr0 wa ws norm chmax = none) ∧
    (¬ (nreq = 0 ∨ n < 2 ∨ n > 2 ^ 19 ∨ h = 0 ∨ n % h ≠ 0 ∨ wa.length ≠ n ∨ ws.length ≠ n ∨ isLegalRate sr0 = false ∨
        vs < 1 ∨ vs > 2 ^ 20 ∨ chmax < 1 ∨ chmax > 2 ^ 20) →
      construct nreq h vs sr0 wa ws norm chmax = some ⟨n, h, vs, chmax, sr0, wa, ws, norm⟩ ∧
      LegalConfig ⟨n, h, vs, chmax, sr0, wa, ws, norm⟩)

/-- 10_state.md R53 (but for its clause on phases, which is the ideal semantics'): from every state that meets the invariant a
step leads to a state that meets it. -/
def Obligations.StepKeepsInvariant : Prop :=
  ∀ s t : State, Inv s → step s = .next t → Inv t

/-- 10_state.md R50, R53: the reset state of every legal configuration meets the invariant, and so does `State.reset` (whose
configuration is the model's choice, entry 1). -/
def Obligations.ResetMeetsInvariant : Prop :=
  (∀ cfg : Config Word, LegalConfig cfg → Inv (State.resetOf cfg)) ∧ Inv State.reset

/-- 60_exceptions.md R210 (1), 70_reset_and_hazards.md R262: errors, indices, counters and the frame counter never depend on
sample, bin or spectrum values. Two states with the same control part step to the same control part. -/
def Obligations.ControlIndependentOfValues : Prop :=
  ∀ s u : State, control s = control u →
    ∀ t, step s = .next t → ∃ v, step u = .next v ∧ control t = control v

/-- 10_state.md R29 with 60_exceptions.md R222: nothing but ANALYZE and hardware reset moves the frame counter. -/
def Obligations.FrameCounterMovedByAnalyzeOnly : Prop :=
  ∀ s t : State, step s = .next t → t.an.fcnt ≠ s.an.fcnt →
    (∃ w rest len, s.host = .write 0x000000#24 w :: rest ∧ s.err = false ∧ decode w = .ok (.analyze len)) ∨
    ∃ rest, s.host = .hardwareReset :: rest

/-- 10_state.md R25 to R39, R44, R45 and 44_system.md R201: a command writes only what it owns. -/
def Obligations.CommandsWriteOnlyTheirOwn : Prop :=
  ∀ (i : Instr) (s t : State), exec i s = .next t →
    t.cfg = s.cfg ∧ t.sin = s.sin ∧ t.xf = s.xf ∧ t.arg = s.arg ∧ t.host = s.host ∧ t.response = s.response ∧
    ((∀ len, i ≠ .analyze len) → t.an = s.an) ∧
    ((∀ src, i ≠ .resynth src) → t.rs = s.rs) ∧
    (i ≠ .reset → t.rates = s.rates) ∧
    (i ≠ .cfftF → i ≠ .cfftI → t.cb = s.cb) ∧
    (i = .cfftF ∨ i = .cfftI ∨ i = .reset → t.te = s.te) ∧
    (i = .rfft → t.te.rb = s.te.rb) ∧ (i = .irfft → t.te.sp = s.te.sp) ∧
    ((∀ len, i ≠ .analyze len) → i ≠ .reset →
      t.busy = s.busy ∧ t.err = s.err ∧ t.errcode = s.errcode ∧ t.errcmd = s.errcmd)

/-- The frame of the commands that write whole regions (41_transform.md R133 to R138, 43_resynth.md R181, 44_system.md R201):
every location of the host space outside the regions named reads as before. -/
def Obligations.CommandsLeaveOtherLocations : Prop :=
  ∀ s t : State,
    ((exec .cfftF s = .next t ∨ exec .cfftI s = .next t) → ∀ a, regionOf a ≠ 0x7 → hostRead t a = hostRead s a) ∧
    (exec .rfft s = .next t → ∀ a, regionOf a ≠ 0x6 → hostRead t a = hostRead s a) ∧
    (exec .irfft s = .next t → ∀ a, regionOf a ≠ 0x5 → hostRead t a = hostRead s a) ∧
    (∀ src, exec (.resynth src) s = .next t →
      ∀ a, regionOf a ≠ 0x2 → regionOf a ≠ 0x5 → regionOf a ≠ 0x6 → hostRead t a = hostRead s a) ∧
    (∀ len, len ≤ s.cfg.chmax → exec (.analyze len) s = .next t →
      ∀ a, regionOf a ≠ 0x3 → regionOf a ≠ 0x5 → regionOf a ≠ 0x6 → a.toNat ∉ [0x05, 0x06, 0x07] →
        hostRead t a = hostRead s a) ∧
    (isLegalRate s.arg = true → exec .reset s = .next t →
      ∀ a, a.toNat ∉ [0x08, 0x09, 0x0A, 0x0B] → hostRead t a = hostRead s a)

/-! ## RESET -/

/-- 44_system.md R200, R201: RESET with a positive finite rate in ARG writes the four rate registers and nothing else;
otherwise it raises BadRate and changes nothing but the error registers. Which words are positive and finite is the model's
reading (entries 12, 15). -/
def Obligations.ResetCommandSetsRates : Prop :=
  ∀ s : State,
    let sr := s.arg
    let legal := sr.getLsbD 31 = false ∧ sr.toNat / 2 ^ 23 % 2 ^ 8 ≠ 255 ∧ sr ≠ 0
    (legal → exec .reset s = .next { s with rates :=
      { srate := sr
        facA  := num.div sr (num.mul (num.mul (num.ofNat 2) num.pi) (num.ofNat s.cfg.h))
        facS  := num.div (num.mul (num.mul (num.ofNat 2) num.pi) (num.ofNat s.cfg.h)) sr
        binw  := num.div sr (num.ofNat s.cfg.n) } }) ∧
    (¬ legal → exec .reset s = .next { s with
      busy := false, err := true, errcode := 4, errcmd := 0x30000000#32 })

/-- 20_memory.md R61 with 10_state.md R45: an integer below 2^24 becomes the binary32 word that encodes it exactly (the model's
reading, entry 4), among them the words of R61; `bits32` undoes `f32` on every word that is not a NaN; and the unary minus of a
finite value other than zero is the word of its negative (the model's reading, entry 3), among them -1 and -1/2. Which words
are NaNs is entry 15. -/
def Obligations.IntegerConversionExact : Prop :=
  (∀ n : Nat, 0 < n → n < 2 ^ 24 →
    ∃ e ≤ 23, (wordOfNat n).getLsbD 31 = false ∧ (wordOfNat n).toNat / 2 ^ 23 % 2 ^ 8 = 127 + e ∧
      2 ^ 23 + (wordOfNat n).toNat % 2 ^ 23 = n * 2 ^ (23 - e)) ∧
  wordOfNat 0 = 0x00000000#32 ∧ wordOfNat 1 = 0x3F800000#32 ∧ wordOfNat 4 = 0x40800000#32 ∧
  wordOfNat 44100 = 0x472C4400#32 ∧
  (∀ n : Nat, n < 2 ^ 24 → valueOf (f32 (wordOfNat n)) = some (n : ℚ)) ∧
  (∀ w : Word, (∀ s f, f32 w ≠ .nan s f) → bits32 (f32 w) = w) ∧
  (∀ (w : Word) (s : Bool) (m : Nat) (x : Int), f32 w = .finite s m x → m ≠ 0 → f32 (num.neg w) = .finite (!s) m x) ∧
  num.neg (num.ofNat 1) = 0xBF800000#32 ∧ num.half = 0x3F000000#32 ∧ num.neg num.half = 0xBF000000#32

/-- 30_encoding.md R99: `SETRATE v` for a positive finite `v`, run as two host actions, leaves `v` in ARG and the rate
registers of `v`. -/
def Obligations.SetRatePseudoInstruction : Prop :=
  ∀ (s : State) (v : Word) (rest : List HostAction), s.busy = false → s.err = false → isLegalRate v = true →
    s.host = setRate v ++ rest →
    core.run 2 s = .next { s with host := rest, response := .done, arg := v, rates := ratesOf num s.cfg v }

/-! ## ANALYZE -/

/-- 42_analyzer.md R161: a length above CHMAX raises LengthRange and changes nothing but the error registers. -/
def Obligations.AnalyzeTooLongRaises : Prop :=
  ∀ (s : State) (w : Word) (len : Nat), decode w = .ok (.analyze len) → s.cfg.chmax < len →
    exec (.analyze len) s = .next { s with busy := false, err := true, errcode := 3, errcmd := w }

/-- 42_analyzer.md R161, R162, R166: ANALYZE of a legal length completes; floor((POS + len) / H) hops complete, POS and HNUM move
on, FCNT advances by that number, and only the analyzer and the engine change. -/
def Obligations.AnalyzeCountsHops : Prop :=
  ∀ (s : State) (len : Nat), LegalConfig s.cfg → s.an.pos < s.cfg.h → s.an.hnum < s.cfg.dm → len ≤ s.cfg.chmax →
    ∃ t, exec (.analyze len) s = .next t ∧ t = { s with an := t.an, te := t.te } ∧
      t.an.pos = (s.an.pos + len) % s.cfg.h ∧
      t.an.hnum = (s.an.hnum + (s.an.pos + len) / s.cfg.h) % s.cfg.dm ∧
      t.an.fcnt = s.an.fcnt + BitVec.ofNat 32 ((s.an.pos + len) / s.cfg.h)

/-- 42_analyzer.md R161, R162: no sample is dropped. Sample q of the chunk is at ring index `(HNUM × H + POS + q) mod N` unless a
sample N later overwrote it; a ring place that no sample of the chunk reaches keeps its value. -/
def Obligations.AnalyzeStoresEverySample : Prop :=
  ∀ (s : State) (len : Nat), LegalConfig s.cfg → Memory.wf s → s.an.pos < s.cfg.h → s.an.hnum < s.cfg.dm →
    len ≤ s.cfg.chmax →
    ∃ t, exec (.analyze len) s = .next t ∧
      (∀ q < len, len ≤ q + s.cfg.n →
        valAt num t.an.ab ((s.an.hnum * s.cfg.h + s.an.pos + q) % s.cfg.n) = valAt num s.sin q) ∧
      (∀ i < s.cfg.n, (∀ q < len, (s.an.hnum * s.cfg.h + s.an.pos + q) % s.cfg.n ≠ i) →
        valAt num t.an.ab i = valAt num s.an.ab i)

/-- 42_analyzer.md R165: fewer samples than the hop needs produce no new frame. Only AB at the samples' places and POS change. -/
def Obligations.AnalyzeShortChunkNoFrame : Prop :=
  ∀ (s : State) (len : Nat), LegalConfig s.cfg → Memory.wf s → s.an.hnum < s.cfg.dm → len ≤ s.cfg.chmax →
    s.an.pos + len < s.cfg.h →
    ∃ ab, exec (.analyze len) s = .next { s with an := { s.an with ab := ab, pos := s.an.pos + len } } ∧
      ab.length = s.cfg.n ∧
      (∀ q < len, valAt num ab (s.an.hnum * s.cfg.h + s.an.pos + q) = valAt num s.sin q) ∧
      ∀ i, (i < s.an.hnum * s.cfg.h + s.an.pos ∨ s.an.hnum * s.cfg.h + s.an.pos + len ≤ i) →
        valAt num ab i = valAt num s.an.ab i

/-- 42_analyzer.md R163, R164 with 40_bin_ops.md R111, R114, R116: what a completed hop leaves, element by element. The ring is
windowed in ring order with the rotating offset, transformed, and each bin gets its amplitude, its unwrapped frequency and
its new previous phase. -/
def Obligations.HopCompletionResult : Prop :=
  ∀ (s : State) (len : Nat), LegalConfig s.cfg → Memory.wf s → s.an.hnum < s.cfg.dm → len ≤ s.cfg.chmax → 0 < len →
    s.an.pos + len = s.cfg.h →
    ∃ t, exec (.analyze len) s = .next t ∧
      (∀ i < s.cfg.n, valAt num t.te.rb i = num.mul (valAt num t.an.ab i)
        (valAt num s.cfg.wa
          (((i : Int) - ((s.an.hnum + 1) % s.cfg.dm * s.cfg.h : Nat)) % (s.cfg.n : Int)).toNat)) ∧
      t.te = rfft num s.cfg { s.te with rb := t.te.rb } ∧
      (∀ k ≤ s.cfg.n / 2,
        let c := cxAt num t.te.sp k
        let φ := if num.isZero c.re = true ∧ num.isZero c.im = true then num.ofNat 0 else num.atan2 c.im c.re
        valAt num t.an.pph k = φ ∧
        binAt num t.an.frame k =
          ⟨num.sqrt (num.add (num.mul c.re c.re) (num.mul c.im c.im)),
           num.add (num.mul (num.ofNat k) s.rates.binw)
             (num.mul (wrap num (num.sub φ (valAt num s.an.pph k))) s.rates.facA)⟩) ∧
      t.an.fcnt = s.an.fcnt + 1 ∧ t.an.pos = 0 ∧ t.an.hnum = (s.an.hnum + 1) % s.cfg.dm

/-- The host's feeding of one chunk: the chunk at the start of SIN, then ANALYZE of its length. -/
def feedChunk (s : State) (chunk : List Word) : Option State :=
  match exec (.analyze chunk.length) { s with sin := chunk ++ s.sin.drop chunk.length } with
  | .next t => some t
  | _       => none

/-- 42_analyzer.md R167: chunking invariance, for any split into chunks, exactly and for whatever numerics the hardware has: the
analyzer's whole state and the engine's buffers end the same. -/
def Obligations.ChunkingInvariance : Prop :=
  ∀ (s : State) (chunks : List (List Word)), LegalConfig s.cfg → s.an.pos < s.cfg.h →
    chunks.flatten.length ≤ s.cfg.chmax →
    ∃ t u, feedChunk s chunks.flatten = some t ∧ chunks.foldlM feedChunk s = some u ∧
      u.an = t.an ∧ u.te = t.te ∧ u.err = s.err ∧ t.err = s.err

/-! ## RESYNTH -/

/-- 43_resynth.md R181, R182, R185: RESYNTH completes from every state and for both sources; it runs the VS output samples
i = 0, 1, ... (OutputSampleSumsAndRotates and RefreshResult say what one leaves) under the rates in force, from FRAME for
`RESYNTH A` and from XF for `RESYNTH X`, and changes nothing but the resynthesizer and the engine. Where the counters follow the
pattern of T output samples they follow that of T + VS after it. At reset they follow that of 0. -/
def Obligations.ResynthAdvancesCounters : Prop :=
  (∀ (s : State) (src : Source), ∃ t, exec (.resynth src) s = .next t ∧ t = { s with rs := t.rs, te := t.te } ∧
    (t.rs, t.te) = forTo s.cfg.vs
      (outputSample num s.cfg s.rates (match src with | .frame => s.an.frame | .xf => s.xf)) (s.rs, s.te) ∧
    ∀ T, LegalConfig s.cfg → s.rs.rcnt = counterPattern s.cfg T → t.rs.rcnt = counterPattern s.cfg (T + s.cfg.vs)) ∧
  ∀ cfg : Config Word, LegalConfig cfg → (State.resetOf cfg).rs.rcnt = counterPattern cfg 0

/-- 43_resynth.md R182, R185: one output sample. The sum over b = 0, 1, ... from zero is stored; when T + 1 is a multiple of H,
exactly buffer ((T + 1) / H - 1) mod dm is refreshed, otherwise none; the counters move on. For any numerics. -/
def Obligations.OutputSampleSumsAndRotates : Prop :=
  ∀ (V : Type) (nm : Num V) (cfg : Config V) (r : Rates V) (f : List (Bin V)) (i T : Nat) (rs : Resynth V) (te : Engine V),
    LegalGeometry cfg → rs.rcnt = counterPattern cfg T →
    let acc := (List.range cfg.dm).foldl
      (fun acc b => nm.add acc (valAt nm (bufferAt rs b) ((T + (cfg.dm - 1 - b) * cfg.h) % cfg.n))) (nm.ofNat 0)
    let b := ((T + 1) / cfg.h - 1) % cfg.dm
    let out := { rs with sout := rs.sout.set i acc, rcnt := counterPattern cfg (T + 1) }
    ((T + 1) % cfg.h ≠ 0 → outputSample nm cfg r f i (rs, te) = (out, te)) ∧
    ((T + 1) % cfg.h = 0 → outputSample nm cfg r f i (rs, te) = refresh nm cfg r f b (out, te))

/-- 43_resynth.md R183, R184 with 40_bin_ops.md R112, R115, R117: what a refresh leaves, element by element, for any numerics. -/
def Obligations.RefreshResult : Prop :=
  ∀ (V : Type) (nm : Num V) (cfg : Config V) (r : Rates V) (f : List (Bin V)) (b : Nat) (rs : Resynth V) (te : Engine V),
    LegalGeometry cfg → b < cfg.dm → rs.ob.length = cfg.dm → rs.phs.length = cfg.nb → te.sp.length = cfg.nb →
    let q := refresh nm cfg r f b (rs, te)
    (∀ k ≤ cfg.n / 2,
      let φ := wrap nm (nm.add (valAt nm rs.phs k)
        (nm.mul (nm.sub (binAt nm f k).freq (nm.mul (nm.ofNat k) r.binw)) r.facS))
      valAt nm q.1.phs k = φ ∧
      cxAt nm q.2.sp k = ⟨nm.mul (binAt nm f k).amp (nm.cos φ), nm.mul (binAt nm f k).amp (nm.sin φ)⟩) ∧
    q.2 = irfft nm cfg { te with sp := q.2.sp } ∧
    (∀ c < cfg.n, valAt nm (bufferAt q.1 b) c =
      nm.mul (valAt nm q.2.rb ((c + (b + 1) % cfg.dm * cfg.h) % cfg.n)) (valAt nm cfg.ws c)) ∧
    (∀ b' ≠ b, bufferAt q.1 b' = bufferAt rs b') ∧ q.1.rcnt = rs.rcnt ∧ q.1.sout = rs.sout

/-- 43_resynth.md R182, R188: a RESYNTH in which no counter reaches N plays on: it leaves RB, SP, TS, PHS and OB unchanged and
puts the overlap sums into SOUT. -/
def Obligations.ResynthWithoutRefresh : Prop :=
  ∀ (s : State) (src : Source), LegalConfig s.cfg → Memory.wf s → (∀ b < s.cfg.dm, counterAt s.rs b + s.cfg.vs < s.cfg.n) →
    ∃ sout, exec (.resynth src) s =
        .next { s with rs := { s.rs with sout := sout, rcnt := s.rs.rcnt.map (· + s.cfg.vs) } } ∧
      sout.length = s.cfg.vs ∧
      ∀ i < s.cfg.vs, valAt num sout i = (List.range s.cfg.dm).foldl
        (fun acc b => num.add acc (valAt num (bufferAt s.rs b) (counterAt s.rs b + i))) (num.ofNat 0)

/-- 43_resynth.md R181, R186: RESYNTH depends on its source frame's contents alone: with XF holding the analyzer's frame,
`RESYNTH X` does what `RESYNTH A` does, whatever the analyzer's counters. -/
def Obligations.ResynthUsesSelectedFrame : Prop :=
  ∀ (s : State) (an : Analyzer Word), ∃ t u, exec (.resynth .frame) s = .next t ∧
    exec (.resynth .xf) { s with xf := s.an.frame, an := an } = .next u ∧ t.rs = u.rs ∧ t.te = u.te

/-! ## The Transform Engine, for any numerics -/

/-- 41_transform.md R131: bit j of the result is bit p-1-j of i. -/
def Obligations.BitReversalReadsBackwards : Prop :=
  ∀ p i : Nat, i < 2 ^ p → bitrev i p < 2 ^ p ∧ bitrev i 0 = 0 ∧
    (∀ j < p, (bitrev i p).testBit j = i.testBit (p - 1 - j)) ∧
    (List.range 8).map (fun i => bitrev i 3) = [0, 4, 2, 6, 1, 5, 3, 7]

/-- 41_transform.md R132: bit reversal followed by in-place butterflies computes exactly the even/odd recursion, for any numerics. That
an instance evaluates its twiddles as the pseudocode writes them is the model's reading (entry 6). -/
def Obligations.CoreIsEvenOddRecursion : Prop :=
  ∀ (V : Type) (nm : Num V) (dir : Direction) (p : Nat) (a : List (Cx V)), a.length = 2 ^ p →
    (cfftCore nm dir (2 ^ p) a).length = 2 ^ p ∧
    ∀ k < 2 ^ p, cxAt nm (cfftCore nm dir (2 ^ p) a) k = fftRec nm dir p (cxAt nm a) k

/-- 41_transform.md R133, R134, R130: CFFT.F and CFFT.I complete from every well-formed state, transform CB in place by the
recursion of the core, divide by N in the normalised direction only, and change nothing else. That an
instance evaluates its twiddles as the pseudocode writes them is the model's reading (entry 6). -/
def Obligations.CfftTransformsInPlace : Prop :=
  ∀ s : State, LegalConfig s.cfg → Memory.wf s →
    (∃ cb, exec .cfftF s = .next { s with cb := cb } ∧ cb.length = s.cfg.n ∧ ∀ k < s.cfg.n,
      let x := fftRec num .forward (Nat.log2 s.cfg.n) (cxAt num s.cb) k
      cxAt num cb k = if s.cfg.norm = .fwd
        then ⟨num.div x.re (num.ofNat s.cfg.n), num.div x.im (num.ofNat s.cfg.n)⟩ else x) ∧
    (∃ cb, exec .cfftI s = .next { s with cb := cb } ∧ cb.length = s.cfg.n ∧ ∀ k < s.cfg.n,
      let x := fftRec num .inverse (Nat.log2 s.cfg.n) (cxAt num s.cb) k
      cxAt num cb k = if s.cfg.norm = .inv
        then ⟨num.div x.re (num.ofNat s.cfg.n), num.div x.im (num.ofNat s.cfg.n)⟩ else x)

/-- 41_transform.md R135, R136: RFFT completes and leaves, slot by slot, the packed spectrum in TS and its N/2+1 bins in SP, with
exact zeros as the imaginary parts of bins 0 and N/2; RB and everything else stay. That an
instance evaluates its twiddles as the pseudocode writes them is the model's reading (entry 6). -/
def Obligations.RfftSplitsPackedSpectrum : Prop :=
  ∀ s : State, LegalConfig s.cfg → Memory.wf s →
    ∃ ts sp, exec .rfft s = .next { s with te := { s.te with ts := ts, sp := sp } } ∧
      ts.length = s.cfg.m ∧ sp.length = s.cfg.nb ∧
      let m := s.cfg.n / 2
      let z := fftRec num .forward (Nat.log2 m) (fun j => ⟨valAt num s.te.rb (2 * j), valAt num s.te.rb (2 * j + 1)⟩)
      let scaled : Cx Word → Cx Word := fun c => if s.cfg.norm = .fwd
        then ⟨num.div c.re (num.ofNat s.cfg.n), num.div c.im (num.ofNat s.cfg.n)⟩ else c
      cxAt num ts 0 = scaled ⟨num.add (z 0).re (z 0).im, num.sub (z 0).re (z 0).im⟩ ∧
      (∀ k, 1 ≤ k → 2 * k ≤ m →
        let a := z k
        let b := Cx.conj num (z (m - k))
        let e := Cx.divBy num (Cx.add num a b) (num.ofNat 2)
        let o := Cx.mul num (Cx.sub num a b) ⟨num.ofNat 0, num.neg num.half⟩
        let t := Cx.mul num (recurTwiddle num (splitTwiddle num s.cfg.n) (k - 1)) o
        (2 * k < m → cxAt num ts k = scaled (Cx.add num e t)) ∧
        cxAt num ts (m - k) = scaled (Cx.conj num (Cx.sub num e t))) ∧
      cxAt num sp 0 = ⟨(cxAt num ts 0).re, 0#32⟩ ∧ cxAt num sp m = ⟨(cxAt num ts 0).im, 0#32⟩ ∧
      ∀ k, 0 < k → k < m → cxAt num sp k = cxAt num ts k

/-- 41_transform.md R137, R138: IRFFT completes, merges the bins slot by slot, transforms and scales by g; the imaginary parts of
bins 0 and N/2 are not read; SP and everything else stay. That an
instance evaluates its twiddles as the pseudocode writes them is the model's reading (entry 6). -/
def Obligations.IrfftMergesAndScales : Prop :=
  ∀ s : State, LegalConfig s.cfg → Memory.wf s →
    ∃ ts rb, exec .irfft s = .next { s with te := { s.te with ts := ts, rb := rb } } ∧
      ts.length = s.cfg.m ∧ rb.length = s.cfg.n ∧
      ∃ z : Nat → Cx Word,
        let m := s.cfg.n / 2
        let d := (cxAt num s.te.sp 0).re
        let y := (cxAt num s.te.sp m).re
        let g := if s.cfg.norm = .inv then num.div (num.ofNat 2) (num.ofNat s.cfg.n) else num.ofNat 2
        z 0 = ⟨num.div (num.add d y) (num.ofNat 2), num.div (num.sub d y) (num.ofNat 2)⟩ ∧
        (∀ k, 1 ≤ k → 2 * k ≤ m →
          let a := cxAt num s.te.sp k
          let b := Cx.conj num (cxAt num s.te.sp (m - k))
          let e := Cx.divBy num (Cx.add num a b) (num.ofNat 2)
          let o := Cx.mul num (Cx.divBy num (Cx.sub num a b) (num.ofNat 2))
            (recurTwiddle num (mergeTwiddle num s.cfg.n) (k - 1))
          (2 * k < m → z k = ⟨num.sub e.re o.im, num.add e.im o.re⟩) ∧
          z (m - k) = ⟨num.add e.re o.im, num.add (num.neg e.im) o.re⟩) ∧
        ∀ j < m, cxAt num ts j = fftRec num .inverse (Nat.log2 m) z j ∧
          valAt num rb (2 * j) = num.mul g (cxAt num ts j).re ∧
          valAt num rb (2 * j + 1) = num.mul g (cxAt num ts j).im

/-- 41_transform.md R138 (D37): the imaginary parts of SP[0] and SP[N/2] do not matter to IRFFT. -/
def Obligations.IrfftIgnoresEdgeImaginaryParts : Prop :=
  ∀ (s : State) (x y : Word), LegalConfig s.cfg → Memory.wf s →
    let sp' := (s.te.sp.set 0 ⟨(cxAt num s.te.sp 0).re, x⟩).set s.cfg.m ⟨(cxAt num s.te.sp s.cfg.m).re, y⟩
    ∃ t u, exec .irfft s = .next t ∧ exec .irfft { s with te := { s.te with sp := sp' } } = .next u ∧
      t.te.rb = u.te.rb ∧ t.te.ts = u.te.ts

/-! ## The ideal semantics -/

/-- 00_scope.md R14: `wrap` is the principal value: the one angle in (-π, π] that differs by a multiple of 2π. -/
def Obligations.WrapIsPrincipalValue : Prop :=
  (∀ θ : ℝ, -Real.pi < wrap ideal θ ∧ wrap ideal θ ≤ Real.pi ∧ (∃ k : ℤ, wrap ideal θ - θ = k * (2 * Real.pi)) ∧
    ∀ θ' : ℝ, -Real.pi < θ' → θ' ≤ Real.pi → (∃ k : ℤ, θ' - θ = k * (2 * Real.pi)) → θ' = wrap ideal θ) ∧
  (∀ θ : ℝ, wrap ideal θ = θ - 2 * Real.pi * ⌈(θ - Real.pi) / (2 * Real.pi)⌉) ∧
  wrap ideal Real.pi = Real.pi ∧ wrap ideal (-Real.pi) = Real.pi ∧
  wrap ideal (3 * Real.pi / 2) = -Real.pi / 2 ∧ wrap ideal (-(3 * Real.pi / 2)) = Real.pi / 2 ∧
  wrap ideal (2 * Real.pi) = 0 ∧ wrap ideal 0 = 0

/-- 40_bin_ops.md R111, R112: TOPOLAR gives an amplitude ≥ 0 and a phase in (-π, π], and TORECT undoes it. -/
def Obligations.PolarFormRoundTrip : Prop :=
  ∀ c : Cx ℝ, 0 ≤ (toPolar ideal c).1 ∧ -Real.pi < (toPolar ideal c).2 ∧ (toPolar ideal c).2 ≤ Real.pi ∧
    toRect ideal (toPolar ideal c).1 (toPolar ideal c).2 = c

/-- 10_state.md R53, its clause on phases: under the ideal semantics the previous phases and the running phases stay in (-π, π],
whatever the samples, the frame and the rates. They are 0 after hardware reset. -/
def Obligations.PhasesStayWrapped : Prop :=
  ∀ (c : Config ℝ) (r : Rates ℝ), LegalGeometry c →
    let wrapped := fun a : List ℝ => ∀ φ ∈ a, -Real.pi < φ ∧ φ ≤ Real.pi
    (∀ sin len p, wrapped p.1.pph → wrapped (analyze ideal c r sin len p).1.pph) ∧
    (∀ f p, wrapped p.1.phs → wrapped (resynthesize ideal c r f p).1.phs) ∧
    wrapped (Analyzer.resetOf ideal c).pph ∧ wrapped (Resynth.resetOf ideal c).phs

/-- 40_bin_ops.md R116, R117: HZ2INC undoes PH2HZ while the rate registers stay. -/
def Obligations.FrequencyConversionsInvert : Prop :=
  ∀ (c : Config ℝ) (sr d : ℝ) (k : Nat), LegalGeometry c → 0 < sr →
    hz2inc ideal (ratesOf ideal c sr) (ph2hz ideal (ratesOf ideal c sr) d k) k = d

/-- 41_transform.md R139 for CFFT.F and CFFT.I: under the ideal semantics they compute the scaled transform sums over N points. -/
def Obligations.CfftComputesTransformSum : Prop :=
  ∀ (c : Config ℝ) (dir : Direction) (cb : List (Cx ℝ)), LegalGeometry c → cb.length = c.n →
    ∀ k < c.n, cAt (cfft ideal c dir cb) k = dirScale c dir * dft dir c.n (cAt cb) k

/-- 41_transform.md R139 for RFFT: under the ideal semantics SP holds the N/2+1 true spectral bins of RB. -/
def Obligations.RfftComputesTransformSum : Prop :=
  ∀ (c : Config ℝ) (te : Engine ℝ), LegalGeometry c → te.rb.length = c.n →
    ∀ k ≤ c.n / 2, cAt (rfft ideal c te).sp k =
      dirScale c .forward * dft .forward c.n (fun n => ((valAt ideal te.rb n : ℝ) : ℂ)) k

/-- 41_transform.md R139 for IRFFT: under the ideal semantics RB holds the inverse transform of the conjugate-symmetric spectrum. -/
def Obligations.IrfftComputesInverseSum : Prop :=
  ∀ (c : Config ℝ) (te : Engine ℝ), LegalGeometry c → te.sp.length = c.nb →
    ∀ n < c.n, ((valAt ideal (irfft ideal c te).rb n : ℝ) : ℂ) =
      dirScale c .inverse * dft .inverse c.n (hermitian c.n te.sp) n

/-- 41_transform.md R140: under the ideal semantics IRFFT undoes RFFT, RFFT undoes IRFFT where bins 0 and N/2 are real, and
CFFT.F and CFFT.I undo each other, for both values of NORM. -/
def Obligations.TransformsInvertEachOther : Prop :=
  ∀ (c : Config ℝ) (te : Engine ℝ) (cb : List (Cx ℝ)), LegalGeometry c → te.rb.length = c.n → te.sp.length = c.nb →
    cb.length = c.n →
    (irfft ideal c (rfft ideal c te)).rb = te.rb ∧
    ((cxAt ideal te.sp 0).im = 0 → (cxAt ideal te.sp c.m).im = 0 → (rfft ideal c (irfft ideal c te)).sp = te.sp) ∧
    cfft ideal c .inverse (cfft ideal c .forward cb) = cb ∧ cfft ideal c .forward (cfft ideal c .inverse cb) = cb

/-- 43_resynth.md R186, 70_reset_and_hazards.md R244: the first H output samples after hardware reset are 0, whatever the frame
and the rates each command finds and however many commands produce them: sample j × VS + i is SOUT[i] after command j + 1. -/
def Obligations.FirstHopOfOutputIsSilent : Prop :=
  ∀ (c : Config ℝ) (r : Nat → Rates ℝ) (f : Nat → List (Bin ℝ)), LegalGeometry c →
    ∀ j i, i < c.vs → j * c.vs + i < c.h →
      valAt ideal (forTo (j + 1) (fun m p => resynthesize ideal c (r m) (f m) p)
        (Resynth.resetOf ideal c, Engine.resetOf ideal c)).1.sout i = 0

/-- 42_analyzer.md R168 for bin k0: a stationary bin-centre sinusoid, with a window that does not leak its negative-frequency
image into bin k0, shows the same spectrum value at every hop from hop dm on, and its exact frequency from hop dm + 1 on. -/
def Obligations.BinCentreSinusoidFrequency : Prop :=
  ∀ (c : Config ℝ) (k0 : Nat) (A θ : ℝ), LegalGeometry c → 0 < c.sr0 → 0 < k0 → k0 < c.n / 2 →
    ∑ n ∈ Finset.range c.n, ((valAt ideal c.wa n : ℝ) : ℂ) * kernel .forward c.n n (2 * k0) = 0 →
    let x : Nat → ℝ := fun t => A * Real.cos (2 * Real.pi * k0 * t / c.n + θ)
    (∀ j, c.dm ≤ j → cAt (analyzed c x j).2.sp k0 =
      dirScale c .forward * (A / 2) * Complex.exp (Complex.I * θ) *
        ∑ n ∈ Finset.range c.n, ((valAt ideal c.wa n : ℝ) : ℂ)) ∧
    ∀ j, c.dm + 1 ≤ j → (binAt ideal (analyzed c x j).1.frame k0).freq = k0 * (c.sr0 / c.n)

/-- 43_resynth.md R187: reconstruction. In lockstep with VS = H, the output is the input delayed by N, scaled by the overlap sum of
the two windows; the first N samples are 0. -/
def Obligations.LockstepReconstruction : Prop :=
  ∀ (c : Config ℝ) (x : Nat → ℝ), LegalGeometry c → c.vs = c.h → 0 < c.sr0 →
    ∀ j r, r < c.h →
      valAt ideal (lockstep c x (j + 1)).2.2.sout r =
        if j * c.h + r < c.n then 0
        else x (j * c.h + r - c.n) *
          ∑ m ∈ Finset.range c.dm, valAt ideal c.wa (r + m * c.h) * valAt ideal c.ws (r + m * c.h)
end

