-- ==== Sys2Proof/Laws/Arrays.lean ====
section
/-! SUPPORT. Bounded loops and element access. -/

namespace Sys2Proof.Machine

variable {σ τ V : Type}

/-! ## Bounded loops -/

@[simp] theorem forTo_zero (body : Nat → σ → σ) (s : σ) : forTo 0 body s = s := rfl

theorem forTo_succ (n : Nat) (body : Nat → σ → σ) (s : σ) :
    forTo (n + 1) body s = body n (forTo n body s) := rfl

/-- The loop rule: an indexed invariant. -/
theorem forTo_induct (P : Nat → σ → Prop) {n : Nat} {body : Nat → σ → σ} {s : σ} (h0 : P 0 s)
    (hs : ∀ i < n, ∀ x, P i x → P (i + 1) (body i x)) : P n (forTo n body s) := by
  induction n with
  | zero => exact h0
  | succ n ih => exact hs n n.lt_succ_self _ (ih fun i hi => hs i (Nat.lt_succ_of_lt hi))

/-- A property every iteration keeps. -/
theorem forTo_keeps (P : σ → Prop) {n : Nat} {body : Nat → σ → σ} {s : σ} (h0 : P s)
    (hs : ∀ i < n, ∀ x, P x → P (body i x)) : P (forTo n body s) :=
  forTo_induct (fun _ => P) h0 hs

/-- Two loops whose bodies respect a relation. -/
theorem forTo_rel (R : σ → τ → Prop) {n : Nat} {body : Nat → σ → σ} {body' : Nat → τ → τ} {s : σ} {t : τ}
    (h0 : R s t) (hs : ∀ i < n, ∀ x y, R x y → R (body i x) (body' i y)) :
    R (forTo n body s) (forTo n body' t) := by
  induction n with
  | zero => exact h0
  | succ n ih => exact hs n n.lt_succ_self _ _ (ih fun i hi => hs i (Nat.lt_succ_of_lt hi))

theorem forTo_congr {n : Nat} {body body' : Nat → σ → σ} {s : σ} (h : ∀ i < n, ∀ x, body i x = body' i x) :
    forTo n body s = forTo n body' s :=
  forTo_rel (· = ·) rfl fun i hi x _ e => e ▸ h i hi x

theorem forTo_add (m n : Nat) (body : Nat → σ → σ) (s : σ) :
    forTo (m + n) body s = forTo n (fun i => body (m + i)) (forTo m body s) := by
  induction n with
  | zero => rfl
  | succ n ih => rw [← Nat.add_assoc, forTo_succ, forTo_succ, ih]

/-- A loop over an array that keeps the length keeps it throughout. -/
theorem length_forTo {n : Nat} {body : Nat → List σ → List σ} {a : List σ}
    (h : ∀ i < n, ∀ x, (body i x).length = x.length) : (forTo n body a).length = a.length :=
  forTo_keeps (fun x => x.length = a.length) rfl fun i hi x e => (h i hi x).trans e

/-! ## Element access -/

theorem getD_set_self {a : List σ} {i : Nat} (h : i < a.length) (x d : σ) : (a.set i x).getD i d = x := by
  simp [List.getD_eq_getElem?_getD, h]

theorem getD_set_ne {i j : Nat} (h : i ≠ j) (a : List σ) (x d : σ) : (a.set i x).getD j d = a.getD j d := by
  simp [List.getD_eq_getElem?_getD, List.getElem?_set_ne h]

theorem getD_map_range {n i : Nat} (h : i < n) (f : Nat → σ) (d : σ) :
    ((List.range n).map f).getD i d = f i := by
  simp [List.getD_eq_getElem?_getD, h]

theorem valAt_set_self (num : Num V) {a : List V} {i : Nat} (h : i < a.length) (x : V) :
    valAt num (a.set i x) i = x := getD_set_self h x _

theorem valAt_set_ne (num : Num V) {i j : Nat} (h : i ≠ j) (a : List V) (x : V) :
    valAt num (a.set i x) j = valAt num a j := getD_set_ne h a x _

theorem cxAt_set_self (num : Num V) {a : List (Cx V)} {i : Nat} (h : i < a.length) (x : Cx V) :
    cxAt num (a.set i x) i = x := getD_set_self h x _

theorem cxAt_set_ne (num : Num V) {i j : Nat} (h : i ≠ j) (a : List (Cx V)) (x : Cx V) :
    cxAt num (a.set i x) j = cxAt num a j := getD_set_ne h a x _

theorem binAt_set_self (num : Num V) {a : List (Bin V)} {i : Nat} (h : i < a.length) (x : Bin V) :
    binAt num (a.set i x) i = x := getD_set_self h x _

theorem binAt_set_ne (num : Num V) {i j : Nat} (h : i ≠ j) (a : List (Bin V)) (x : Bin V) :
    binAt num (a.set i x) j = binAt num a j := getD_set_ne h a x _

end Sys2Proof.Machine
end

