-- ==== Sys2Proof/Laws/Transform.lean ====
section
/-! SUPPORT. What the Transform Engine's operations do to the shape of the arrays. -/

namespace Sys2Proof.Machine

variable {V : Type} (num : Num V) (cfg : Config V)

@[simp] theorem length_swapAt (a : List (Cx V)) (i j : Nat) : (swapAt num a i j).length = a.length := by
  simp [swapAt]

@[simp] theorem length_bitReverse (len p : Nat) (a : List (Cx V)) : (bitReverse num len p a).length = a.length :=
  length_forTo fun i _ x => by split <;> simp

@[simp] theorem length_butterfly (dir : Direction) (span g j : Nat) (a : List (Cx V)) :
    (butterfly num dir span g j a).length = a.length := by
  simp [butterfly]

@[simp] theorem length_stage (dir : Direction) (len span : Nat) (a : List (Cx V)) :
    (stage num dir len span a).length = a.length :=
  length_forTo fun _ _ _ => length_forTo fun _ _ _ => length_butterfly ..

@[simp] theorem length_cfftCore (dir : Direction) (len : Nat) (a : List (Cx V)) :
    (cfftCore num dir len a).length = a.length :=
  (length_forTo fun _ _ _ => length_stage ..).trans (length_bitReverse ..)

@[simp] theorem length_scaleBy (dir : Direction) (a : List (Cx V)) : (scaleBy num cfg dir a).length = a.length := by
  unfold scaleBy; split <;> simp

@[simp] theorem length_cfft (dir : Direction) (cb : List (Cx V)) : (cfft num cfg dir cb).length = cb.length := by
  simp [cfft]

@[simp] theorem length_packReal (m : Nat) (rb : List V) : (packReal num m rb).length = m := by simp [packReal]

@[simp] theorem length_splitSlot0 (ts : List (Cx V)) : (splitSlot0 num ts).length = ts.length := by simp [splitSlot0]

@[simp] theorem length_splitLoop (ts : List (Cx V)) : (splitLoop num cfg ts).length = ts.length :=
  forTo_keeps (fun p : List (Cx V) × Cx V => p.1.length = ts.length) rfl fun i _ x h => by simpa [splitPair] using h

@[simp] theorem length_unpackSpectrum (m : Nat) (ts : List (Cx V)) : (unpackSpectrum num m ts).length = m + 1 := by
  simp [unpackSpectrum]

@[simp] theorem length_packSpectrum (m : Nat) (sp : List (Cx V)) : (packSpectrum num m sp).length = m := by
  simp [packSpectrum]

@[simp] theorem length_mergeLoop (ts : List (Cx V)) : (mergeLoop num cfg ts).length = ts.length :=
  forTo_keeps (fun p : List (Cx V) × Cx V => p.1.length = ts.length) rfl fun i _ x h => by simpa [mergePair] using h

@[simp] theorem length_unpackReal (n : Nat) (g : V) (ts : List (Cx V)) : (unpackReal num n g ts).length = n := by
  simp [unpackReal]

@[simp] theorem length_packedSpectrum (rb : List V) : (packedSpectrum num cfg rb).length = cfg.m := by
  simp [packedSpectrum]

@[simp] theorem length_timePairs (sp : List (Cx V)) : (timePairs num cfg sp).length = cfg.m := by
  simp [timePairs]

/-! `rfft` reads RB and leaves it; `irfft` reads SP and leaves it (41_transform.md R136, R138). -/

@[simp] theorem rfft_rb (te : Engine V) : (rfft num cfg te).rb = te.rb := rfl

@[simp] theorem rfft_ts (te : Engine V) : (rfft num cfg te).ts = packedSpectrum num cfg te.rb := rfl

@[simp] theorem rfft_sp (te : Engine V) :
    (rfft num cfg te).sp = unpackSpectrum num cfg.m (packedSpectrum num cfg te.rb) := rfl

@[simp] theorem irfft_sp (te : Engine V) : (irfft num cfg te).sp = te.sp := rfl

@[simp] theorem irfft_ts (te : Engine V) : (irfft num cfg te).ts = timePairs num cfg te.sp := rfl

@[simp] theorem irfft_rb (te : Engine V) :
    (irfft num cfg te).rb = unpackReal num cfg.n (irfftScale num cfg) (timePairs num cfg te.sp) := rfl

theorem rfft_congr {te te' : Engine V} (h : te.rb = te'.rb) : rfft num cfg te = rfft num cfg te' := by
  simp [rfft, h]

theorem irfft_congr {te te' : Engine V} (h : te.sp = te'.sp) : irfft num cfg te = irfft num cfg te' := by
  simp [irfft, h]

/-- The engine's arrays have the configured lengths (10_state.md R34 to R36). -/
abbrev Engine.Shaped {V : Type} (cfg : Config V) (te : Engine V) : Prop :=
  te.rb.length = cfg.n ∧ te.sp.length = cfg.nb ∧ te.ts.length = cfg.m

theorem rfft_shaped {te : Engine V} (h : te.rb.length = cfg.n) : (rfft num cfg te).Shaped cfg :=
  ⟨by simpa using h, by simp [Config.nb, Config.m], by simp⟩

theorem irfft_shaped {te : Engine V} (h : te.sp.length = cfg.nb) : (irfft num cfg te).Shaped cfg :=
  ⟨by simp, by simpa using h, by simp⟩

/-! What each command of the engine answers: a next state in which only its buffers differ. -/

theorem execCfftF_next (s : State) : execCfftF s = .next { s with cb := cfft Machine.num s.cfg .forward s.cb } := rfl

theorem execCfftI_next (s : State) : execCfftI s = .next { s with cb := cfft Machine.num s.cfg .inverse s.cb } := rfl

theorem execRfft_next (s : State) : execRfft s = .next { s with te := rfft Machine.num s.cfg s.te } := rfl

theorem execIrfft_next (s : State) : execIrfft s = .next { s with te := irfft Machine.num s.cfg s.te } := rfl

end Sys2Proof.Machine
end

