-- ==== Sys2Proof/Laws/Analysis.lean ====
section
/-! SUPPORT. What the analyzer's operations do to the shape and to the integer state. -/

namespace Sys2Proof.Machine

variable {V : Type} (num : Num V) (cfg : Config V) (r : Rates V)

/-- The analyzer's arrays have the configured lengths (10_state.md R25 to R28). -/
abbrev Analyzer.Shaped {V : Type} (cfg : Config V) (an : Analyzer V) : Prop :=
  an.ab.length = cfg.n ∧ an.pph.length = cfg.nb ∧ an.frame.length = cfg.nb

@[simp] theorem length_windowSegment (an : Analyzer V) : (windowSegment num cfg an).length = cfg.n := by
  simp [windowSegment]

/-! What `complete_hop` does to each part (42_analyzer.md R163). -/

@[simp] theorem completeHop_ab (p : Analyzer V × Engine V) : (completeHop num cfg r p).1.ab = p.1.ab := rfl

@[simp] theorem completeHop_pos (p : Analyzer V × Engine V) : (completeHop num cfg r p).1.pos = 0 := rfl

@[simp] theorem completeHop_hnum (p : Analyzer V × Engine V) :
    (completeHop num cfg r p).1.hnum = (p.1.hnum + 1) % cfg.dm := rfl

@[simp] theorem completeHop_fcnt (p : Analyzer V × Engine V) : (completeHop num cfg r p).1.fcnt = p.1.fcnt + 1 := rfl

@[simp] theorem completeHop_te (p : Analyzer V × Engine V) : (completeHop num cfg r p).2 = hopEngine num cfg p := rfl

@[simp] theorem hopEngine_rb (p : Analyzer V × Engine V) : (hopEngine num cfg p).rb = windowSegment num cfg p.1 := rfl

theorem hopBins_length (sp : List (Cx V)) (an : Analyzer V) :
    (hopBins num cfg r sp an).1.length = an.pph.length ∧ (hopBins num cfg r sp an).2.length = an.frame.length :=
  forTo_keeps (fun x : List V × List (Bin V) => x.1.length = an.pph.length ∧ x.2.length = an.frame.length) ⟨rfl, rfl⟩
    fun i _ x h => by simpa [analyzeBin, binDiff] using h

theorem completeHop_shaped {p : Analyzer V × Engine V} (h : p.1.Shaped cfg) :
    (completeHop num cfg r p).1.Shaped cfg ∧ (completeHop num cfg r p).2.Shaped cfg := by
  refine ⟨⟨h.1, ?_, ?_⟩, rfft_shaped num cfg (by simp)⟩
  · exact (hopBins_length num cfg r _ _).1.trans h.2.1
  · exact (hopBins_length num cfg r _ _).2.trans h.2.2

@[simp] theorem acceptSamples_pos (sin : List V) (i n : Nat) (an : Analyzer V) :
    (acceptSamples num cfg sin i n an).pos = an.pos + n := rfl

@[simp] theorem acceptSamples_hnum (sin : List V) (i n : Nat) (an : Analyzer V) :
    (acceptSamples num cfg sin i n an).hnum = an.hnum := rfl

@[simp] theorem acceptSamples_fcnt (sin : List V) (i n : Nat) (an : Analyzer V) :
    (acceptSamples num cfg sin i n an).fcnt = an.fcnt := rfl

@[simp] theorem acceptSamples_pph (sin : List V) (i n : Nat) (an : Analyzer V) :
    (acceptSamples num cfg sin i n an).pph = an.pph := rfl

@[simp] theorem acceptSamples_frame (sin : List V) (i n : Nat) (an : Analyzer V) :
    (acceptSamples num cfg sin i n an).frame = an.frame := rfl

theorem acceptSamples_shaped {an : Analyzer V} (sin : List V) (i n : Nat) (h : an.Shaped cfg) :
    (acceptSamples num cfg sin i n an).Shaped cfg :=
  ⟨(length_forTo fun _ _ _ => by simp).trans h.1, h.2.1, h.2.2⟩

theorem analyzeLoop_succ (sin : List V) (len fuel i : Nat) (p : Analyzer V × Engine V) :
    analyzeLoop num cfg r sin len (fuel + 1) i p =
      if i < len then
        analyzeLoop num cfg r sin len fuel (i + fitting cfg len i p.1)
          (analyzeIter num cfg r sin i (fitting cfg len i p.1) p)
      else p := rfl

/-- The loop rule of ANALYZE: a property every iteration keeps holds at the end. -/
theorem analyzeLoop_keeps (P : Analyzer V × Engine V → Prop) (sin : List V) (len : Nat)
    (step : ∀ i n p, P p → P (analyzeIter num cfg r sin i n p)) (fuel i : Nat) (p : Analyzer V × Engine V) (h : P p) :
    P (analyzeLoop num cfg r sin len fuel i p) := by
  induction fuel generalizing i p with
  | zero => exact h
  | succ fuel ih =>
    rw [analyzeLoop_succ]
    split
    · exact ih _ _ (step _ _ _ h)
    · exact h

theorem analyzeIter_shaped {sin : List V} {i n : Nat} {p : Analyzer V × Engine V}
    (h : p.1.Shaped cfg ∧ p.2.Shaped cfg) :
    (analyzeIter num cfg r sin i n p).1.Shaped cfg ∧ (analyzeIter num cfg r sin i n p).2.Shaped cfg := by
  unfold analyzeIter
  split
  · exact completeHop_shaped num cfg r (acceptSamples_shaped num cfg sin i n h.1)
  · exact ⟨acceptSamples_shaped num cfg sin i n h.1, h.2⟩

theorem analyze_shaped {sin : List V} {len : Nat} {p : Analyzer V × Engine V} (h : p.1.Shaped cfg ∧ p.2.Shaped cfg) :
    (analyze num cfg r sin len p).1.Shaped cfg ∧ (analyze num cfg r sin len p).2.Shaped cfg :=
  analyzeLoop_keeps num cfg r (fun p => p.1.Shaped cfg ∧ p.2.Shaped cfg) sin len
    (fun _ _ _ h => analyzeIter_shaped num cfg r h) _ _ _ h

/-- What ANALYZE answers: the recorded error, or a next state in which only the analyzer and the engine differ. -/
theorem execAnalyze_cases (len : Nat) (s : State) :
    (s.cfg.chmax < len ∧ execAnalyze len s = .next (raise .lengthRange (encode (.analyze len)) s)) ∨
    (len ≤ s.cfg.chmax ∧ execAnalyze len s = .next { s with
      an := (analyze Machine.num s.cfg s.rates s.sin len (s.an, s.te)).1
      te := (analyze Machine.num s.cfg s.rates s.sin len (s.an, s.te)).2 }) := by
  unfold execAnalyze lengthOutOfRange
  by_cases h : s.cfg.chmax < len
  · simp [h]
  · simp [h, Nat.le_of_not_lt h]

end Sys2Proof.Machine
end

