-- ==== Sys2Proof/Laws/Resynthesis.lean ====
section
/-! SUPPORT. What the resynthesizer's operations do to the shape. -/

namespace Sys2Proof.Machine

variable {V : Type} (num : Num V) (cfg : Config V) (r : Rates V) (f : List (Bin V))

/-- The resynthesizer's arrays have the configured lengths (10_state.md R30 to R33). -/
abbrev Resynth.Shaped {V : Type} (cfg : Config V) (rs : Resynth V) : Prop :=
  rs.ob.length = cfg.dm ∧ (∀ row ∈ rs.ob, row.length = cfg.n) ∧ rs.rcnt.length = cfg.dm ∧
  rs.phs.length = cfg.nb ∧ rs.sout.length = cfg.vs

@[simp] theorem length_playSegment (b : Nat) (rb : List V) : (playSegment num cfg b rb).length = cfg.n := by
  simp [playSegment]

theorem refreshBins_length (phs : List V) (sp : List (Cx V)) :
    (refreshBins num cfg r f phs sp).1.length = phs.length ∧ (refreshBins num cfg r f phs sp).2.length = sp.length :=
  forTo_keeps (fun x : List V × List (Cx V) => x.1.length = phs.length ∧ x.2.length = sp.length) ⟨rfl, rfl⟩
    fun i _ x h => by simpa [refreshBin, binInteg] using h

@[simp] theorem refresh_rcnt (b : Nat) (p : Resynth V × Engine V) : (refresh num cfg r f b p).1.rcnt = p.1.rcnt := rfl

@[simp] theorem refresh_sout (b : Nat) (p : Resynth V × Engine V) : (refresh num cfg r f b p).1.sout = p.1.sout := rfl

theorem refresh_shaped {b : Nat} {p : Resynth V × Engine V} (h : p.1.Shaped cfg ∧ p.2.Shaped cfg) :
    (refresh num cfg r f b p).1.Shaped cfg ∧ (refresh num cfg r f b p).2.Shaped cfg := by
  obtain ⟨⟨h1, h2, h3, h4, h5⟩, -, g2, -⟩ := h
  refine ⟨⟨by simpa [refresh] using h1, ?_, h3, ?_, h5⟩, irfft_shaped num cfg ?_⟩
  · intro row hrow
    rcases List.mem_or_eq_of_mem_set hrow with h | h
    · exact h2 _ h
    · simp [h]
  · exact (refreshBins_length num cfg r f _ _).1.trans h4
  · exact (refreshBins_length num cfg r f _ _).2.trans g2

@[simp] theorem setCounter_ob (b v : Nat) (rs : Resynth V) : (setCounter b v rs).ob = rs.ob := rfl
@[simp] theorem setCounter_rcnt (b v : Nat) (rs : Resynth V) : (setCounter b v rs).rcnt = rs.rcnt.set b v := rfl
@[simp] theorem setCounter_phs (b v : Nat) (rs : Resynth V) : (setCounter b v rs).phs = rs.phs := rfl
@[simp] theorem setCounter_sout (b v : Nat) (rs : Resynth V) : (setCounter b v rs).sout = rs.sout := rfl

theorem setCounter_shaped {b v : Nat} {rs : Resynth V} (h : rs.Shaped cfg) : (setCounter b v rs).Shaped cfg :=
  ⟨h.1, h.2.1, by simpa using h.2.2.1, h.2.2.2⟩

/-- What advancing one counter does: it counts up, or it reaches N, the buffer is refreshed and the counter is 0. -/
theorem advance_cases (b : Nat) (p : Resynth V × Engine V) :
    (counterAt (countUp b p.1) b = cfg.n ∧
      advance num cfg r f b p = refreshAndClear num cfg r f b (countUp b p.1, p.2)) ∨
    (counterAt (countUp b p.1) b ≠ cfg.n ∧ advance num cfg r f b p = (countUp b p.1, p.2)) := by
  unfold advance
  by_cases h : counterAt (countUp b p.1) b = cfg.n <;> simp [h]

theorem advance_shaped {b : Nat} {p : Resynth V × Engine V} (h : p.1.Shaped cfg ∧ p.2.Shaped cfg) :
    (advance num cfg r f b p).1.Shaped cfg ∧ (advance num cfg r f b p).2.Shaped cfg := by
  have h' : (countUp b p.1).Shaped cfg ∧ p.2.Shaped cfg := ⟨setCounter_shaped cfg h.1, h.2⟩
  rcases advance_cases num cfg r f b p with ⟨-, e⟩ | ⟨-, e⟩
  · have := refresh_shaped num cfg r f (b := b) (p := (_, p.2)) h'
    rw [e]
    exact ⟨setCounter_shaped cfg this.1, this.2⟩
  · rw [e]
    exact h'

theorem outputSample_shaped {i : Nat} {p : Resynth V × Engine V} (h : p.1.Shaped cfg ∧ p.2.Shaped cfg) :
    (outputSample num cfg r f i p).1.Shaped cfg ∧ (outputSample num cfg r f i p).2.Shaped cfg :=
  forTo_keeps (fun p : Resynth V × Engine V => p.1.Shaped cfg ∧ p.2.Shaped cfg)
    (by simpa [Resynth.Shaped] using h) fun _ _ _ h => advance_shaped num cfg r f h

theorem resynthesize_shaped {p : Resynth V × Engine V} (h : p.1.Shaped cfg ∧ p.2.Shaped cfg) :
    (resynthesize num cfg r f p).1.Shaped cfg ∧ (resynthesize num cfg r f p).2.Shaped cfg :=
  forTo_keeps (fun p : Resynth V × Engine V => p.1.Shaped cfg ∧ p.2.Shaped cfg) h
    fun _ _ _ h => outputSample_shaped num cfg r f h

/-- What RESYNTH answers: a next state in which only the resynthesizer and the engine differ. -/
theorem execResynth_next (src : Source) (s : State) : execResynth src s = .next { s with
    rs := (resynthesize Machine.num s.cfg s.rates (sourceFrame src s) (s.rs, s.te)).1
    te := (resynthesize Machine.num s.cfg s.rates (sourceFrame src s) (s.rs, s.te)).2 } := rfl

end Sys2Proof.Machine
end

