-- ==== Sys2Proof/Laws/State.lean ====
section
/-! SUPPORT. One lemma per field of State for each shared update of the whole state. -/

namespace Sys2Proof.Machine

@[simp] theorem raise_cfg (c : Cause) (w : Word) (s : State) : (raise c w s).cfg = s.cfg := rfl
@[simp] theorem raise_busy (c : Cause) (w : Word) (s : State) : (raise c w s).busy = false := rfl
@[simp] theorem raise_err (c : Cause) (w : Word) (s : State) : (raise c w s).err = true := rfl
@[simp] theorem raise_errcode (c : Cause) (w : Word) (s : State) : (raise c w s).errcode = causeCode c := rfl
@[simp] theorem raise_errcmd (c : Cause) (w : Word) (s : State) : (raise c w s).errcmd = w := rfl
@[simp] theorem raise_arg (c : Cause) (w : Word) (s : State) : (raise c w s).arg = s.arg := rfl
@[simp] theorem raise_rates (c : Cause) (w : Word) (s : State) : (raise c w s).rates = s.rates := rfl
@[simp] theorem raise_an (c : Cause) (w : Word) (s : State) : (raise c w s).an = s.an := rfl
@[simp] theorem raise_rs (c : Cause) (w : Word) (s : State) : (raise c w s).rs = s.rs := rfl
@[simp] theorem raise_te (c : Cause) (w : Word) (s : State) : (raise c w s).te = s.te := rfl
@[simp] theorem raise_cb (c : Cause) (w : Word) (s : State) : (raise c w s).cb = s.cb := rfl
@[simp] theorem raise_sin (c : Cause) (w : Word) (s : State) : (raise c w s).sin = s.sin := rfl
@[simp] theorem raise_xf (c : Cause) (w : Word) (s : State) : (raise c w s).xf = s.xf := rfl
@[simp] theorem raise_host (c : Cause) (w : Word) (s : State) : (raise c w s).host = s.host := rfl
@[simp] theorem raise_response (c : Cause) (w : Word) (s : State) : (raise c w s).response = s.response := rfl

@[simp] theorem clearError_cfg (s : State) : (clearError s).cfg = s.cfg := rfl
@[simp] theorem clearError_busy (s : State) : (clearError s).busy = s.busy := rfl
@[simp] theorem clearError_err (s : State) : (clearError s).err = false := rfl
@[simp] theorem clearError_errcode (s : State) : (clearError s).errcode = 0 := rfl
@[simp] theorem clearError_errcmd (s : State) : (clearError s).errcmd = 0 := rfl
@[simp] theorem clearError_arg (s : State) : (clearError s).arg = s.arg := rfl
@[simp] theorem clearError_rates (s : State) : (clearError s).rates = s.rates := rfl
@[simp] theorem clearError_an (s : State) : (clearError s).an = s.an := rfl
@[simp] theorem clearError_rs (s : State) : (clearError s).rs = s.rs := rfl
@[simp] theorem clearError_te (s : State) : (clearError s).te = s.te := rfl
@[simp] theorem clearError_cb (s : State) : (clearError s).cb = s.cb := rfl
@[simp] theorem clearError_sin (s : State) : (clearError s).sin = s.sin := rfl
@[simp] theorem clearError_xf (s : State) : (clearError s).xf = s.xf := rfl
@[simp] theorem clearError_host (s : State) : (clearError s).host = s.host := rfl
@[simp] theorem clearError_response (s : State) : (clearError s).response = s.response := rfl

@[simp] theorem respond_cfg (r : Response) (s : State) : (respond r s).cfg = s.cfg := rfl
@[simp] theorem respond_busy (r : Response) (s : State) : (respond r s).busy = s.busy := rfl
@[simp] theorem respond_err (r : Response) (s : State) : (respond r s).err = s.err := rfl
@[simp] theorem respond_errcode (r : Response) (s : State) : (respond r s).errcode = s.errcode := rfl
@[simp] theorem respond_errcmd (r : Response) (s : State) : (respond r s).errcmd = s.errcmd := rfl
@[simp] theorem respond_arg (r : Response) (s : State) : (respond r s).arg = s.arg := rfl
@[simp] theorem respond_rates (r : Response) (s : State) : (respond r s).rates = s.rates := rfl
@[simp] theorem respond_an (r : Response) (s : State) : (respond r s).an = s.an := rfl
@[simp] theorem respond_rs (r : Response) (s : State) : (respond r s).rs = s.rs := rfl
@[simp] theorem respond_te (r : Response) (s : State) : (respond r s).te = s.te := rfl
@[simp] theorem respond_cb (r : Response) (s : State) : (respond r s).cb = s.cb := rfl
@[simp] theorem respond_sin (r : Response) (s : State) : (respond r s).sin = s.sin := rfl
@[simp] theorem respond_xf (r : Response) (s : State) : (respond r s).xf = s.xf := rfl
@[simp] theorem respond_host (r : Response) (s : State) : (respond r s).host = s.host := rfl
@[simp] theorem respond_response (r : Response) (s : State) : (respond r s).response = r := rfl

@[simp] theorem setBusy_cfg (b : Bool) (s : State) : (setBusy b s).cfg = s.cfg := rfl
@[simp] theorem setBusy_busy (b : Bool) (s : State) : (setBusy b s).busy = b := rfl
@[simp] theorem setBusy_err (b : Bool) (s : State) : (setBusy b s).err = s.err := rfl
@[simp] theorem setBusy_errcode (b : Bool) (s : State) : (setBusy b s).errcode = s.errcode := rfl
@[simp] theorem setBusy_errcmd (b : Bool) (s : State) : (setBusy b s).errcmd = s.errcmd := rfl
@[simp] theorem setBusy_arg (b : Bool) (s : State) : (setBusy b s).arg = s.arg := rfl
@[simp] theorem setBusy_rates (b : Bool) (s : State) : (setBusy b s).rates = s.rates := rfl
@[simp] theorem setBusy_an (b : Bool) (s : State) : (setBusy b s).an = s.an := rfl
@[simp] theorem setBusy_rs (b : Bool) (s : State) : (setBusy b s).rs = s.rs := rfl
@[simp] theorem setBusy_te (b : Bool) (s : State) : (setBusy b s).te = s.te := rfl
@[simp] theorem setBusy_cb (b : Bool) (s : State) : (setBusy b s).cb = s.cb := rfl
@[simp] theorem setBusy_sin (b : Bool) (s : State) : (setBusy b s).sin = s.sin := rfl
@[simp] theorem setBusy_xf (b : Bool) (s : State) : (setBusy b s).xf = s.xf := rfl
@[simp] theorem setBusy_host (b : Bool) (s : State) : (setBusy b s).host = s.host := rfl
@[simp] theorem setBusy_response (b : Bool) (s : State) : (setBusy b s).response = s.response := rfl

@[simp] theorem withHost_cfg (rest : List HostAction) (s : State) : (withHost rest s).cfg = s.cfg := rfl
@[simp] theorem withHost_busy (rest : List HostAction) (s : State) : (withHost rest s).busy = s.busy := rfl
@[simp] theorem withHost_err (rest : List HostAction) (s : State) : (withHost rest s).err = s.err := rfl
@[simp] theorem withHost_errcode (rest : List HostAction) (s : State) : (withHost rest s).errcode = s.errcode := rfl
@[simp] theorem withHost_errcmd (rest : List HostAction) (s : State) : (withHost rest s).errcmd = s.errcmd := rfl
@[simp] theorem withHost_arg (rest : List HostAction) (s : State) : (withHost rest s).arg = s.arg := rfl
@[simp] theorem withHost_rates (rest : List HostAction) (s : State) : (withHost rest s).rates = s.rates := rfl
@[simp] theorem withHost_an (rest : List HostAction) (s : State) : (withHost rest s).an = s.an := rfl
@[simp] theorem withHost_rs (rest : List HostAction) (s : State) : (withHost rest s).rs = s.rs := rfl
@[simp] theorem withHost_te (rest : List HostAction) (s : State) : (withHost rest s).te = s.te := rfl
@[simp] theorem withHost_cb (rest : List HostAction) (s : State) : (withHost rest s).cb = s.cb := rfl
@[simp] theorem withHost_sin (rest : List HostAction) (s : State) : (withHost rest s).sin = s.sin := rfl
@[simp] theorem withHost_xf (rest : List HostAction) (s : State) : (withHost rest s).xf = s.xf := rfl
@[simp] theorem withHost_host (rest : List HostAction) (s : State) : (withHost rest s).host = rest := rfl
@[simp] theorem withHost_response (rest : List HostAction) (s : State) : (withHost rest s).response = s.response := rfl

@[simp] theorem performReset_cfg (s : State) : (performReset s).cfg = s.cfg := rfl
@[simp] theorem performReset_busy (s : State) : (performReset s).busy = false := rfl
@[simp] theorem performReset_err (s : State) : (performReset s).err = false := rfl
@[simp] theorem performReset_errcode (s : State) : (performReset s).errcode = 0 := rfl
@[simp] theorem performReset_errcmd (s : State) : (performReset s).errcmd = 0 := rfl
@[simp] theorem performReset_arg (s : State) : (performReset s).arg = 0 := rfl
@[simp] theorem performReset_rates (s : State) : (performReset s).rates = ratesOf num s.cfg s.cfg.sr0 := rfl
@[simp] theorem performReset_an (s : State) : (performReset s).an = Analyzer.resetOf num s.cfg := rfl
@[simp] theorem performReset_rs (s : State) : (performReset s).rs = Resynth.resetOf num s.cfg := rfl
@[simp] theorem performReset_te (s : State) : (performReset s).te = Engine.resetOf num s.cfg := rfl
@[simp] theorem performReset_cb (s : State) : (performReset s).cb = List.replicate s.cfg.n (Cx.zero num) := rfl
@[simp] theorem performReset_sin (s : State) : (performReset s).sin = List.replicate s.cfg.chmax (zero num) := rfl
@[simp] theorem performReset_xf (s : State) : (performReset s).xf = List.replicate s.cfg.nb (Bin.zero num) := rfl
@[simp] theorem performReset_host (s : State) : (performReset s).host = s.host := rfl
@[simp] theorem performReset_response (s : State) : (performReset s).response = .none := rfl

@[simp] theorem withFetchWord_cfg (s : State) (nbits w : Nat) : (s.withFetchWord nbits w).cfg = s.cfg := rfl
@[simp] theorem withFetchWord_busy (s : State) (nbits w : Nat) : (s.withFetchWord nbits w).busy = s.busy := rfl
@[simp] theorem withFetchWord_err (s : State) (nbits w : Nat) : (s.withFetchWord nbits w).err = s.err := rfl
@[simp] theorem withFetchWord_errcode (s : State) (nbits w : Nat) : (s.withFetchWord nbits w).errcode = s.errcode := rfl
@[simp] theorem withFetchWord_errcmd (s : State) (nbits w : Nat) : (s.withFetchWord nbits w).errcmd = s.errcmd := rfl
@[simp] theorem withFetchWord_arg (s : State) (nbits w : Nat) : (s.withFetchWord nbits w).arg = s.arg := rfl
@[simp] theorem withFetchWord_rates (s : State) (nbits w : Nat) : (s.withFetchWord nbits w).rates = s.rates := rfl
@[simp] theorem withFetchWord_an (s : State) (nbits w : Nat) : (s.withFetchWord nbits w).an = s.an := rfl
@[simp] theorem withFetchWord_rs (s : State) (nbits w : Nat) : (s.withFetchWord nbits w).rs = s.rs := rfl
@[simp] theorem withFetchWord_te (s : State) (nbits w : Nat) : (s.withFetchWord nbits w).te = s.te := rfl
@[simp] theorem withFetchWord_cb (s : State) (nbits w : Nat) : (s.withFetchWord nbits w).cb = s.cb := rfl
@[simp] theorem withFetchWord_sin (s : State) (nbits w : Nat) : (s.withFetchWord nbits w).sin = s.sin := rfl
@[simp] theorem withFetchWord_xf (s : State) (nbits w : Nat) : (s.withFetchWord nbits w).xf = s.xf := rfl
@[simp] theorem withFetchWord_response (s : State) (nbits w : Nat) : (s.withFetchWord nbits w).response = s.response := rfl

@[simp] theorem withFetchWord_host (s : State) (nbits w : Nat) :
    (s.withFetchWord nbits w).host = .write cmdAddr (BitVec.ofNat 32 (w % 2 ^ nbits)) :: s.host := rfl

@[simp] theorem complete_next (t : State) : complete (.next t) = .next (setBusy false t) := rfl

end Sys2Proof.Machine
end

