-- ==== Sys2Proof/Laws/Host.lean ====
section
/-! SUPPORT. What the host's accesses, a command and a step can do, and that all of them keep the storage's form. -/

namespace Sys2Proof.Machine

/-! ## The storage's form -/

/-- The form of the storage in terms of its components. -/
theorem memory_wf_iff (s : State) : Memory.wf s ↔
    s.an.Shaped s.cfg ∧ s.rs.Shaped s.cfg ∧ s.te.Shaped s.cfg ∧
    s.cb.length = s.cfg.n ∧ s.sin.length = s.cfg.chmax ∧ s.xf.length = s.cfg.nb := by
  simp only [Memory.wf, Analyzer.Shaped, Resynth.Shaped, Engine.Shaped]
  tauto

theorem resetOf_wf (cfg : Config Word) : Memory.wf (State.resetOf cfg) := by
  refine ⟨?_, ?_, ?_, ?_, ?_, ?_, ?_, ?_, ?_, ?_, ?_, ?_, ?_, ?_⟩ <;>
    simp [State.resetOf, Analyzer.resetOf, Resynth.resetOf, Engine.resetOf]

theorem reset_wf : Memory.wf State.reset := resetOf_wf t4

theorem raise_wf {c : Cause} {w : Word} {s : State} (h : Memory.wf s) : Memory.wf (raise c w s) := h

theorem clearError_wf {s : State} (h : Memory.wf s) : Memory.wf (clearError s) := h

theorem respond_wf {r : Response} {s : State} (h : Memory.wf s) : Memory.wf (respond r s) := h

theorem setBusy_wf {b : Bool} {s : State} (h : Memory.wf s) : Memory.wf (setBusy b s) := h

theorem withHost_wf {rest : List HostAction} {s : State} (h : Memory.wf s) : Memory.wf (withHost rest s) := h

theorem performReset_wf (s : State) : Memory.wf (performReset s) := resetOf_wf s.cfg

theorem storeLoc_wf {loc : Loc} {w : Word} {s : State} (h : Memory.wf s) : Memory.wf (storeLoc loc w s) := by
  cases loc with
  | csr r =>
    cases r <;> first | exact h | skip
    unfold storeLoc
    dsimp only
    split <;> exact h
  | _ => simpa [storeLoc, Memory.wf] using h

/-! ## What a command can do -/

/-- A meaning answers: the recorded error LengthRange or BadRate, or a next state in which only the state its command
owns differs (42_analyzer.md R161, 43_resynth.md R181, 41_transform.md R133 to R138, 44_system.md R200). -/
theorem exec_cases (i : Instr) (s : State) : ∃ t, exec i s = .next t ∧
    match i with
    | .cfftF       => t = { s with cb := cfft num s.cfg .forward s.cb }
    | .cfftI       => t = { s with cb := cfft num s.cfg .inverse s.cb }
    | .rfft        => t = { s with te := rfft num s.cfg s.te }
    | .irfft       => t = { s with te := irfft num s.cfg s.te }
    | .analyze len =>
      (s.cfg.chmax < len ∧ t = raise .lengthRange (encode (.analyze len)) s) ∨
      (len ≤ s.cfg.chmax ∧ t = { s with
        an := (analyze num s.cfg s.rates s.sin len (s.an, s.te)).1
        te := (analyze num s.cfg s.rates s.sin len (s.an, s.te)).2 })
    | .resynth src => t = { s with
        rs := (resynthesize num s.cfg s.rates (sourceFrame src s) (s.rs, s.te)).1
        te := (resynthesize num s.cfg s.rates (sourceFrame src s) (s.rs, s.te)).2 }
    | .reset       =>
      (isLegalRate s.arg = true ∧ t = { s with rates := ratesOf num s.cfg s.arg }) ∨
      (isLegalRate s.arg = false ∧ t = raise .badRate (encode .reset) s) := by
  cases i with
  | cfftF => exact ⟨_, rfl, rfl⟩
  | cfftI => exact ⟨_, rfl, rfl⟩
  | rfft => exact ⟨_, rfl, rfl⟩
  | irfft => exact ⟨_, rfl, rfl⟩
  | resynth src => exact ⟨_, rfl, rfl⟩
  | analyze len =>
    rcases execAnalyze_cases len s with ⟨h, e⟩ | ⟨h, e⟩
    · exact ⟨_, e, .inl ⟨h, rfl⟩⟩
    · exact ⟨_, e, .inr ⟨h, rfl⟩⟩
  | reset =>
    by_cases h : isLegalRate s.arg = true
    · exact ⟨_, by simp [exec, execReset, rateOperand, h], .inl ⟨h, rfl⟩⟩
    · exact ⟨_, by simp [exec, execReset, rateOperand, h], .inr ⟨by simpa using h, rfl⟩⟩

theorem exec_keeps_wf {i : Instr} {s t : State} (h : Memory.wf s) (e : exec i s = .next t) : Memory.wf t := by
  obtain ⟨t', e', c⟩ := exec_cases i s
  obtain rfl : t' = t := by simpa [e'] using e
  rw [memory_wf_iff] at h ⊢
  cases i with
  | cfftF => subst c; simpa using h
  | cfftI => subst c; simpa using h
  | rfft => subst c; exact ⟨h.1, h.2.1, rfft_shaped num s.cfg h.2.2.1.1, h.2.2.2⟩
  | irfft => subst c; exact ⟨h.1, h.2.1, irfft_shaped num s.cfg h.2.2.1.2.1, h.2.2.2⟩
  | analyze len =>
    rcases c with ⟨-, rfl⟩ | ⟨-, rfl⟩
    · exact h
    · have k := analyze_shaped num s.cfg s.rates (sin := s.sin) (len := len) (p := (s.an, s.te)) ⟨h.1, h.2.2.1⟩
      exact ⟨k.1, h.2.1, k.2, h.2.2.2⟩
  | resynth src =>
    subst c
    have k := resynthesize_shaped num s.cfg s.rates (sourceFrame src s) (p := (s.rs, s.te)) ⟨h.2.1, h.2.2.1⟩
    exact ⟨h.1, k.1, k.2, h.2.2.2⟩
  | reset => rcases c with ⟨-, rfl⟩ | ⟨-, rfl⟩ <;> exact h

/-- What issuing a command word can do (30_encoding.md R94): it is discarded, it records a decoding error, or the decoded
command runs to its end. -/
theorem issue_cases (w : Word) (s : State) :
    (s.err = true ∧ issue w s = .next s) ∨
    (s.err = false ∧ ∃ c, decode w = .error c ∧ issue w s = .next (raise c w (setBusy true s))) ∨
    (s.err = false ∧ ∃ i t, decode w = .ok i ∧ exec i (setBusy true s) = .next t ∧
      issue w s = .next (setBusy false t)) := by
  unfold issue
  cases h : s.err with
  | true => exact .inl ⟨rfl, rfl⟩
  | false =>
    refine .inr ?_
    cases d : decode w with
    | error c => exact .inl ⟨rfl, c, rfl, by simp⟩
    | ok i =>
      obtain ⟨t, e, -⟩ := exec_cases i (setBusy true s)
      exact .inr ⟨rfl, i, t, rfl, e, by simp [e]⟩

theorem issue_keeps_wf {w : Word} {s t : State} (h : Memory.wf s) (e : issue w s = .next t) : Memory.wf t := by
  rcases issue_cases w s with ⟨-, e'⟩ | ⟨-, c, -, e'⟩ | ⟨-, i, u, -, x, e'⟩ <;>
    obtain rfl := Host.Outcome.next.inj (e.symm.trans e')
  · exact h
  · exact h
  · exact exec_keeps_wf (s := setBusy true s) (t := u) h x

/-! ## What a step can do -/

/-- The forms of a host action's effect when the host may act (20_memory.md R63, R64): a read, an access answered with
HostFault, a store, a command, a hardware reset. -/
theorem perform_cases {act : HostAction} {s t : State} (e : perform act s = .next t) :
    (∃ a, act = .read a ∧ ∃ r, t = respond r s) ∨
    (∃ a w, act = .write a w ∧ (locate s.cfg a = none ∨ ∃ loc, locate s.cfg a = some loc ∧ readOnly loc = true) ∧
      t = respond .hostFault s) ∨
    (∃ a w, act = .write a w ∧ locate s.cfg a = some (.csr .cmd) ∧ issue w (respond .done s) = .next t) ∨
    (∃ a w loc, act = .write a w ∧ locate s.cfg a = some loc ∧ readOnly loc = false ∧ loc ≠ .csr .cmd ∧
      t = storeLoc loc w (respond .done s)) ∨
    (act = .hardwareReset ∧ t = performReset s) := by
  unfold perform at e
  split at e
  · cases act with
    | read a =>
      refine .inl ⟨a, rfl, ?_⟩
      dsimp only [performRead] at e
      split at e <;> exact ⟨_, (Host.Outcome.next.inj e).symm⟩
    | write a w =>
      dsimp only [performWrite] at e
      split at e
      next h => exact .inr (.inl ⟨a, w, rfl, .inl h, (Host.Outcome.next.inj e).symm⟩)
      next loc h =>
        split at e
        next ro => exact .inr (.inl ⟨a, w, rfl, .inr ⟨loc, h, ro⟩, (Host.Outcome.next.inj e).symm⟩)
        next ro =>
          split at e
          next c => exact .inr (.inr (.inl ⟨a, w, rfl, c ▸ h, e⟩))
          next c =>
            exact .inr (.inr (.inr (.inl ⟨a, w, loc, rfl, h, by simpa using ro, c, (Host.Outcome.next.inj e).symm⟩)))
    | hardwareReset => exact .inr (.inr (.inr (.inr ⟨rfl, (Host.Outcome.next.inj e).symm⟩)))
  · cases e

theorem perform_keeps_wf {act : HostAction} {s t : State} (h : Memory.wf s) (e : perform act s = .next t) :
    Memory.wf t := by
  rcases perform_cases e with ⟨-, -, -, rfl⟩ | ⟨-, -, -, -, rfl⟩ | ⟨-, w, -, -, e⟩ | ⟨-, -, _, -, -, -, -, rfl⟩ | ⟨-, rfl⟩
  · exact h
  · exact h
  · exact issue_keeps_wf (s := respond .done s) h e
  · exact storeLoc_wf (s := respond .done s) h
  · exact performReset_wf s

/-- A step is idle, or performs the host's next action on the state without it. -/
theorem step_cases (s : State) :
    (s.host = [] ∧ step s = .next s) ∨
    (∃ act rest, s.host = act :: rest ∧ step s = perform act (withHost rest s)) := by
  unfold step runHost
  cases h : s.host with
  | nil => exact .inl ⟨rfl, rfl⟩
  | cons act rest => exact .inr ⟨act, rest, rfl, rfl⟩

theorem step_keeps_wf {s t : State} (h : Memory.wf s) (e : step s = .next t) : Memory.wf t := by
  rcases step_cases s with ⟨-, e'⟩ | ⟨act, rest, -, e'⟩
  · obtain rfl := Host.Outcome.next.inj (e.symm.trans e')
    exact h
  · exact perform_keeps_wf (s := withHost rest s) h (e'.symm.trans e)

end Sys2Proof.Machine
end

