-- ==== Sys2Proof/Laws/Numerics.lean ====
section
/-! SUPPORT. The fields of the complex operations, and what unary minus and the rate test say of the bits of a word. -/

namespace Sys2Proof.Machine

variable {V : Type} (num : Num V)

@[simp] theorem Cx.add_re (a b : Cx V) : (Cx.add num a b).re = num.add a.re b.re := rfl
@[simp] theorem Cx.add_im (a b : Cx V) : (Cx.add num a b).im = num.add a.im b.im := rfl
@[simp] theorem Cx.sub_re (a b : Cx V) : (Cx.sub num a b).re = num.sub a.re b.re := rfl
@[simp] theorem Cx.sub_im (a b : Cx V) : (Cx.sub num a b).im = num.sub a.im b.im := rfl
@[simp] theorem Cx.mul_re (a b : Cx V) :
    (Cx.mul num a b).re = num.sub (num.mul a.re b.re) (num.mul a.im b.im) := rfl
@[simp] theorem Cx.mul_im (a b : Cx V) :
    (Cx.mul num a b).im = num.add (num.mul a.re b.im) (num.mul a.im b.re) := rfl
@[simp] theorem Cx.divBy_re (a : Cx V) (s : V) : (Cx.divBy num a s).re = num.div a.re s := rfl
@[simp] theorem Cx.divBy_im (a : Cx V) (s : V) : (Cx.divBy num a s).im = num.div a.im s := rfl
@[simp] theorem Cx.scale_re (s : V) (a : Cx V) : (Cx.scale num s a).re = num.mul s a.re := rfl
@[simp] theorem Cx.scale_im (s : V) (a : Cx V) : (Cx.scale num s a).im = num.mul s a.im := rfl
@[simp] theorem Cx.timesI_re (a : Cx V) : (Cx.timesI num a).re = num.neg a.im := rfl
@[simp] theorem Cx.timesI_im (a : Cx V) : (Cx.timesI num a).im = a.re := rfl
@[simp] theorem Cx.conj_re (a : Cx V) : (Cx.conj num a).re = a.re := rfl
@[simp] theorem Cx.conj_im (a : Cx V) : (Cx.conj num a).im = num.neg a.im := rfl

/-- The rate test on the bits: sign 0, exponent field not all ones, not the zero word. -/
theorem isLegalRate_iff (w : Word) : isLegalRate w = true ↔ bits w 31 31 = 0 ∧ bits w 30 23 ≠ 255 ∧ w ≠ 0 := by
  have hz : w ≠ 0 ↔ w.toNat ≠ 0 := by simp [BitVec.toNat_eq]
  have hlt := w.isLt
  rw [hz]
  unfold isLegalRate f32 bits
  split_ifs <;> simp <;> omega

/-- The zero test on the bits: every bit but the sign is 0. -/
theorem isZeroWord_iff (w : Word) : isZeroWord w = true ↔ bits w 30 0 = 0 := by
  have hlt := w.isLt
  unfold isZeroWord f32 bits
  split_ifs <;> simp <;> omega

end Sys2Proof.Machine
end

