-- ==== Sys2Proof/Laws/PerInstr.lean ====
section
/-! SUPPORT. A statement per instruction: the encoded word carries the instruction's opcode in bits 31:24, and every bit its
format says must be zero is zero (30_encoding.md R90, R91, R93). -/

namespace Sys2Proof.Laws.OpcodeField

/-- The opcode of an instruction (30_encoding.md R93). -/
def opcode : Instr → Nat
  | .cfftF     => 0x01
  | .cfftI     => 0x02
  | .rfft      => 0x03
  | .irfft     => 0x04
  | .analyze _ => 0x10
  | .resynth _ => 0x20
  | .reset     => 0x30

/-- The encoded word of a well-formed instruction has its opcode in bits 31:24 and no reserved bit set. -/
def Statement (i : Instr) : Prop :=
  i.wellFormed = true →
    bits (encode i) 31 24 = opcode i ∧ ∃ f, formatOf (opcode i) = some f ∧ reservedSet f (encode i) = false

theorem cfftF : Statement .cfftF := fun _ => ⟨by decide, .z, by decide, by decide⟩

theorem cfftI : Statement .cfftI := fun _ => ⟨by decide, .z, by decide, by decide⟩

theorem rfft : Statement .rfft := fun _ => ⟨by decide, .z, by decide, by decide⟩

theorem irfft : Statement .irfft := fun _ => ⟨by decide, .z, by decide, by decide⟩

theorem analyze (len : Nat) : Statement (.analyze len) := by
  intro h
  have h' : len < 2 ^ 24 := by simpa [Instr.wellFormed] using h
  refine ⟨?_, .l, rfl, rfl⟩
  simp only [bits, encode, wordOf, opcode, BitVec.toNat_ofNat]
  omega

theorem resynth (src : Source) : Statement (.resynth src) := by
  cases src <;> exact fun _ => ⟨by decide, .s, by decide, by decide⟩

theorem reset : Statement .reset := fun _ => ⟨by decide, .z, by decide, by decide⟩

end Sys2Proof.Laws.OpcodeField
end

