-- ==== Sys2Proof/Tests/Slice0.lean ====
section
/-! SUPPORT. Tests with results from spec/95_test_vectors.md and the encoding tables, and one witness for the hypotheses of
every statement. -/

set_option Elab.async false

namespace Sys2Proof.Tests

open Sys2Proof Sys2Proof.Machine

/-! ## Helpers -/

/-- The outcome is a next state that passes the check. -/
def nextSat (r : Result) (p : State → Bool) : Bool :=
  match r with
  | .next t => p t
  | _ => false

theorem exists_of_nextSat {r : Result} {p : State → Bool} (h : nextSat r p = true) : ∃ t, r = .next t ∧ p t = true := by
  cases r with
  | next t => exact ⟨t, rfl, h⟩
  | fault _ => cases h
  | refused _ => cases h

/-- `State.reset` with the host's actions. -/
def resetWith (acts : List HostAction) : State := withHost acts State.reset

/-- `State.reset` with an error pending. -/
def errState (acts : List HostAction) : State := raise .badRate 0x30000000#32 (resetWith acts)

/-! ## Decoding, well-formedness (30_encoding.md R90 to R94) -/

theorem test_decode_cfftF : decode 0b00000001_00000000_00000000_00000000#32 = .ok .cfftF := by decide
theorem test_decode_cfftI : decode 0b00000010_00000000_00000000_00000000#32 = .ok .cfftI := by decide
theorem test_decode_rfft : decode 0b00000011_00000000_00000000_00000000#32 = .ok .rfft := by decide
theorem test_decode_irfft : decode 0b00000100_00000000_00000000_00000000#32 = .ok .irfft := by decide
theorem test_decode_analyze : decode 0b00010000_10000000_00000000_00000010#32 = .ok (.analyze 8388610) := by decide
theorem test_decode_resynth_a : decode 0b00100000_00000000_00000000_00000000#32 = .ok (.resynth .frame) := by decide
theorem test_decode_resynth_x : decode 0b00100000_00000000_00000000_00000001#32 = .ok (.resynth .xf) := by decide
theorem test_decode_reset : decode 0b00110000_00000000_00000000_00000000#32 = .ok .reset := by decide

/-- 95_test_vectors.md 2.7. -/
theorem test_decode_rejects :
    [0x00000000#32, 0x05000000#32, 0xFF000000#32, 0x11000000#32].all (decode · = .error .illegalOpcode) = true ∧
    [0x01000001#32, 0x03800000#32, 0x20000002#32, 0x20000100#32, 0x30000001#32].all
      (decode · = .error .reservedField) = true := by decide

theorem test_decodeTableWord : decodeTableWord 32 0x20000001 = some (.resynth .xf) ∧ decodeTableWord 32 0x20000003 = none := by
  decide

/-- R92: `len` has 24 bits. -/
theorem test_wellFormed_refuses : (Instr.analyze 16777216).wellFormed = false ∧ (Instr.analyze 16777215).wellFormed = true := by
  decide

/-- R97. -/
theorem test_asmText : asmText (.analyze 2) = "ANALYZE 2" ∧ asmText (.resynth .xf) = "RESYNTH X" := by decide

/-! ## The address map (20_memory.md R62) and construction (00_scope.md R6) -/

/-- Addresses of 95_test_vectors.md S2, P1, P4. -/
theorem test_addresses : addrOf (.xf 0 false) = 0x400000#24 ∧ addrOf (.xf 1 true) = 0x400003#24 ∧
    addrOf (.xf 2 true) = 0x400005#24 ∧ addrOf (.sout 1) = 0x200001#24 ∧ locate t4 0x100008#24 = none ∧
    locate t4 0xA00000#24 = none ∧ locate t4 0x000012#24 = none := by decide

theorem test_construct : construct 3 2 2 0x40800000 t4.wa t4.ws .inv 8 = some t4 ∧
    construct 3 3 2 0x40800000 t4.wa t4.ws .inv 8 = none ∧ construct 1 1 2 0x40800000 [0] [0] .inv 8 = none ∧
    construct 3 2 2 0x80000000 t4.wa t4.ws .inv 8 = none := by decide +kernel

/-! ## Steps in the configuration T4 (95_test_vectors.md 2.5 to 2.7, P4); integer state and words only -/

theorem test_step_discards_while_err :
    nextSat (step (errState [wordAction 0x10000002#32]))
      (fun t => t.err ∧ t.errcode = 4 ∧ t.errcmd = 0x30000000#32 ∧ t.an.fcnt = 0 ∧ t.an.pos = 0) = true := by decide +kernel

theorem test_step_clears_error :
    nextSat (step (errState clrErr)) (fun t => !t.err ∧ t.errcode = 0 ∧ t.errcmd = 0) = true ∧
    nextSat (step (errState [.write 0x000001#24 0xFFFFFFFD#32])) (fun t => t.err ∧ t.errcode = 4) = true := by decide +kernel

theorem test_step_illegal_word : nextSat (step (resetWith [wordAction 0x05000000#32]))
    (fun t => t.err ∧ t.errcode = 1 ∧ t.errcmd = 0x05000000#32) = true := by decide +kernel

/-- A5, A1, A2: the integer state. -/
theorem test_analyze_counts :
    nextSat (step (State.reset.withFetchWord 32 0x10000009))
      (fun t => t.err ∧ t.errcode = 3 ∧ t.errcmd = 0x10000009#32 ∧ t.an.pos = 0 ∧ t.an.fcnt = 0) = true ∧
    nextSat (step (State.reset.withFetchWord 32 0x10000008)) (fun t => t.an.fcnt = 4 ∧ t.an.hnum = 0 ∧ t.an.pos = 0) = true ∧
    nextSat (step (State.reset.withFetchWord 32 0x10000001)) (fun t => t.an.fcnt = 0 ∧ t.an.hnum = 0 ∧ t.an.pos = 1) = true := by
  decide +kernel

/-- S1, S7: the counters. -/
theorem test_resynth_counts :
    nextSat (step (State.reset.withFetchWord 32 0x20000000)) (fun t => t.rs.rcnt = [0, 2] ∧ !t.err) = true ∧
    nextSat (step (State.reset.withFetchWord 32 0x20000100)) (fun t => t.rs.rcnt = [2, 0] ∧ t.errcode = 2) = true := by
  decide +kernel

/-- 2.7: a rate that RESET takes and rates it refuses. -/
theorem test_reset_rates :
    nextSat (step { resetWith [issueAction .reset] with arg := 0x472C4400#32 })
      (fun t => t.rates.srate = 0x472C4400#32 ∧ !t.err) = true ∧
    [0xBF800000#32, 0x00000000#32, 0x7FC00000#32, 0x7F800000#32].all (fun v =>
      nextSat (step { resetWith [issueAction .reset] with arg := v }) (fun t => t.rates.srate = 0x40800000#32 ∧
        t.errcode = 4 ∧ t.errcmd = 0x30000000#32)) = true := by decide +kernel

/-- P4: HostFault, and the words read. -/
theorem test_host_faults :
    [HostAction.write 0x000005#24 0, .write 0x200000#24 0x3F800000#32, .read 0xA00000#24, .read 0x100008#24].all
      (fun a => nextSat (step (resetWith [a])) (fun t => t.response = .hostFault ∧ !t.err)) = true ∧
    nextSat (step (resetWith [.read 0x000008#24])) (fun t => t.response = .word 0x40800000#32) = true ∧
    nextSat (step (resetWith [.read 0x000011#24])) (fun t => t.response = .word 1#32) = true := by decide +kernel

/-- R62 and 95_test_vectors.md S2: the host writes the two words of a bin, amplitude in the even one. -/
theorem test_pair_words :
    nextSat (step (resetWith [.write 0x400002#24 0x40000000#32])) (fun t => binAt num t.xf 1 = ⟨0x40000000#32, 0⟩) = true ∧
    nextSat (step (resetWith [.write 0x400003#24 0x3F800000#32])) (fun t => binAt num t.xf 1 = ⟨0, 0x3F800000#32⟩) = true ∧
    nextSat (step (resetWith [.write 0x700001#24 0x3F800000#32])) (fun t => cxAt num t.cb 0 = ⟨0, 0x3F800000#32⟩) = true := by
  decide +kernel

/-! ## Values, by exact numerics over a + b√2 with angles in half turns (pi is 1) -/

/-- The number `rat + surd × √2`. -/
structure Surd where
  rat  : ℚ
  surd : ℚ
deriving DecidableEq, Repr

/-- A rational number. -/
def q (r : ℚ) : Surd := ⟨r, 0⟩

/-- `cos` of an angle of `e` eighth turns, e in 0..7. -/
def cosEighth (e : Nat) : Surd :=
  [q 1, ⟨0, 1/2⟩, q 0, ⟨0, -1/2⟩, q (-1), ⟨0, -1/2⟩, q 0, ⟨0, 1/2⟩].getD e (q 0)

/-- An angle in half turns, a multiple of 1/4, as eighth turns in 0..7. -/
def eighths (x : Surd) : Nat := ((x.rat * 4).floor % 8).toNat

/-- The square root of a natural number that is a square. -/
def rootNat (n : Nat) : Nat := ((List.range (n + 1)).find? fun k => k * k = n).getD 0

/-- The square root of a rational that is a square or twice a square. -/
def rootSurd (x : ℚ) : Surd :=
  let r : ℚ := rootNat x.num.natAbs / rootNat x.den
  if r * r = x then q r
  else ⟨0, rootNat (x / 2).num.natAbs / rootNat (x / 2).den⟩

/-- The angle of a point on an axis or a diagonal, in half turns. -/
def angle (im re : ℚ) : ℚ :=
  if im = 0 then (if re < 0 then 1 else 0)
  else if re = 0 then (if im < 0 then -1/2 else 1/2)
  else if 0 < re then (if im < 0 then -1/4 else 1/4)
  else (if im < 0 then -3/4 else 3/4)

/-- Exact numerics for the vectors whose angles are multiples of an eighth turn. -/
def halfTurns : Num Surd where
  ofNat  := fun n => q n
  half   := q (1/2)
  pi     := q 1
  add    := fun a b => ⟨a.rat + b.rat, a.surd + b.surd⟩
  sub    := fun a b => ⟨a.rat - b.rat, a.surd - b.surd⟩
  mul    := fun a b => ⟨a.rat * b.rat + 2 * a.surd * b.surd, a.rat * b.surd + a.surd * b.rat⟩
  div    := fun a b => ⟨a.rat / b.rat, a.surd / b.rat⟩
  neg    := fun a => ⟨-a.rat, -a.surd⟩
  sqrt   := fun a => rootSurd a.rat
  cos    := fun x => cosEighth (eighths x)
  sin    := fun x => cosEighth ((eighths x + 6) % 8)
  ceil   := fun a => q a.rat.ceil
  atan2  := fun im re => q (angle im.rat re.rat)
  isZero := fun a => a = q 0

/-- A complex value with rational parts. -/
def cq (re im : ℚ) : Cx Surd := ⟨q re, q im⟩

/-- A bin with rational parts. -/
def bq (amp freq : ℚ) : Bin Surd := ⟨q amp, q freq⟩

/-- N = 4, H = 2 (T4), with a normalisation and a VS. -/
def cfg4 (norm : Norm) (vs : Nat) : Config Surd := ⟨4, 2, vs, 8, q 4, List.replicate 4 (q 1), List.replicate 4 (q (1/2)), norm⟩

/-- N = 8, H = 2 (T8). -/
def cfg8 (norm : Norm) : Config Surd := ⟨8, 2, 2, 16, q 8, List.replicate 8 (q 1), List.replicate 8 (q (1/4)), norm⟩

/-- An engine with the given RB and SP. -/
def engine (rb : List Surd) (sp : List (Cx Surd)) : Engine Surd := ⟨rb, sp, []⟩

/-- 2.2: N = 4, and the impulse at index 1 for N = 8. -/
theorem test_cfftF_values :
    cfft halfTurns (cfg4 .inv 2) .forward [cq 1 0, cq 2 0, cq 3 0, cq 4 0] = [cq 10 0, cq (-2) 2, cq (-2) 0, cq (-2) (-2)] ∧
    cfft halfTurns (cfg4 .fwd 2) .forward [cq 1 0, cq 2 0, cq 3 0, cq 4 0] =
      [cq (5/2) 0, cq (-1/2) (1/2), cq (-1/2) 0, cq (-1/2) (-1/2)] ∧
    cfft halfTurns (cfg8 .inv) .forward ([cq 0 0, cq 1 0] ++ List.replicate 6 (cq 0 0)) =
      [cq 1 0, ⟨⟨0, 1/2⟩, ⟨0, -1/2⟩⟩, cq 0 (-1), ⟨⟨0, -1/2⟩, ⟨0, -1/2⟩⟩, cq (-1) 0, ⟨⟨0, -1/2⟩, ⟨0, 1/2⟩⟩, cq 0 1,
        ⟨⟨0, 1/2⟩, ⟨0, 1/2⟩⟩] := by decide +kernel

/-- 2.2. -/
theorem test_cfftI_values :
    cfft halfTurns (cfg4 .inv 2) .inverse [cq 1 0, cq 2 0, cq 3 0, cq 4 0] =
      [cq (5/2) 0, cq (-1/2) (-1/2), cq (-1/2) 0, cq (-1/2) (1/2)] ∧
    cfft halfTurns (cfg4 .fwd 2) .inverse [cq 1 0, cq 2 0, cq 3 0, cq 4 0] =
      [cq 10 0, cq (-2) (-2), cq (-2) 0, cq (-2) 2] := by decide +kernel

/-- 2.3: N = 2, N = 4 and N = 8. -/
theorem test_rfft_values :
    rfft halfTurns ⟨2, 1, 1, 1, q 1, [], [], .fwd⟩ (engine [q 3, q 5] []) =
      ⟨[q 3, q 5], [cq 4 0, cq (-1) 0], [cq 4 (-1)]⟩ ∧
    rfft halfTurns (cfg4 .inv 2) (engine [q 1, q 2, q 3, q 4] []) =
      ⟨[q 1, q 2, q 3, q 4], [cq 10 0, cq (-2) 2, cq (-2) 0], [cq 10 (-2), cq (-2) 2]⟩ ∧
    (rfft halfTurns (cfg8 .inv) (engine ([q 0, q 1] ++ List.replicate 6 (q 0)) [])).sp =
      [cq 1 0, ⟨⟨0, 1/2⟩, ⟨0, -1/2⟩⟩, cq 0 (-1), ⟨⟨0, -1/2⟩, ⟨0, -1/2⟩⟩, cq (-1) 0] := by decide +kernel

/-- 2.4: N = 2, N = 4 and N = 8. -/
theorem test_irfft_values :
    irfft halfTurns ⟨2, 1, 1, 1, q 1, [], [], .fwd⟩ (engine [] [cq 4 0, cq (-1) 0]) =
      ⟨[q 3, q 5], [cq 4 0, cq (-1) 0], [cq (3/2) (5/2)]⟩ ∧
    irfft halfTurns (cfg4 .inv 2) (engine [] [cq 10 0, cq (-2) 2, cq (-2) 0]) =
      ⟨[q 1, q 2, q 3, q 4], [cq 10 0, cq (-2) 2, cq (-2) 0], [cq 2 4, cq 6 8]⟩ ∧
    (irfft halfTurns (cfg8 .inv) (engine [] [cq 0 0, cq 0 4, cq 0 0, cq 0 0, cq 0 0])).rb =
      [q 0, ⟨0, -1/2⟩, q (-1), ⟨0, -1/2⟩, q 0, ⟨0, 1/2⟩, q 1, ⟨0, 1/2⟩] := by decide +kernel

/-- The analyzer and the engine of T4 after chunks, each from SIN. -/
def fed (chunks : List (List Surd)) : Analyzer Surd × Engine Surd :=
  chunks.foldl (fun p c => analyze halfTurns (cfg4 .inv 2) (ratesOf halfTurns (cfg4 .inv 2) (q 4)) c c.length p)
    (Analyzer.resetOf halfTurns (cfg4 .inv 2), Engine.resetOf halfTurns (cfg4 .inv 2))

/-- A1, both hops. -/
theorem test_analyze_values :
    fed [[q 1, q 0], [q 0, q 1]] =
      (⟨[q 1, q 0, q 0, q 1], 0, 0, [q 0, q (1/4), q 0], [bq 2 0, ⟨⟨0, 1⟩, q (5/4)⟩, bq 0 2], 2⟩,
       ⟨[q 1, q 0, q 0, q 1], [cq 2 0, cq 1 1, cq 0 0], [cq 2 0, cq 1 1]⟩) := by decide +kernel

/-- P3, the first ANALYZE, and A3 in chunks of 5 and 1. -/
theorem test_analyze_values_2 :
    (fed [[q 0, q 1]]).1.frame = [bq 1 0, bq 1 (1/2), bq 1 3] ∧ (fed [[q 0, q 1]]).1.pph = [q 0, q (-1/2), q 1] ∧
    (fed [[q 1, q 0, q 0, q 1, q 2], [q (-1)]]).1 =
      ⟨[q 2, q (-1), q 0, q 1], 1, 0, [q 0, q (1/4), q 0], [bq 2 0, ⟨⟨0, 2⟩, q 1⟩, bq 2 2], 3⟩ := by decide +kernel

/-- The resynthesizer and the engine of T4 after `n` commands from the frame `f`. -/
def played (vs : Nat) (f : List (Bin Surd)) (n : Nat) : Resynth Surd × Engine Surd :=
  forTo n (fun _ p => resynthesize halfTurns (cfg4 .inv vs) (ratesOf halfTurns (cfg4 .inv vs) (q 4)) f p)
    (Resynth.resetOf halfTurns (cfg4 .inv vs), Engine.resetOf halfTurns (cfg4 .inv vs))

/-- S3, call 3. -/
theorem test_resynth_values :
    played 2 [bq 0 0, bq 2 (3/2), bq 0 2] 3 =
      (⟨[[q 0, q (-1/2), q 0, q (1/2)], [q (-1/2), q 0, q (1/2), q 0]], [0, 2], [q 0, q (-1/2), q 0], [q (-1/2), q (-1/2)]⟩,
       ⟨[q 0, q 1, q 0, q (-1)], [cq 0 0, cq 0 (-2), cq 0 0], [cq 0 2, cq 0 (-2)]⟩) := by decide +kernel

/-- S1 and the first command of S4. -/
theorem test_resynth_values_2 :
    (played 2 (List.replicate 3 (bq 0 0)) 1).1.phs = [q 0, q 1, q 0] ∧
    (played 5 [bq 4 0, bq 0 1, bq 0 2] 1).1.sout = [q 0, q 0, q (1/2), q (1/2), q 1] ∧
    (played 5 [bq 4 0, bq 0 1, bq 0 2] 1).1.rcnt = [3, 1] := by decide +kernel

/-- 2.1: `wrap` at π, -π, 3π/2, -3π/2, 2π and 3π. -/
theorem test_wrap_values :
    [1, -1, 3/2, -3/2, 2, 3].map (fun r => wrap halfTurns (q r)) = [1, 1, -1/2, 1/2, 0, 1].map q := by decide +kernel

/-- 20_memory.md R61 and the list of words of 95_test_vectors.md: -1 and -1/2 as the rules write them, and values of words. -/
theorem test_negative_words : num.neg (num.ofNat 1) = 0xBF800000#32 ∧ num.neg num.half = 0xBF000000#32 ∧
    [0x3F000000#32, 0xC0000000#32, 0x3E000000#32, 0x41200000#32].map (fun w => valueOf (f32 w)) =
      [some (1/2), some (-2), some (1/8), some 10] ∧ valueOf (f32 0x7FC00000#32) = none := by decide +kernel

/-- 00_scope.md R13: `s × a` and `i × a`. -/
theorem test_complex_values : Cx.scale halfTurns (q 3) (cq 1 (-2)) = cq 3 (-6) ∧ Cx.timesI halfTurns (cq 1 (-2)) = cq 2 1 := by
  decide +kernel

/-- 20_memory.md R61: words of integers, from 95_test_vectors.md. -/
theorem test_wordOfNat : [0, 1, 2, 3, 5, 18, 36, 44100].map wordOfNat =
    [0x00000000#32, 0x3F800000#32, 0x40000000#32, 0x40400000#32, 0x40A00000#32, 0x41900000#32, 0x42100000#32, 0x472C4400#32] := by
  decide +kernel

/-! ## Witnesses: concrete states and operands that meet the hypotheses of the statements, clause by clause -/

/-- `State.reset` in the middle of a command. -/
def busyState (acts : List HostAction) : State := setBusy true (resetWith acts)

/-- N = 4, H = 2, VS = 1. -/
def cfgVs1 : Config Word := { t4 with vs := 1 }

/-- N = 2, H = 1: the smallest transform, M = 1. -/
def cfgN2 : Config Word := ⟨2, 1, 1, 1, 0x40800000, [0, 0], [0, 0], .fwd⟩

/-- N = 2^19, the largest transform; the windows are not written out. -/
def cfgMax : Config Word :=
  ⟨2 ^ 19, 1, 2 ^ 20, 2 ^ 20, 0x7F7FFFFF, List.replicate (2 ^ 19) 0, List.replicate (2 ^ 19) 0, .inv⟩

theorem witness_DecodeOfEncode : (Instr.analyze 0).wellFormed = true ∧ (Instr.analyze 16777215).wellFormed = true ∧
    (Instr.resynth .xf).wellFormed = true := by decide

theorem witness_EncodeOfDecode : decode 0x10FFFFFF#32 = .ok (.analyze 16777215) ∧ decode 0x20000001#32 = .ok (.resynth .xf) := by
  decide

theorem witness_StepRunsDecodedCommand :
    let s := resetWith [.write 0x000000#24 0x03000000#32]
    s.busy = false ∧ s.err = false ∧ s.host = .write 0x000000#24 0x03000000#32 :: [] ∧
      decode 0x03000000#32 = .ok .rfft := by decide

theorem witness_UndecodableWordRecorded :
    (∀ w, (resetWith [.write 0x000000#24 w]).busy = false ∧ (resetWith [.write 0x000000#24 w]).err = false ∧
      (resetWith [.write 0x000000#24 w]).host = .write 0x000000#24 w :: []) ∧
    decode 0x31000000#32 = .error .illegalOpcode ∧ decode 0x20FFFFFE#32 = .error .reservedField :=
  ⟨fun _ => ⟨rfl, rfl, rfl⟩, by decide, by decide⟩

theorem witness_CommandDiscardedWhileErr :
    (∀ acts, (errState acts).busy = false ∧ (errState acts).err = true ∧ (errState acts).host = acts) ∧
    (0x000000#24 : Addr) ≠ 0x000001#24 ∧ locate (errState []).cfg 0x000001#24 = some (.csr .status) ∧
    readOnly (.csr .status) = false ∧ (0x000001#24 : Addr) ≠ 0x000000#24 :=
  ⟨fun _ => ⟨rfl, rfl, rfl⟩, by decide, by decide, by decide, by decide⟩

theorem witness_ErrorClearedByStatusWrite :
    (∀ w, (errState [.write 0x000001#24 w]).busy = false ∧
      (errState [.write 0x000001#24 w]).host = .write 0x000001#24 w :: []) ∧
    (0x00000002#32).getLsbD 1 = true ∧ (0xFFFFFFFD#32).getLsbD 1 = false ∧
    ErrorRegistersAgree (resetWith [.write 0x000001#24 2#32]) ∧ (resetWith [.write 0x000001#24 2#32]).err = false :=
  ⟨fun _ => ⟨rfl, rfl⟩, by decide, by decide, by decide, rfl⟩

theorem witness_ErrorsArePrecise :
    let s := resetWith [.write 0x000000#24 0x10000009#32]
    s.busy = false ∧ s.err = false ∧ ∃ t, step s = .next t ∧ t.err = true :=
  ⟨rfl, rfl, exists_of_nextSat (p := fun t => t.err) (by decide +kernel)⟩

theorem witness_OnlyTheseEventsChangeErr :
    (∃ t, step (resetWith [.write 0x000000#24 0x05000000#32]) = .next t ∧ t.err ≠ false) ∧
    (∃ t, step (errState [.write 0x000001#24 2#32]) = .next t ∧ t.err ≠ true) ∧
    ∃ t, step (errState [.hardwareReset]) = .next t ∧ t.err ≠ true :=
  ⟨⟨_, rfl, by decide⟩, ⟨_, rfl, by decide⟩, ⟨_, rfl, by decide⟩⟩

theorem witness_ReservedFieldBeforeBadRate :
    let s := resetWith [.write 0x000000#24 0x30000001#32]
    s.busy = false ∧ s.err = false ∧ s.host = .write 0x000000#24 0x30000001#32 :: [] ∧
      (0x30000001#32 >>> 24).toNat = 0x30 ∧ 0x30000001#32 &&& 0x00FFFFFF#32 ≠ 0 ∧ isLegalRate s.arg = false := by decide +kernel

theorem witness_EveryStepCompletes : State.reset.busy = false ∧ State.reset.host = [] := ⟨rfl, rfl⟩

theorem witness_HostAccessWhileBusyRefused :
    (∀ act, (busyState [act]).busy = true ∧ (busyState [act]).host = act :: []) ∧
    HostAction.read 0x000002#24 ≠ .read 0x000001#24 ∧ HostAction.read 0x000002#24 ≠ .hardwareReset :=
  ⟨fun _ => ⟨rfl, rfl⟩, by decide, by decide⟩

theorem witness_HostAddressMap : LegalConfig t4 ∧ LegalConfig cfgN2 ∧ existsLoc t4 (.frame 2 true) = true ∧
    existsLoc t4 (.cb 3 true) = true ∧ locate t4 0x300005#24 = some (.frame 2 true) ∧
    locate t4 0x700007#24 = some (.cb 3 true) := by decide +kernel

/-- The largest configuration is legal too. -/
theorem witness_HostAddressMap_max : LegalConfig cfgMax :=
  ⟨⟨⟨19, by decide, by decide, rfl⟩, by decide, by decide, rfl, by decide, by decide, by decide, by decide,
    List.length_replicate, List.length_replicate⟩, by decide +kernel⟩

theorem witness_UnmappedAccessAnsweredHostFault :
    (∀ act, (resetWith [act]).busy = false ∧ (resetWith [act]).host = act :: []) ∧
    [0x000012#24, 0x100008#24, 0x200002#24, 0x300006#24, 0x500004#24, 0x700008#24, 0xA00000#24, 0xFFFFFF#24].all
      (fun a => !decide (a.toNat % 2 ^ 20 < (regionSizes t4).getD (a.toNat / 2 ^ 20) 0)) = true :=
  ⟨fun _ => ⟨rfl, rfl⟩, by decide +kernel⟩

theorem witness_ReadOnlyWriteAnsweredHostFault :
    mapped t4 0x000002#24 ∧ mapped t4 0x000011#24 ∧ mapped t4 0x200001#24 ∧ mapped t4 0x300005#24 ∧ mapped t4 0x800000#24 ∧
      mapped t4 0x900003#24 ∧ (0x000002#24).toNat / 2 ^ 20 = 0 ∧ (0x000002#24).toNat ∉ [0x00, 0x01, 0x04] ∧
      (0x900003#24).toNat / 2 ^ 20 ∈ [0x2, 0x3, 0x8, 0x9] := by
  unfold mapped; decide +kernel

theorem witness_HostReadReturnsWordAndChangesNothing :
    (resetWith [.read 0x700007#24]).busy = false ∧ mapped t4 0x700007#24 ∧
      (resetWith [.read 0x700007#24]).host = .read 0x700007#24 :: [] ∧
      LegalConfig State.reset.cfg ∧ 7 < State.reset.cfg.chmax ∧ 1 < State.reset.cfg.vs ∧ 2 ≤ State.reset.cfg.n / 2 ∧
      3 < State.reset.cfg.n :=
  ⟨rfl, by unfold mapped; decide +kernel, rfl, by decide +kernel⟩

theorem witness_PlainStorageReadsBack :
    LegalConfig (resetWith []).cfg ∧ Memory.wf (resetWith []) ∧ mapped t4 0x000004#24 ∧ mapped t4 0x100007#24 ∧
      mapped t4 0x400005#24 ∧ mapped t4 0x500003#24 ∧ mapped t4 0x600005#24 ∧ mapped t4 0x700007#24 ∧
      [0x100007#24, 0x400005#24, 0x500003#24, 0x600005#24, 0x700007#24].all
        (fun a => a.toNat / 2 ^ 20 ∈ [0x1, 0x4, 0x5, 0x6, 0x7]) = true := by
  unfold mapped; decide +kernel

theorem witness_ConfigurationHardwired : (∃ t, step (resetWith [.read 0x000000#24]) = .next t) ∧
    0x0C ≤ (0x00000C#24).toNat ∧ (0x000011#24).toNat ≤ 0x11 ∧ (0x800003#24).toNat / 2 ^ 20 = 0x8 ∧
    (0x900003#24).toNat / 2 ^ 20 = 0x9 := ⟨⟨_, rfl⟩, by decide⟩

theorem witness_HardwareResetFromAnyState : (busyState [.hardwareReset]).host = .hardwareReset :: [] := rfl

theorem witness_ConstructRefusesOrYieldsLegal :
    ((∃ p, 4 = 2 ^ p) ∧ 3 ≤ 4 ∧ ∀ p, 3 ≤ 2 ^ p → 4 ≤ 2 ^ p) ∧
    ¬ (3 = 0 ∨ 4 < 2 ∨ 4 > 2 ^ 19 ∨ 2 = 0 ∨ 4 % 2 ≠ 0 ∨ t4.wa.length ≠ 4 ∨ t4.ws.length ≠ 4 ∨
      isLegalRate 0x40800000#32 = false ∨ 2 < 1 ∨ 2 > 2 ^ 20 ∨ 8 < 1 ∨ 8 > 2 ^ 20) ∧ 4 % 3 ≠ 0 := by
  refine ⟨⟨⟨2, rfl⟩, by decide, fun p hp => ?_⟩, by decide +kernel, by decide⟩
  match p, hp with
  | 0, hp => omega
  | 1, hp => omega
  | p + 2, _ => calc 4 = 2 ^ 2 := rfl
      _ ≤ 2 ^ (p + 2) := Nat.pow_le_pow_right (by decide) (by omega)

/-- A state that meets the invariant, with an error pending. -/
theorem witness_StepKeepsInvariant : Inv (errState [.write 0x000001#24 2#32]) ∧
    ∃ t, step (errState [.write 0x000001#24 2#32]) = .next t :=
  ⟨⟨by decide +kernel, resetOf_wf t4, by decide, by decide, ⟨0, by decide, by decide⟩, rfl, by decide, by decide +kernel, rfl⟩,
    _, rfl⟩

theorem witness_ResetMeetsInvariant : LegalConfig t4 ∧ LegalConfig cfgVs1 ∧ LegalConfig cfgN2 := by decide +kernel

/-- Two states with one control part and different samples. -/
theorem witness_ControlIndependentOfValues :
    let s := resetWith [.write 0x000000#24 0x10000002#32]
    let u := { s with sin := [1, 2, 3, 4, 5, 6, 7, 8] }
    control s = control u ∧ s.sin ≠ u.sin ∧ ∃ t, step s = .next t := ⟨rfl, by decide, _, rfl⟩

theorem witness_FrameCounterMovedByAnalyzeOnly :
    (∃ t, step (resetWith [.write 0x000000#24 0x10000002#32]) = .next t ∧ t.an.fcnt ≠ 0) ∧
    ∃ t, step { resetWith [.hardwareReset] with an := { State.reset.an with fcnt := 7 } } = .next t ∧ t.an.fcnt ≠ 7 := by
  obtain ⟨t, h, ht⟩ := exists_of_nextSat (r := step (resetWith [.write 0x000000#24 0x10000002#32]))
    (p := fun t => t.an.fcnt = 1) (by decide +kernel)
  exact ⟨⟨t, h, by simp_all⟩, ⟨_, rfl, by decide⟩⟩

theorem witness_CommandsWriteOnlyTheirOwn : (∃ t, exec .cfftF State.reset = .next t) ∧ (∃ t, exec .cfftI State.reset = .next t) ∧
    (∃ t, exec .rfft State.reset = .next t) ∧ (∃ t, exec .irfft State.reset = .next t) ∧
    (∃ t, exec (.analyze 9) State.reset = .next t) ∧ (∃ t, exec (.resynth .xf) State.reset = .next t) ∧
    ∃ t, exec .reset State.reset = .next t := ⟨⟨_, rfl⟩, ⟨_, rfl⟩, ⟨_, rfl⟩, ⟨_, rfl⟩, ⟨_, rfl⟩, ⟨_, rfl⟩, ⟨_, rfl⟩⟩

theorem witness_CommandsLeaveOtherLocations : (∃ t, exec (.analyze 8) State.reset = .next t) ∧ 8 ≤ State.reset.cfg.chmax ∧
    (∃ t, exec .reset { State.reset with arg := 0x41000000 } = .next t) ∧ isLegalRate 0x41000000#32 = true ∧
    regionOf 0x500000#24 ≠ 0x7 ∧ (0x000004#24).toNat ∉ [0x05, 0x06, 0x07] :=
  ⟨⟨_, rfl⟩, by decide, ⟨_, rfl⟩, by decide +kernel, by decide, by decide⟩

/-- The smallest and the largest legal rate, and the edges outside: zero of both signs, infinity, a negative value. -/
theorem witness_ResetCommandSetsRates :
    let legal := fun sr : Word => sr.getLsbD 31 = false ∧ sr.toNat / 2 ^ 23 % 2 ^ 8 ≠ 255 ∧ sr ≠ 0
    legal 0x00000001#32 ∧ legal 0x7F7FFFFF#32 ∧ ¬ legal 0x00000000#32 ∧ ¬ legal 0x80000000#32 ∧ ¬ legal 0x7F800000#32 ∧
      ¬ legal 0x80000001#32 := by decide +kernel

/-- The ends of the integer range, a word that is not a NaN, and the least and the greatest finite values other than zero. -/
theorem witness_IntegerConversionExact : 0 < 16777215 ∧ 16777215 < 2 ^ 24 ∧ 0 < 1 ∧ 1 < 2 ^ 24 ∧
    f32 0x80000000#32 = .finite true 0 (-149) ∧ f32 0xFF800000#32 = .infinite true ∧
    f32 0x00000001#32 = .finite false 1 (-149) ∧ f32 0xFF7FFFFF#32 = .finite true 16777215 104 := by decide +kernel

theorem witness_SetRatePseudoInstruction : let s := resetWith (setRate 0x41000000#32)
    s.busy = false ∧ s.err = false ∧ isLegalRate 0x41000000#32 = true ∧ s.host = setRate 0x41000000#32 ++ [] := by
  decide +kernel

theorem witness_AnalyzeTooLongRaises : decode 0x10000009#32 = .ok (.analyze 9) ∧ State.reset.cfg.chmax < 9 := by decide

/-- No sample, and CHMAX samples. -/
theorem witness_AnalyzeCountsHops : LegalConfig State.reset.cfg ∧ State.reset.an.pos < State.reset.cfg.h ∧
    State.reset.an.hnum < State.reset.cfg.dm ∧ 0 ≤ State.reset.cfg.chmax ∧ 8 ≤ State.reset.cfg.chmax := by decide +kernel

/-- A chunk longer than the ring, its first surviving and its last sample, and a place that one sample does not reach. -/
theorem witness_AnalyzeStoresEverySample : LegalConfig State.reset.cfg ∧ Memory.wf State.reset ∧
    State.reset.an.pos < State.reset.cfg.h ∧ State.reset.an.hnum < State.reset.cfg.dm ∧ 8 ≤ State.reset.cfg.chmax ∧
    (4 < 8 ∧ 8 ≤ 4 + State.reset.cfg.n) ∧ (7 < 8 ∧ 8 ≤ 7 + State.reset.cfg.n) ∧
    3 < State.reset.cfg.n ∧ ∀ q < 1, (State.reset.an.hnum * State.reset.cfg.h + State.reset.an.pos + q) % State.reset.cfg.n ≠ 3 := by
  decide +kernel

theorem witness_AnalyzeShortChunkNoFrame : LegalConfig State.reset.cfg ∧ Memory.wf State.reset ∧
    State.reset.an.hnum < State.reset.cfg.dm ∧ 1 ≤ State.reset.cfg.chmax ∧ State.reset.an.pos + 1 < State.reset.cfg.h ∧
    State.reset.an.hnum * State.reset.cfg.h + State.reset.an.pos + 1 ≤ 1 := by decide +kernel

theorem witness_HopCompletionResult : LegalConfig State.reset.cfg ∧ Memory.wf State.reset ∧
    State.reset.an.hnum < State.reset.cfg.dm ∧ 2 ≤ State.reset.cfg.chmax ∧ 0 < 2 ∧
    State.reset.an.pos + 2 = State.reset.cfg.h := by decide +kernel

theorem witness_ChunkingInvariance : LegalConfig State.reset.cfg ∧ State.reset.an.pos < State.reset.cfg.h ∧
    ([[1#32, 2#32], [], [3#32, 4#32, 5#32, 6#32, 7#32], [8#32]] : List (List Word)).flatten.length ≤ State.reset.cfg.chmax := by
  decide +kernel

theorem witness_ResynthAdvancesCounters : LegalConfig t4 ∧ State.reset.rs.rcnt = counterPattern State.reset.cfg 4 := by
  decide +kernel

/-- T = 0 (no refresh) and T = 1 (a refresh) in T4, for the exact numerics. -/
theorem witness_OutputSampleSumsAndRotates : LegalGeometry (cfg4 .inv 2) ∧
    (played 2 [] 0).1.rcnt = counterPattern (cfg4 .inv 2) 0 ∧ (0 + 1) % (cfg4 .inv 2).h ≠ 0 ∧
    (played 2 [] 3).1.rcnt = counterPattern (cfg4 .inv 2) 6 ∧
    (setCounter 0 3 (setCounter 1 1 (played 2 [] 0).1)).rcnt = counterPattern (cfg4 .inv 2) 1 ∧ (1 + 1) % (cfg4 .inv 2).h = 0 := by
  decide +kernel

theorem witness_RefreshResult : LegalGeometry (cfg4 .inv 2) ∧ 1 < (cfg4 .inv 2).dm ∧
    (played 2 [] 0).1.ob.length = (cfg4 .inv 2).dm ∧ (played 2 [] 0).1.phs.length = (cfg4 .inv 2).nb ∧
    (played 2 [] 0).2.sp.length = (cfg4 .inv 2).nb := by decide +kernel

theorem witness_ResynthWithoutRefresh : let s := State.resetOf cfgVs1
    LegalConfig s.cfg ∧ Memory.wf s ∧ ∀ b < s.cfg.dm, counterAt s.rs b + s.cfg.vs < s.cfg.n := by decide +kernel

theorem witness_BitReversalReadsBackwards : 7 < 2 ^ 3 ∧ 0 < 2 ^ 0 := by decide

theorem witness_CoreIsEvenOddRecursion : (List.replicate 8 (cq 0 0)).length = 2 ^ 3 ∧ [cq 1 0].length = 2 ^ 0 := by decide

/-- For CfftTransformsInPlace, RfftSplitsPackedSpectrum, IrfftMergesAndScales and IrfftIgnoresEdgeImaginaryParts: N = 4 and
N = 2, both values of NORM. -/
theorem witness_TransformCommands : LegalConfig State.reset.cfg ∧ Memory.wf State.reset ∧ State.reset.cfg.norm = .inv ∧
    LegalConfig (State.resetOf cfgN2).cfg ∧ Memory.wf (State.resetOf cfgN2) ∧ (State.resetOf cfgN2).cfg.norm = .fwd := by
  decide +kernel

/-! Over the real numbers. -/

/-- The configuration T4 over the reals. -/
noncomputable def t4R : Config ℝ := ⟨4, 2, 2, 8, 4, [1, 1, 1, 1], [1 / 2, 1 / 2, 1 / 2, 1 / 2], .inv⟩

theorem t4R_legal : LegalGeometry t4R :=
  ⟨⟨2, by decide, by decide, rfl⟩, by decide, by decide, rfl, by decide, by decide, by decide, by decide, rfl, rfl⟩

/-- The wrapped value of π meets the hypotheses of the uniqueness clause for θ = 3π. -/
theorem witness_WrapIsPrincipalValue : -Real.pi < Real.pi ∧ Real.pi ≤ Real.pi ∧
    ∃ k : ℤ, Real.pi - 3 * Real.pi = k * (2 * Real.pi) :=
  ⟨by linarith [Real.pi_pos], le_refl _, -1, by push_cast; ring⟩

/-- Phases at the closed end of the interval. -/
theorem witness_PhasesStayWrapped : LegalGeometry t4R ∧ ∀ φ ∈ [0, Real.pi, 0], -Real.pi < φ ∧ φ ≤ Real.pi :=
  ⟨t4R_legal, by simp [Real.pi_pos, Real.pi_pos.le]⟩

theorem witness_FrequencyConversionsInvert : LegalGeometry t4R ∧ (0 : ℝ) < 4 := ⟨t4R_legal, by norm_num⟩

/-- For CfftComputesTransformSum, RfftComputesTransformSum, IrfftComputesInverseSum and TransformsInvertEachOther: a CB, an RB
and an SP of T4, the edge bins of SP real. -/
theorem witness_IdealTransforms : LegalGeometry t4R ∧ ([⟨1, 0⟩, ⟨2, 0⟩, ⟨3, 0⟩, ⟨4, 0⟩] : List (Cx ℝ)).length = t4R.n ∧
    ([1, 2, 3, 4] : List ℝ).length = t4R.n ∧ ([⟨10, 0⟩, ⟨-2, 2⟩, ⟨-2, 0⟩] : List (Cx ℝ)).length = t4R.nb ∧
    (cxAt ideal [⟨10, 0⟩, ⟨-2, 2⟩, ⟨-2, 0⟩] 0).im = 0 ∧ (cxAt ideal [⟨10, 0⟩, ⟨-2, 2⟩, ⟨-2, 0⟩] t4R.m).im = 0 :=
  ⟨t4R_legal, rfl, rfl, rfl, rfl, rfl⟩

/-- The last sample of the first hop, with VS = H in one command, and with VS = 1 < H in the second command. -/
theorem witness_FirstHopOfOutputIsSilent : LegalGeometry t4R ∧ 1 < t4R.vs ∧ 0 * t4R.vs + 1 < t4R.h ∧
    LegalGeometry { t4R with vs := 1 } ∧ 0 < ({ t4R with vs := 1 } : Config ℝ).vs ∧
    1 * ({ t4R with vs := 1 } : Config ℝ).vs + 0 < t4R.h :=
  ⟨t4R_legal, by decide, by decide,
    ⟨⟨2, by decide, by decide, rfl⟩, by decide, by decide, rfl, by decide, by decide, by decide, by decide, rfl, rfl⟩,
    by decide, by decide⟩

/-- F2's kind of window: all ones does not leak the image of bin 1 of N = 4 into bin 1. -/
theorem witness_BinCentreSinusoidFrequency : LegalGeometry t4R ∧ 0 < t4R.sr0 ∧ 0 < 1 ∧ 1 < t4R.n / 2 ∧
    ∑ n ∈ Finset.range t4R.n, ((valAt ideal t4R.wa n : ℝ) : ℂ) * kernel .forward t4R.n n (2 * 1) = 0 := by
  have e : Complex.exp (-(Real.pi * Complex.I)) = -1 := by
    rw [Complex.exp_neg, Complex.exp_pi_mul_I]; norm_num
  have k : ∀ n : ℕ, kernel .forward t4R.n n (2 * 1) = (-1) ^ n := fun n => by
    rw [← e, ← Complex.exp_nat_mul]
    unfold kernel t4R
    congr 1
    push_cast
    ring
  refine ⟨t4R_legal, by norm_num [t4R], by decide, by decide, ?_⟩
  simp only [k]
  norm_num [t4R, Finset.sum_range_succ, valAt]

theorem witness_LockstepReconstruction : LegalGeometry t4R ∧ t4R.vs = t4R.h ∧ 0 < t4R.sr0 ∧ 1 < t4R.h :=
  ⟨t4R_legal, rfl, by norm_num [t4R], by decide⟩

end Sys2Proof.Tests
end

section
/-! PROOF. Construction of an instance (00_scope.md R6). -/

namespace Sys2Proof.Machine

theorem pow2ceil_eq_two_pow_clog {n : Nat} (hn : n ≠ 0) : pow2ceil n = 2 ^ Nat.clog 2 n := by
  have hle : 2 ^ Nat.log 2 n ≤ n := Nat.pow_log_le_self 2 hn
  have hlt : n < 2 ^ (Nat.log 2 n + 1) := Nat.lt_pow_succ_log_self one_lt_two n
  rw [pow2ceil, Nat.log2_eq_log_two]
  split
  next heq =>
    have hclog : Nat.clog 2 n = Nat.log 2 n := by rw [← Nat.clog_pow 2 (Nat.log 2 n) one_lt_two, heq]
    rw [hclog, heq]
  next hne =>
    have hlower : Nat.log 2 n < Nat.clog 2 n := (Nat.lt_clog_iff_pow_lt one_lt_two).2 (lt_of_le_of_ne hle hne)
    have hupper : Nat.clog 2 n ≤ Nat.log 2 n + 1 := Nat.clog_le_of_le_pow hlt.le
    rw [le_antisymm hupper hlower]

/-- The least power of two at or above `k` is `pow2ceil k`. -/
theorem eq_pow2ceil_of_least {k n : Nat} (hk : k ≠ 0) (hpow : ∃ p, n = 2 ^ p) (hle : k ≤ n)
    (hleast : ∀ p, k ≤ 2 ^ p → n ≤ 2 ^ p) : n = pow2ceil k := by
  obtain ⟨p, rfl⟩ := hpow
  rw [pow2ceil_eq_two_pow_clog hk]
  exact le_antisymm (hleast _ (Nat.le_pow_clog one_lt_two k))
    (Nat.pow_le_pow_right two_pos (Nat.clog_le_of_le_pow hle))

/-- The tests of `construct` in one condition. -/
theorem construct_eq_ite (nreq h vs : Nat) (sr0 : Word) (wa ws : List Word) (norm : Norm) (chmax : Nat) :
    construct nreq h vs sr0 wa ws norm chmax =
      if nreq = 0 ∨ pow2ceil nreq < 2 ∨ pow2ceil nreq > 2 ^ 19 ∨ h = 0 ∨ pow2ceil nreq % h ≠ 0 ∨
        wa.length ≠ pow2ceil nreq ∨ ws.length ≠ pow2ceil nreq ∨ isLegalRate sr0 = false ∨
        vs < 1 ∨ vs > 2 ^ 20 ∨ chmax < 1 ∨ chmax > 2 ^ 20 then none
      else some ⟨pow2ceil nreq, h, vs, chmax, sr0, wa, ws, norm⟩ := by
  simp only [construct, ite_or]

/-- A power of two that none of the constructor's tests refuses makes a legal configuration. -/
theorem legalConfig_of_not_refused {h vs chmax n : Nat} {sr0 : Word} {wa ws : List Word} (norm : Norm)
    (hpow : ∃ p, n = 2 ^ p)
    (hok : ¬ (n < 2 ∨ n > 2 ^ 19 ∨ h = 0 ∨ n % h ≠ 0 ∨ wa.length ≠ n ∨ ws.length ≠ n ∨ isLegalRate sr0 = false ∨
      vs < 1 ∨ vs > 2 ^ 20 ∨ chmax < 1 ∨ chmax > 2 ^ 20)) :
    LegalConfig ⟨n, h, vs, chmax, sr0, wa, ws, norm⟩ := by
  obtain ⟨p, rfl⟩ := hpow
  simp only [not_or, not_lt, ne_eq, not_not, Bool.not_eq_false] at hok
  obtain ⟨hmin, hmax, hh, hmod, hwa, hws, hrate, hvs, hvs', hch, hch'⟩ := hok
  have hp : p < 20 := Nat.lt_succ_of_le ((Nat.pow_le_pow_iff_right one_lt_two).1 hmax)
  have hp' : 1 ≤ p := (Nat.pow_le_pow_iff_right one_lt_two).1 hmin
  have hhn : h ≤ 2 ^ p := Nat.le_of_dvd (Nat.two_pow_pos p) (Nat.dvd_of_mod_eq_zero hmod)
  exact ⟨⟨⟨p, hp, hp', rfl⟩, Nat.pos_of_ne_zero hh, hhn, hmod, hvs, hvs', hch, hch', hwa, hws⟩, hrate⟩

/-- Settles O23: `construct` is one test of all of R6's refusals at the size `pow2ceil nreq`, and passing it is legality. -/
theorem constructRefusesOrYieldsLegal : Obligations.ConstructRefusesOrYieldsLegal := by
  intro nreq h vs sr0 wa ws norm chmax n hleast
  by_cases hz : nreq = 0
  · exact ⟨fun _ => by simp [construct_eq_ite, hz], fun hok => absurd (Or.inl hz) hok⟩
  · obtain ⟨hpow, hle, hmin⟩ := hleast hz
    obtain rfl := eq_pow2ceil_of_least hz hpow hle hmin
    rw [construct_eq_ite]
    exact ⟨fun hbad => if_pos hbad,
      fun hok => ⟨if_neg hok, legalConfig_of_not_refused norm hpow fun hbad => hok (.inr hbad)⟩⟩

end Sys2Proof.Machine
end

section
/-! PROOF. `wrap` under the ideal semantics is Mathlib's reduction modulo 2π into (-π, π] (00_scope.md R14). -/

namespace Sys2Proof.Machine

theorem wrap_ideal_eq_sub_ceil (θ : ℝ) :
    wrap ideal θ = θ - 2 * Real.pi * ⌈(θ - Real.pi) / (2 * Real.pi)⌉ := by
  simp [wrap, twoPi, ideal]

theorem wrap_ideal_eq_toIocMod (θ : ℝ) : wrap ideal θ = toIocMod Real.two_pi_pos (-Real.pi) θ := by
  have hquot : (θ - Real.pi) / (2 * Real.pi) = -((-Real.pi + 2 * Real.pi - θ) / (2 * Real.pi)) := by ring
  rw [wrap_ideal_eq_sub_ceil, toIocMod, toIocDiv_eq_neg_floor, hquot, Int.ceil_neg, zsmul_eq_mul, mul_comm]

theorem wrap_ideal_mem_Ioc (θ : ℝ) : wrap ideal θ ∈ Set.Ioc (-Real.pi) Real.pi := by
  have hmem := toIocMod_mem_Ioc Real.two_pi_pos (-Real.pi) θ
  rwa [← wrap_ideal_eq_toIocMod, show -Real.pi + 2 * Real.pi = Real.pi by ring] at hmem

theorem wrap_ideal_sub_self (θ : ℝ) : ∃ k : ℤ, wrap ideal θ - θ = k * (2 * Real.pi) :=
  ⟨-toIocDiv Real.two_pi_pos (-Real.pi) θ, by rw [wrap_ideal_eq_toIocMod, toIocMod_sub_self, zsmul_eq_mul]⟩

/-- An angle in (-π, π] that differs from θ by a multiple of 2π is `wrap(θ)`. -/
theorem wrap_ideal_unique {θ θ' : ℝ} (hlow : -Real.pi < θ') (hhigh : θ' ≤ Real.pi) {k : ℤ}
    (hk : θ' - θ = k * (2 * Real.pi)) : wrap ideal θ = θ' := by
  rw [wrap_ideal_eq_toIocMod, toIocMod_eq_iff]
  refine ⟨⟨hlow, by linarith⟩, -k, ?_⟩
  rw [zsmul_eq_mul]
  push_cast
  linarith

/-- Settles O50: the interval, uniqueness and closed form are those of the reduction modulo 2π, and each listed value is
the angle of (-π, π] at the named number of turns from its argument. -/
theorem wrapIsPrincipalValue : Obligations.WrapIsPrincipalValue := by
  have hpi := Real.pi_pos
  refine ⟨fun θ => ⟨(wrap_ideal_mem_Ioc θ).1, (wrap_ideal_mem_Ioc θ).2, wrap_ideal_sub_self θ,
      fun θ' hlow hhigh ⟨_, hk⟩ => (wrap_ideal_unique hlow hhigh hk).symm⟩,
    wrap_ideal_eq_sub_ceil,
    wrap_ideal_unique (k := 0) ?_ ?_ ?_, wrap_ideal_unique (k := 1) ?_ ?_ ?_,
    wrap_ideal_unique (k := -1) ?_ ?_ ?_, wrap_ideal_unique (k := 1) ?_ ?_ ?_,
    wrap_ideal_unique (k := -1) ?_ ?_ ?_, wrap_ideal_unique (k := 0) ?_ ?_ ?_⟩
  all_goals
    push_cast
    linarith

end Sys2Proof.Machine
end

section
/-! PROOF. What a command changes and what a step can do, said once (10_state.md R25 to R45, 30_encoding.md R94). -/

namespace Sys2Proof.Machine

/-! ## Commands -/

/-- Settles O28: `exec_cases` names, command by command, the fields that differ. -/
theorem commandsWriteOnlyTheirOwn : Obligations.CommandsWriteOnlyTheirOwn := by
  intro i s t e
  obtain ⟨u, e', c⟩ := exec_cases i s
  obtain rfl : u = t := Host.Outcome.next.inj (e'.symm.trans e)
  cases i with
  | cfftF | cfftI | rfft | irfft | resynth => subst c; simp
  | analyze | reset => rcases c with ⟨-, rfl⟩ | ⟨-, rfl⟩ <;> simp

theorem exec_cfg {i : Instr} {s t : State} (e : exec i s = .next t) : t.cfg = s.cfg :=
  (commandsWriteOnlyTheirOwn i s t e).1

theorem exec_an {i : Instr} {s t : State} (e : exec i s = .next t) (hi : ∀ len, i ≠ .analyze len) : t.an = s.an := by
  obtain ⟨-, -, -, -, -, -, han, -⟩ := commandsWriteOnlyTheirOwn i s t e
  exact han hi

/-! ## Host stores -/

/-- A host store clears the error registers, or writes only the storage that the host may write (20_memory.md R64). -/
theorem storeLoc_cases (loc : Loc) (w : Word) (s : State) :
    storeLoc loc w s = clearError s ∨
    ∃ arg rb sp cb sin xf, storeLoc loc w s =
      { s with arg := arg, te := { s.te with rb := rb, sp := sp }, cb := cb, sin := sin, xf := xf } := by
  cases loc with
  | csr r =>
    cases r with
    | status =>
      by_cases hw : clearsError w = true
      · exact .inl (by simp [storeLoc, hw])
      · exact .inr ⟨_, _, _, _, _, _, by simp [storeLoc, hw]; rfl⟩
    | _ => exact .inr ⟨_, _, _, _, _, _, rfl⟩
  | _ => exact .inr ⟨_, _, _, _, _, _, rfl⟩

@[simp] theorem storeLoc_cfg (loc : Loc) (w : Word) (s : State) : (storeLoc loc w s).cfg = s.cfg := by
  rcases storeLoc_cases loc w s with e | ⟨_, _, _, _, _, _, e⟩ <;> simp [e]

@[simp] theorem storeLoc_an (loc : Loc) (w : Word) (s : State) : (storeLoc loc w s).an = s.an := by
  rcases storeLoc_cases loc w s with e | ⟨_, _, _, _, _, _, e⟩ <;> simp [e]

/-! ## Locations -/

theorem csrOf_eq_cmd {o : Nat} (h : csrOf o = some .cmd) : o = 0 := by
  unfold csrOf at h
  split at h <;> simp_all

/-- CMD has one address (10_state.md R40). -/
theorem eq_cmdAddr_of_locate {cfg : Config Word} {a : Addr} (h : locate cfg a = some (.csr .cmd)) : a = cmdAddr := by
  unfold locate at h
  split at h
  next hregion =>
    have hoffset : offsetOf a = 0 := csrOf_eq_cmd (by simpa using h)
    apply BitVec.eq_of_toNat_eq
    unfold regionOf at hregion
    unfold offsetOf at hoffset
    simp [cmdAddr]
    omega
  all_goals simp at h

/-! ## Steps -/

/-- What a step can do: nothing when the host is idle; else, with the host's next action taken, only answer the host,
store, record a decoding error, run a command to its end, or reset the hardware. -/
theorem step_effect {s t : State} (e : step s = .next t) :
    t = s ∨ ∃ act rest, s.host = act :: rest ∧
      ((∃ r, t = respond r (withHost rest s)) ∨
       (∃ a w loc, act = .write a w ∧ locate s.cfg a = some loc ∧ readOnly loc = false ∧
         t = storeLoc loc w (respond .done (withHost rest s))) ∨
       (∃ w c, act = .write cmdAddr w ∧ s.err = false ∧ decode w = .error c ∧
         t = raise c w (respond .done (withHost rest s))) ∨
       (∃ w i u, act = .write cmdAddr w ∧ s.err = false ∧ decode w = .ok i ∧
         exec i (setBusy true (respond .done (withHost rest s))) = .next u ∧ t = setBusy false u) ∨
       (act = .hardwareReset ∧ t = performReset (withHost rest s))) := by
  rcases step_cases s with ⟨-, e'⟩ | ⟨act, rest, hact, e'⟩
  · exact .inl (Host.Outcome.next.inj (e.symm.trans e'))
  refine .inr ⟨act, rest, hact, ?_⟩
  rcases perform_cases (e'.symm.trans e) with ⟨a, -, r, rfl⟩ | ⟨a, w, -, -, rfl⟩ | ⟨a, w, rfl, hloc, hissue⟩ |
    ⟨a, w, loc, rfl, hloc, hrw, -, rfl⟩ | ⟨rfl, rfl⟩
  · exact .inl ⟨r, rfl⟩
  · exact .inl ⟨_, rfl⟩
  · obtain rfl := eq_cmdAddr_of_locate hloc
    rcases issue_cases w (respond .done (withHost rest s)) with ⟨-, h⟩ | ⟨herr, c, hdec, h⟩ | ⟨herr, i, u, hdec, hexec, h⟩ <;>
      obtain rfl := Host.Outcome.next.inj (hissue.symm.trans h)
    · exact .inl ⟨_, rfl⟩
    · exact .inr (.inr (.inl ⟨w, c, rfl, herr, hdec, rfl⟩))
    · exact .inr (.inr (.inr (.inl ⟨w, i, u, rfl, herr, hdec, hexec, rfl⟩)))
  · exact .inr (.inl ⟨a, w, loc, rfl, hloc, hrw, rfl⟩)
  · exact .inr (.inr (.inr (.inr ⟨rfl, rfl⟩)))

theorem step_cfg {s t : State} (e : step s = .next t) : t.cfg = s.cfg := by
  rcases step_effect e with rfl | ⟨_, rest, -, ⟨_, rfl⟩ | ⟨_, _, _, -, -, -, rfl⟩ | ⟨_, _, -, -, -, rfl⟩ |
    ⟨_, _, u, -, -, -, hexec, rfl⟩ | ⟨-, rfl⟩⟩
  · rfl
  · rfl
  · simp
  · rfl
  · exact (exec_cfg hexec :)
  · rfl

end Sys2Proof.Machine
end

section
/-! PROOF. The registers of region 0, the hardwired locations, and what moves the frame counter (10_state.md R29, R40, R46,
R47). -/

namespace Sys2Proof.Machine

/-- Settles O19: each address selects its register, and the two flags make up the word of STATUS. -/
theorem registersRead : Obligations.RegistersRead := by
  intro s
  have hstatus : hostRead s 0x000001#24 =
      some (BitVec.ofNat 32 ((if s.busy then 1 else 0) + (if s.err then 2 else 0))) := by
    change some (statusWord s) = _
    cases hb : s.busy <;> cases he : s.err <;> simp [statusWord, flagBit, hb, he]
  have hflags : hostRead s 0x000011#24 = some (if s.cfg.norm = .inv then 1 else 0) := by
    change some (cfgFlagsWord s.cfg.norm) = _
    cases s.cfg.norm <;> rfl
  exact ⟨rfl, hstatus, rfl, rfl, rfl, rfl, rfl, rfl, rfl, rfl, rfl, rfl, rfl, rfl, rfl, rfl, rfl, hflags⟩

/-- The locations that show the configuration: the CFG registers and the windows (10_state.md R46, R47). -/
def Loc.hardwired : Loc → Bool
  | .csr .cfgN | .csr .cfgH | .csr .cfgDm | .csr .cfgVs | .csr .cfgChmax | .csr .cfgFlags | .wa _ | .ws _ => true
  | _ => false

/-- A hardwired location reads a function of the configuration. -/
theorem readLoc_hardwired {loc : Loc} (h : loc.hardwired = true) {s t : State} (hcfg : t.cfg = s.cfg) :
    readLoc t loc = readLoc s loc := by
  unfold Loc.hardwired at h
  split at h <;> simp_all [readLoc, csrRead]

/-- The addresses of the hardwired locations: registers 0x0C to 0x11 and regions 8 and 9 (20_memory.md R62). -/
theorem hardwired_of_locate {cfg : Config Word} {a : Addr} {loc : Loc}
    (ha : (0x0C ≤ a.toNat ∧ a.toNat ≤ 0x11) ∨ a.toNat / 2 ^ 20 = 0x8 ∨ a.toNat / 2 ^ 20 = 0x9)
    (h : locate cfg a = some loc) : loc.hardwired = true := by
  rcases ha with ⟨hlow, hhigh⟩ | hregion | hregion
  · have hregion : regionOf a = 0 := by unfold regionOf; omega
    have hoffset : offsetOf a = a.toNat := by unfold offsetOf; omega
    simp only [locate, hregion, hoffset] at h
    generalize a.toNat = o at hlow hhigh h
    interval_cases o <;> (cases h; rfl)
  all_goals
    change regionOf a = _ at hregion
    simp only [locate, hregion, Option.ite_none_right_eq_some, Option.some.injEq] at h
    obtain ⟨-, rfl⟩ := h
    rfl

/-- Settles O20: no step writes the configuration, and the named addresses show only the configuration. -/
theorem configurationHardwired : Obligations.ConfigurationHardwired := by
  intro s t e
  have hcfg := step_cfg e
  refine ⟨hcfg, fun a ha => ?_⟩
  unfold hostRead
  rw [hcfg]
  cases hloc : locate s.cfg a with
  | none => rfl
  | some loc => exact congrArg some (readLoc_hardwired (hardwired_of_locate ha hloc) hcfg)

/-- Settles O27: of all that a step can do, only a command and a hardware reset touch the analyzer, and of the commands
only ANALYZE. -/
theorem frameCounterMovedByAnalyzeOnly : Obligations.FrameCounterMovedByAnalyzeOnly := by
  intro s t e hmoved
  rcases step_effect e with rfl | ⟨_, rest, hact, ⟨_, rfl⟩ | ⟨_, _, _, -, -, -, rfl⟩ | ⟨_, _, -, -, -, rfl⟩ |
    ⟨w, i, u, rfl, herr, hdec, hexec, rfl⟩ | ⟨rfl, rfl⟩⟩
  · exact absurd rfl hmoved
  · exact absurd rfl hmoved
  · exact absurd (by simp) hmoved
  · exact absurd rfl hmoved
  · by_cases hi : ∃ len, i = .analyze len
    · obtain ⟨len, rfl⟩ := hi
      exact .inl ⟨w, rest, len, hact, herr, hdec⟩
    · have han : u.an = s.an := (exec_an hexec fun len hlen => hi ⟨len, hlen⟩ :)
      exact absurd (congrArg Analyzer.fcnt han) hmoved
  · exact .inr ⟨rest, hact⟩

end Sys2Proof.Machine
end

section
/-! PROOF. The indices and counters of the analyzer and the resynthesizer (42_analyzer.md R161, 43_resynth.md R182, R185). -/

namespace Sys2Proof.Machine

variable {V : Type} (num : Num V) (cfg : Config V) (r : Rates V)

/-- The loop rule of ANALYZE for properties that need the chunk to fit the hop. -/
theorem analyzeLoop_keeps_of_fitting (P : Analyzer V × Engine V → Prop) (sin : List V) (len : Nat)
    (hiter : ∀ i p, P p → P (analyzeIter num cfg r sin i (fitting cfg len i p.1) p)) (fuel i : Nat)
    (p : Analyzer V × Engine V) (h : P p) : P (analyzeLoop num cfg r sin len fuel i p) := by
  induction fuel generalizing i p with
  | zero => exact h
  | succ fuel ih =>
    rw [analyzeLoop_succ]
    split
    · exact ih _ _ (hiter _ _ h)
    · exact h

/-- HNUM and POS are in range (10_state.md R26, R53). -/
def Analyzer.IndicesInRange (cfg : Config V) (an : Analyzer V) : Prop := an.hnum < cfg.dm ∧ an.pos < cfg.h

/-- A chunk that fits either stops short of H, or completes the hop and returns POS to 0. -/
theorem analyzeIter_indicesInRange {sin : List V} {i n : Nat} {p : Analyzer V × Engine V}
    (h : p.1.IndicesInRange cfg) (hfit : n ≤ cfg.h - p.1.pos) :
    (analyzeIter num cfg r sin i n p).1.IndicesInRange cfg := by
  obtain ⟨hhnum, hpos⟩ := h
  unfold analyzeIter
  split
  next hfull => exact ⟨Nat.mod_lt _ (Nat.zero_lt_of_lt hhnum), Nat.zero_lt_of_lt hpos⟩
  next hshort =>
    rw [acceptSamples_pos] at hshort
    exact ⟨hhnum, by simp only [acceptSamples_pos]; omega⟩

theorem analyze_indicesInRange {sin : List V} {len : Nat} {p : Analyzer V × Engine V} (h : p.1.IndicesInRange cfg) :
    (analyze num cfg r sin len p).1.IndicesInRange cfg :=
  analyzeLoop_keeps_of_fitting num cfg r (fun p => p.1.IndicesInRange cfg) sin len
    (fun _ _ h => analyzeIter_indicesInRange num cfg r h (Nat.min_le_right _ _)) _ _ _ h

/-! ## The counters of the resynthesizer -/

/-- Counting up modulo n, as R182 writes it. -/
theorem ite_mod_add_one {n : Nat} (hn : 0 < n) (x : Nat) :
    (if x % n + 1 = n then 0 else x % n + 1) = (x + 1) % n := by
  have hlt := Nat.mod_lt x hn
  rw [← Nat.mod_add_mod]
  split
  next h => rw [h, Nat.mod_self]
  next h => exact (Nat.mod_eq_of_lt (by omega)).symm

variable (f : List (Bin V))

/-- Advancing buffer b counts its counter up, and from N - 1 back to 0. -/
theorem advance_rcnt {b : Nat} {p : Resynth V × Engine V} (hb : b < p.1.rcnt.length) :
    (advance num cfg r f b p).1.rcnt =
      p.1.rcnt.set b (if counterAt p.1 b + 1 = cfg.n then 0 else counterAt p.1 b + 1) := by
  have hcount : counterAt (countUp b p.1) b = counterAt p.1 b + 1 := getD_set_self hb _ _
  rcases advance_cases num cfg r f b p with ⟨h, e⟩ | ⟨h, e⟩ <;> rw [hcount] at h <;> rw [e]
  · simp [refreshAndClear, countUp, h]
  · simp [countUp, h]

/-- The counters after T output samples when the first `j` buffers have also counted the next one. -/
def countersAdvancedTo (cfg : Config V) (t j : Nat) : List Nat :=
  (List.range cfg.dm).map fun b => ((if b < j then t + 1 else t) + (cfg.dm - 1 - b) * cfg.h) % cfg.n

theorem countersAdvancedTo_zero (t : Nat) : countersAdvancedTo cfg t 0 = counterPattern cfg t := by
  simp [countersAdvancedTo, counterPattern]

theorem countersAdvancedTo_dm (t : Nat) : countersAdvancedTo cfg t cfg.dm = counterPattern cfg (t + 1) :=
  List.map_congr_left fun b hb => by rw [if_pos (List.mem_range.1 hb)]

theorem countersAdvancedTo_succ {j : Nat} (hn : 0 < cfg.n) (hj : j < cfg.dm) (t : Nat) :
    (countersAdvancedTo cfg t j).set j
        (if (countersAdvancedTo cfg t j).getD j 0 + 1 = cfg.n then 0 else (countersAdvancedTo cfg t j).getD j 0 + 1) =
      countersAdvancedTo cfg t (j + 1) := by
  have hcount : (countersAdvancedTo cfg t j).getD j 0 = (t + (cfg.dm - 1 - j) * cfg.h) % cfg.n := by
    rw [countersAdvancedTo, getD_map_range hj, if_neg (Nat.lt_irrefl j)]
  rw [hcount, ite_mod_add_one hn]
  refine List.ext_getElem (by simp [countersAdvancedTo]) fun b hb _ => ?_
  rw [List.getElem_set]
  split
  next hbj => subst hbj; simp [countersAdvancedTo, Nat.add_right_comm]
  next hbj =>
    have hlt : b ≤ j ↔ b < j := by omega
    simp [countersAdvancedTo, hlt]

/-- One output sample moves every counter one on (43_resynth.md R182, R185). -/
theorem outputSample_rcnt {i t : Nat} {p : Resynth V × Engine V} (hn : 0 < cfg.n)
    (h : p.1.rcnt = counterPattern cfg t) : (outputSample num cfg r f i p).1.rcnt = counterPattern cfg (t + 1) := by
  rw [← countersAdvancedTo_dm]
  refine forTo_induct (fun j (q : Resynth V × Engine V) => q.1.rcnt = countersAdvancedTo cfg t j)
    (h.trans (countersAdvancedTo_zero cfg t).symm) fun j hj q hq => ?_
  rw [advance_rcnt num cfg r f (by simpa [hq, countersAdvancedTo] using hj), counterAt, hq,
    countersAdvancedTo_succ cfg hn hj]

/-- The counters follow the pattern of R185 as the output samples are counted. -/
theorem resynthesize_rcnt {t : Nat} {p : Resynth V × Engine V} (hn : 0 < cfg.n) (h : p.1.rcnt = counterPattern cfg t) :
    (resynthesize num cfg r f p).1.rcnt = counterPattern cfg (t + cfg.vs) :=
  forTo_induct (fun i (q : Resynth V × Engine V) => q.1.rcnt = counterPattern cfg (t + i)) h
    fun _ _ _ hq => outputSample_rcnt num cfg r f hn hq

theorem counterPattern_mod (t : Nat) : counterPattern cfg (t % cfg.n) = counterPattern cfg t := by
  simp [counterPattern]

theorem LegalGeometry.n_pos {cfg : Config V} (h : LegalGeometry cfg) : 0 < cfg.n := by
  obtain ⟨-, hh, hle, -⟩ := h
  omega

theorem LegalGeometry.dm_pos {cfg : Config V} (h : LegalGeometry cfg) : 0 < cfg.dm := by
  obtain ⟨-, hh, hle, -⟩ := h
  exact Nat.div_pos hle hh

/-- RCNT[b] = (dm - 1 - b) × H is the pattern of R185 at T = 0. -/
theorem resetOf_rcnt {cfg : Config V} (h : LegalGeometry cfg) :
    (Resynth.resetOf num cfg).rcnt = counterPattern cfg 0 := by
  have hdm := h.dm_pos
  obtain ⟨-, hh, -, hdvd, -⟩ := h
  have hn : cfg.dm * cfg.h = cfg.n := Nat.div_mul_cancel (Nat.dvd_of_mod_eq_zero hdvd)
  refine List.map_congr_left fun b _ => ?_
  have hlt : (cfg.dm - 1 - b) * cfg.h < cfg.n := by
    rw [← hn]
    exact Nat.mul_lt_mul_of_pos_right (by omega) hh
  rw [Nat.zero_add, Nat.mod_eq_of_lt hlt]

end Sys2Proof.Machine
end

section
/-! PROOF. The invariant of 10_state.md R53: it holds after hardware reset and every step keeps it. -/

namespace Sys2Proof.Machine

theorem causeCode_mem_range (c : Cause) : 1 ≤ (causeCode c).toNat ∧ (causeCode c).toNat ≤ 4 := by
  cases c <;> decide

theorem raise_keeps_inv {s : State} (h : Inv s) (c : Cause) (w : Word) : Inv (raise c w s) := by
  obtain ⟨hcfg, hwf, hhnum, hpos, hcount, -, -, hrates⟩ := h
  exact ⟨hcfg, hwf, hhnum, hpos, hcount, rfl, ⟨fun he => by simp at he, fun _ => causeCode_mem_range c⟩, hrates⟩

theorem storeLoc_keeps_inv {s : State} (h : Inv s) (loc : Loc) (w : Word) : Inv (storeLoc loc w s) := by
  obtain ⟨hcfg, hwf, hhnum, hpos, hcount, hbusy, herr, hrates⟩ := h
  have hwf' : Memory.wf (storeLoc loc w s) := storeLoc_wf hwf
  rcases storeLoc_cases loc w s with e | ⟨_, _, _, _, _, _, e⟩ <;> rw [e] at hwf' ⊢
  · exact ⟨hcfg, hwf', hhnum, hpos, hcount, hbusy, ⟨fun _ => ⟨rfl, rfl⟩, fun he => by simp at he⟩, hrates⟩
  · exact ⟨hcfg, hwf', hhnum, hpos, hcount, hbusy, herr, hrates⟩

theorem resetOf_inv {cfg : Config Word} (h : LegalConfig cfg) : Inv (State.resetOf cfg) :=
  ⟨h, resetOf_wf cfg, h.1.dm_pos, h.1.2.1, ⟨0, h.1.n_pos, resetOf_rcnt num h.1⟩, rfl,
    ⟨fun _ => ⟨rfl, rfl⟩, fun he => by simp [State.resetOf] at he⟩, h.2, rfl⟩

/-- A command, which runs with BUSY = 1, keeps the invariant at its end (30_encoding.md R94). -/
theorem exec_keeps_inv {i : Instr} {s t : State} (h : Inv s) (e : exec i (setBusy true s) = .next t) :
    Inv (setBusy false t) := by
  have hraise := raise_keeps_inv h
  obtain ⟨hcfg, hwf, hhnum, hpos, hcount, -, herr, hrates⟩ := h
  have hwf' : Memory.wf (setBusy false t) := setBusy_wf (exec_keeps_wf (setBusy_wf hwf) e)
  obtain ⟨u, e', c⟩ := exec_cases i (setBusy true s)
  obtain rfl : u = t := Host.Outcome.next.inj (e'.symm.trans e)
  cases i with
  | cfftF | cfftI | rfft | irfft =>
    subst c
    exact ⟨hcfg, hwf', hhnum, hpos, hcount, rfl, herr, hrates⟩
  | analyze len =>
    rcases c with ⟨-, rfl⟩ | ⟨-, rfl⟩
    · exact hraise .lengthRange (encode (.analyze len))
    · obtain ⟨hhnum', hpos'⟩ := analyze_indicesInRange num s.cfg s.rates (sin := s.sin) (len := len)
        (p := (s.an, s.te)) ⟨hhnum, hpos⟩
      exact ⟨hcfg, hwf', hhnum', hpos', hcount, rfl, herr, hrates⟩
  | resynth src =>
    subst c
    obtain ⟨T, -, hT⟩ := hcount
    have hT' := resynthesize_rcnt num s.cfg s.rates (sourceFrame src s) (p := (s.rs, s.te)) hcfg.1.n_pos hT
    exact ⟨hcfg, hwf', hhnum, hpos,
      ⟨_, Nat.mod_lt _ hcfg.1.n_pos, hT'.trans (counterPattern_mod s.cfg _).symm⟩, rfl, herr, hrates⟩
  | reset =>
    rcases c with ⟨hlegal, rfl⟩ | ⟨-, rfl⟩
    · exact ⟨hcfg, hwf', hhnum, hpos, hcount, rfl, herr, hlegal, rfl⟩
    · exact hraise .badRate (encode .reset)

/-- Settles O24: each of the things a step can do keeps the invariant. -/
theorem stepKeepsInvariant : Obligations.StepKeepsInvariant := by
  intro s t h e
  rcases step_effect e with rfl | ⟨_, rest, -, ⟨_, rfl⟩ | ⟨_, _, loc, -, -, -, rfl⟩ | ⟨_, _, -, -, -, rfl⟩ |
    ⟨_, _, u, -, -, -, hexec, rfl⟩ | ⟨-, rfl⟩⟩
  · exact h
  · exact h
  · exact storeLoc_keeps_inv (s := respond .done (withHost rest s)) h _ _
  · exact raise_keeps_inv (s := respond .done (withHost rest s)) h _ _
  · exact exec_keeps_inv (s := respond .done (withHost rest s)) h hexec
  · exact resetOf_inv h.1

theorem t4_legal : LegalConfig t4 :=
  ⟨⟨⟨2, by decide, by decide, rfl⟩, by decide, by decide, rfl, by decide, by decide, by decide, by decide, rfl, rfl⟩,
    by decide⟩

/-- Settles O25: `resetOf_inv`, and T4 is a legal configuration. -/
theorem resetMeetsInvariant : Obligations.ResetMeetsInvariant :=
  ⟨fun _ => resetOf_inv, resetOf_inv t4_legal⟩

/-- Settles O22: the table of R50 row by row; the binary32 value zero is the word 0. -/
theorem resetValues : Obligations.ResetValues := by
  intro cfg
  have hrcnt : (State.resetOf cfg).rs.rcnt.length = cfg.n / cfg.h := by
    simp [State.resetOf, Resynth.resetOf, Config.dm]
  have hcounter : ∀ b < cfg.n / cfg.h, counterAt (State.resetOf cfg).rs b = (cfg.n / cfg.h - 1 - b) * cfg.h :=
    fun b hb => getD_map_range hb _ _
  exact ⟨rfl, rfl, rfl, rfl, rfl, rfl, rfl, rfl, hrcnt, hcounter, rfl, rfl, rfl, rfl, rfl, rfl, rfl, rfl, rfl, rfl,
    rfl, rfl, rfl, rfl, rfl, rfl, rfl⟩

end Sys2Proof.Machine
end

section
/-! PROOF. Under the ideal semantics the previous and the running phases stay in (-π, π] (10_state.md R53, R27, R32). -/

namespace Sys2Proof.Machine

/-- Every phase of the array is in (-π, π]. -/
def PhasesWrapped (a : List ℝ) : Prop := ∀ φ ∈ a, -Real.pi < φ ∧ φ ≤ Real.pi

theorem PhasesWrapped.set {a : List ℝ} (h : PhasesWrapped a) {φ : ℝ} (hφ : φ ∈ Set.Ioc (-Real.pi) Real.pi) (k : Nat) :
    PhasesWrapped (a.set k φ) := by
  intro x hx
  rcases List.mem_or_eq_of_mem_set hx with hx | rfl
  · exact h x hx
  · exact hφ

theorem PhasesWrapped.replicate_zero (n : Nat) : PhasesWrapped (List.replicate n (zero ideal)) := by
  intro φ hφ
  have hzero : φ = 0 := by simpa [zero, ideal] using List.eq_of_mem_replicate hφ
  rw [hzero]
  exact ⟨neg_lt_zero.2 Real.pi_pos, Real.pi_pos.le⟩

/-- The phase of TOPOLAR is in (-π, π] (40_bin_ops.md R111). -/
theorem arg_ideal_mem_Ioc (re im : ℝ) : arg ideal re im ∈ Set.Ioc (-Real.pi) Real.pi := by
  unfold arg
  split
  · exact PhasesWrapped.replicate_zero 1 _ (List.mem_singleton_self _)
  · exact Complex.arg_mem_Ioc _

variable (c : Config ℝ) (r : Rates ℝ)

theorem completeHop_phasesWrapped {p : Analyzer ℝ × Engine ℝ} (h : PhasesWrapped p.1.pph) :
    PhasesWrapped (completeHop ideal c r p).1.pph :=
  forTo_keeps (fun q : List ℝ × List (Bin ℝ) => PhasesWrapped q.1) h
    fun k _ _ hq => hq.set (arg_ideal_mem_Ioc _ _) k

theorem analyze_phasesWrapped (sin : List ℝ) (len : Nat) {p : Analyzer ℝ × Engine ℝ} (h : PhasesWrapped p.1.pph) :
    PhasesWrapped (analyze ideal c r sin len p).1.pph := by
  refine analyzeLoop_keeps ideal c r (fun q => PhasesWrapped q.1.pph) sin len (fun i n q hq => ?_) _ _ _ h
  unfold analyzeIter
  split
  · exact completeHop_phasesWrapped c r hq
  · exact hq

theorem refresh_phasesWrapped (f : List (Bin ℝ)) (b : Nat) {p : Resynth ℝ × Engine ℝ} (h : PhasesWrapped p.1.phs) :
    PhasesWrapped (refresh ideal c r f b p).1.phs :=
  forTo_keeps (fun q : List ℝ × List (Cx ℝ) => PhasesWrapped q.1) h
    fun k _ _ hq => hq.set (wrap_ideal_mem_Ioc _) k

theorem advance_phasesWrapped (f : List (Bin ℝ)) (b : Nat) {p : Resynth ℝ × Engine ℝ} (h : PhasesWrapped p.1.phs) :
    PhasesWrapped (advance ideal c r f b p).1.phs := by
  rcases advance_cases ideal c r f b p with ⟨-, e⟩ | ⟨-, e⟩ <;> rw [e]
  · exact refresh_phasesWrapped c r f b (p := (countUp b p.1, p.2)) h
  · exact h

theorem resynthesize_phasesWrapped (f : List (Bin ℝ)) {p : Resynth ℝ × Engine ℝ} (h : PhasesWrapped p.1.phs) :
    PhasesWrapped (resynthesize ideal c r f p).1.phs :=
  forTo_keeps (fun q : Resynth ℝ × Engine ℝ => PhasesWrapped q.1.phs) h fun _ _ _ hq =>
    forTo_keeps (fun q : Resynth ℝ × Engine ℝ => PhasesWrapped q.1.phs) hq fun b _ _ => advance_phasesWrapped c r f b

/-- Settles O52: a phase is stored only as the phase of TOPOLAR or as a wrapped angle. -/
theorem phasesStayWrapped : Obligations.PhasesStayWrapped :=
  fun c r _ => ⟨fun sin len _ => analyze_phasesWrapped c r sin len, fun f _ => resynthesize_phasesWrapped c r f,
    PhasesWrapped.replicate_zero c.nb, PhasesWrapped.replicate_zero c.nb⟩

end Sys2Proof.Machine
end

section
/-! PROOF. The host space: which location an address selects, and which addresses are mapped (20_memory.md R62, R67,
30_encoding.md R98). -/

namespace Sys2Proof.Machine

/-! ## Addresses -/

/-- The region of a location (20_memory.md R62). -/
def Loc.region : Loc → Nat
  | .csr _ => 0x0 | .sin _ => 0x1 | .sout _ => 0x2 | .frame _ _ => 0x3 | .xf _ _ => 0x4
  | .rb _ => 0x5 | .sp _ _ => 0x6 | .cb _ _ => 0x7 | .wa _ => 0x8 | .ws _ => 0x9

/-- The offset of a location in its region (20_memory.md R62). -/
def Loc.offset : Loc → Nat
  | .csr r => csrOffset r
  | .sin i | .sout i | .rb i | .wa i | .ws i => i
  | .frame k b | .xf k b | .sp k b | .cb k b => pairOffset k b

theorem addrOf_eq_addrAt (loc : Loc) : addrOf loc = addrAt loc.region loc.offset := by
  cases loc <;> rfl

theorem Loc.region_lt (loc : Loc) : loc.region < 16 := by
  cases loc <;> simp [Loc.region]

theorem regionOf_addrAt {region offset : Nat} (hr : region < 16) (ho : offset < 2 ^ 20) :
    regionOf (addrAt region offset) = region := by
  simp only [regionOf, addrAt, BitVec.toNat_ofNat]
  omega

theorem offsetOf_addrAt (region : Nat) {offset : Nat} (ho : offset < 2 ^ 20) :
    offsetOf (addrAt region offset) = offset := by
  simp only [offsetOf, addrAt, BitVec.toNat_ofNat]
  omega

theorem addrAt_regionOf_offsetOf (a : Addr) : addrAt (regionOf a) (offsetOf a) = a := by
  have hlt := a.isLt
  apply BitVec.eq_of_toNat_eq
  simp only [regionOf, offsetOf, addrAt, BitVec.toNat_ofNat]
  omega

/-! ## Pair elements and registers -/

theorem pairOffset_div_two (k : Nat) (b : Bool) : pairOffset k b / 2 = k := by
  cases b <;> simp only [pairOffset, Bool.false_eq_true, if_true, if_false] <;> omega

theorem isSecond_pairOffset (k : Nat) (b : Bool) : isSecond (pairOffset k b) = b := by
  cases b <;> simp [pairOffset, isSecond]

theorem pairOffset_isSecond (o : Nat) : pairOffset (o / 2) (isSecond o) = o := by
  by_cases h : o % 2 = 1 <;> simp [pairOffset, isSecond, h] <;> omega

theorem csrOf_csrOffset (r : Csr) : csrOf (csrOffset r) = some r := by
  cases r <;> rfl

theorem csrOffset_of_csrOf {o : Nat} {r : Csr} (h : csrOf o = some r) : csrOffset r = o := by
  unfold csrOf at h
  split at h <;> cases h <;> rfl

theorem csrOf_eq_none_iff (o : Nat) : csrOf o = none ↔ 18 ≤ o := by
  constructor
  · intro h
    by_contra hlt
    rw [Nat.not_le] at hlt
    interval_cases o <;> cases h
  · intro h
    cases hr : csrOf o with
    | none => rfl
    | some r =>
      have hoffset := csrOffset_of_csrOf hr
      cases r <;> simp only [csrOffset] at hoffset <;> omega

/-! ## Mapped addresses -/

theorem mapped_iff (cfg : Config Word) (a : Addr) :
    mapped cfg a ↔ offsetOf a < (regionSizes cfg).getD (regionOf a) 0 := Iff.rfl

theorem locate_eq_none_iff (cfg : Config Word) (a : Addr) : locate cfg a = none ↔ ¬ mapped cfg a := by
  rw [mapped_iff]
  unfold locate
  split
  case h_1 h => simp [h, regionSizes, csrOf_eq_none_iff]
  case h_11 h0 h1 h2 h3 h4 h5 h6 h7 h8 h9 =>
    have hlen : (regionSizes cfg).length ≤ regionOf a := by
      change 10 ≤ regionOf a
      simp only [imp_false] at h0 h1 h2 h3 h4 h5 h6 h7 h8 h9
      omega
    rw [List.getD_eq_default _ _ hlen]
    simp
  all_goals simp [*, regionSizes]

/-- An address selects the location of its region and offset. -/
theorem region_offset_of_locate {cfg : Config Word} {a : Addr} {loc : Loc} (h : locate cfg a = some loc) :
    loc.region = regionOf a ∧ loc.offset = offsetOf a := by
  unfold locate at h
  split at h
  case h_1 hr =>
    obtain ⟨r, hcsr, rfl⟩ := Option.map_eq_some_iff.1 h
    exact ⟨hr.symm, csrOffset_of_csrOf hcsr⟩
  case h_11 => cases h
  all_goals
    next hr =>
    obtain ⟨-, rfl⟩ := by simpa using h
    simp [Loc.region, Loc.offset, pairOffset_isSecond, hr]

theorem mapped_of_locate {cfg : Config Word} {a : Addr} {loc : Loc} (h : locate cfg a = some loc) : mapped cfg a := by
  by_contra hun
  simp [(locate_eq_none_iff cfg a).2 hun] at h

theorem exists_locate_of_mapped {cfg : Config Word} {a : Addr} (h : mapped cfg a) : ∃ loc, locate cfg a = some loc :=
  Option.ne_none_iff_exists'.1 fun hnone => (locate_eq_none_iff cfg a).1 hnone h

theorem locate_eq_some_iff (cfg : Config Word) (a : Addr) (loc : Loc) : locate cfg a = some loc ↔
    mapped cfg a ∧ loc.region = regionOf a ∧ loc.offset = offsetOf a := by
  refine ⟨fun h => ⟨mapped_of_locate h, region_offset_of_locate h⟩, fun ⟨hm, hr, ho⟩ => ?_⟩
  rw [mapped_iff, ← hr, ← ho] at hm
  unfold locate
  rw [← hr, ← ho]
  cases loc with
  | csr r => simp [Loc.region, Loc.offset, csrOf_csrOffset]
  | frame k b | xf k b | sp k b | cb k b =>
    simpa [Loc.region, Loc.offset, regionSizes, pairOffset_div_two, isSecond_pairOffset] using hm
  | sin i | sout i | rb i | wa i | ws i => exact if_pos hm

/-- An address is that of the location it selects. -/
theorem addrOf_of_locate {cfg : Config Word} {a : Addr} {loc : Loc} (h : locate cfg a = some loc) : addrOf loc = a := by
  obtain ⟨hr, ho⟩ := region_offset_of_locate h
  rw [addrOf_eq_addrAt, hr, ho, addrAt_regionOf_offsetOf]

/-! ## The locations of a legal configuration -/

/-- A location exists when its offset is below the size of its region; a region of pairs has an even size. -/
theorem existsLoc_iff {cfg : Config Word} (hn : cfg.n % 2 = 0) (loc : Loc) :
    existsLoc cfg loc = true ↔ loc.offset < (regionSizes cfg).getD loc.region 0 := by
  cases loc with
  | csr r => cases r <;> simp [existsLoc, Loc.region, Loc.offset, regionSizes, csrOffset]
  | frame k b | xf k b | sp k b | cb k b =>
    cases b <;> simp [existsLoc, Loc.region, Loc.offset, regionSizes, pairOffset, Config.nb] <;> omega
  | sin i | sout i | rb i | wa i | ws i => simp [existsLoc, Loc.region, Loc.offset, regionSizes]

theorem LegalGeometry.n_even {V : Type} {cfg : Config V} (h : LegalGeometry cfg) : cfg.n % 2 = 0 := by
  obtain ⟨⟨p, -, hp, hn⟩, -⟩ := h
  rw [hn]
  exact Nat.mod_eq_zero_of_dvd (dvd_pow_self 2 (Nat.one_le_iff_ne_zero.1 hp))

theorem LegalGeometry.n_le {V : Type} {cfg : Config V} (h : LegalGeometry cfg) : cfg.n ≤ 2 ^ 19 := by
  obtain ⟨⟨p, hp, -, hn⟩, -⟩ := h
  rw [hn]
  exact Nat.pow_le_pow_right two_pos (Nat.le_of_lt_succ hp)

/-- Every region of a legal configuration fits the 20 bits of an offset. -/
theorem LegalGeometry.regionSizes_le {cfg : Config Word} (h : LegalGeometry cfg) (loc : Loc) :
    (regionSizes cfg).getD loc.region 0 ≤ 2 ^ 20 := by
  have hn := h.n_le
  obtain ⟨-, -, -, -, -, hvs, -, hch, -⟩ := h
  cases loc <;> simp only [Loc.region, regionSizes, List.getD_cons_zero, List.getD_cons_succ] <;> omega

theorem locate_addrOf {cfg : Config Word} (hcfg : LegalGeometry cfg) {loc : Loc} (h : existsLoc cfg loc = true) :
    locate cfg (addrOf loc) = some loc := by
  have hsize := (existsLoc_iff hcfg.n_even loc).1 h
  have hoffset : loc.offset < 2 ^ 20 := Nat.lt_of_lt_of_le hsize (hcfg.regionSizes_le loc)
  rw [addrOf_eq_addrAt, locate_eq_some_iff, mapped_iff, regionOf_addrAt loc.region_lt hoffset,
    offsetOf_addrAt _ hoffset]
  exact ⟨hsize, rfl, rfl⟩

theorem existsLoc_of_locate {cfg : Config Word} (hcfg : LegalGeometry cfg) {a : Addr} {loc : Loc}
    (h : locate cfg a = some loc) : existsLoc cfg loc = true := by
  obtain ⟨hm, hr, ho⟩ := (locate_eq_some_iff cfg a loc).1 h
  rw [existsLoc_iff hcfg.n_even, hr, ho]
  exact hm

/-- Settles O14: an address and the location it selects have the same region and offset, and a location exists exactly
when its offset is below its region's size. -/
theorem hostAddressMap : Obligations.HostAddressMap := fun _ hcfg =>
  ⟨fun _ h => locate_addrOf hcfg.1 h, fun _ _ h => ⟨existsLoc_of_locate hcfg.1 h, addrOf_of_locate h⟩⟩

end Sys2Proof.Machine
end

section
/-! PROOF. Host accesses as steps: what a read and a write answer, and what a store changes (20_memory.md R63 to R67, R70,
R78). -/

namespace Sys2Proof.Machine

/-! ## One access is one step -/

theorem step_of_host_cons {s : State} {act : HostAction} {rest : List HostAction} (h : s.host = act :: rest) :
    step s = perform act (withHost rest s) := by
  simp [step, runHost, h]

theorem permitted_of_not_busy {s : State} (h : s.busy = false) (act : HostAction) : permitted act s = true := by
  simp [permitted, h]

theorem step_read {s : State} {a : Addr} {rest : List HostAction} (hp : permitted (.read a) s = true)
    (h : s.host = .read a :: rest) : step s = performRead a (withHost rest s) :=
  (step_of_host_cons h).trans (if_pos hp)

theorem step_write {s : State} {a : Addr} {w : Word} {rest : List HostAction} (hb : s.busy = false)
    (h : s.host = .write a w :: rest) : step s = performWrite a w (withHost rest s) :=
  (step_of_host_cons h).trans (if_pos (permitted_of_not_busy hb _))

theorem step_refused {s : State} {act : HostAction} {rest : List HostAction} (hp : permitted act s = false)
    (h : s.host = act :: rest) : step s = .refused .hostAccessWhileBusy :=
  (step_of_host_cons h).trans (if_neg (Bool.eq_false_iff.1 hp))

theorem hostRead_eq_none_iff (s : State) (a : Addr) : hostRead s a = none ↔ ¬ mapped s.cfg a := by
  rw [hostRead, Option.map_eq_none_iff, locate_eq_none_iff]

theorem performRead_unmapped {s : State} {a : Addr} (h : ¬ mapped s.cfg a) :
    performRead a s = .next (respond .hostFault s) := by
  simp [performRead, (hostRead_eq_none_iff s a).2 h]

theorem performRead_of_hostRead {s : State} {a : Addr} {w : Word} (h : hostRead s a = some w) :
    performRead a s = .next (respond (.word w) s) := by
  simp [performRead, h]

theorem performWrite_unmapped {s : State} {a : Addr} (h : ¬ mapped s.cfg a) (w : Word) :
    performWrite a w s = .next (respond .hostFault s) := by
  simp [performWrite, (locate_eq_none_iff s.cfg a).2 h]

theorem performWrite_readOnly {s : State} {a : Addr} {loc : Loc} (h : locate s.cfg a = some loc)
    (hro : readOnly loc = true) (w : Word) : performWrite a w s = .next (respond .hostFault s) := by
  simp [performWrite, h, hro]

theorem performWrite_store {s : State} {a : Addr} {loc : Loc} (h : locate s.cfg a = some loc)
    (hrw : readOnly loc = false) (hcmd : loc ≠ .csr .cmd) (w : Word) :
    performWrite a w s = .next (storeLoc loc w (respond .done s)) := by
  simp [performWrite, h, hrw, hcmd]

/-- Settles O15: an unmapped address selects no location. -/
theorem unmappedAccessAnsweredHostFault : Obligations.UnmappedAccessAnsweredHostFault := fun s rest _ hb hun =>
  ⟨fun h => (step_read (permitted_of_not_busy hb _) h).trans (performRead_unmapped (s := withHost rest s) hun),
    fun w h => (step_write hb h).trans (performWrite_unmapped (s := withHost rest s) hun w)⟩

/-- The read-only locations are those of regions 2, 3, 8 and 9 and the registers other than CMD, STATUS and ARG
(20_memory.md R66, 10_state.md R40). -/
theorem readOnly_of_region {loc : Loc}
    (h : loc.region ∈ [0x2, 0x3, 0x8, 0x9] ∨ (loc.region = 0 ∧ loc.offset ∉ [0x00, 0x01, 0x04])) :
    readOnly loc = true := by
  cases loc with
  | csr r => cases r <;> simp [Loc.region, Loc.offset, csrOffset] at h <;> rfl
  | _ => simp [Loc.region] at h <;> rfl

/-- Settles O16: the addresses of the statement select read-only locations. -/
theorem readOnlyWriteAnsweredHostFault : Obligations.ReadOnlyWriteAnsweredHostFault := by
  intro s rest a w hb hm h haddr
  obtain ⟨loc, hloc⟩ := exists_locate_of_mapped hm
  obtain ⟨hr, ho⟩ := region_offset_of_locate hloc
  have hro : readOnly loc = true := by
    apply readOnly_of_region
    rw [hr, ho]
    refine haddr.imp_right fun ⟨hregion, hreg⟩ => ⟨hregion, ?_⟩
    have hoffset : offsetOf a = a.toNat := by unfold offsetOf; omega
    rwa [hoffset]
  exact (step_write hb h).trans (performWrite_readOnly (s := withHost rest s) hloc hro w)

/-- Settles O13: BUSY permits only a read of STATUS and a hardware reset, and STATUS shows BUSY in bit 0 and ERR in
bit 1. -/
theorem hostAccessWhileBusyRefused : Obligations.HostAccessWhileBusyRefused := by
  intro s rest act hbusy h
  constructor
  · rintro rfl
    obtain ⟨-, hstatus, -⟩ := registersRead (withHost rest s)
    have hword : hostRead (withHost rest s) 0x000001#24 = some (if s.err then 3#32 else 1#32) := by
      rw [hstatus, withHost_busy, withHost_err, hbusy]
      cases s.err <;> rfl
    have hp : permitted (.read 0x000001#24) s = true := by simp [permitted, statusAddr]
    exact (step_read hp h).trans (performRead_of_hostRead hword)
  · intro hread hreset
    exact step_refused (by simp [permitted, hbusy, hread, hreset, statusAddr]) h

/-! ## Which word a read answers -/

theorem hostRead_addrOf {s : State} (hcfg : LegalGeometry s.cfg) {loc : Loc} (h : existsLoc s.cfg loc = true) :
    hostRead s (addrOf loc) = some (readLoc s loc) := by
  rw [hostRead, locate_addrOf hcfg h, Option.map_some]

/-- Settles O17: the answer is the word of the location that the address selects, and each printed address is `addrOf`
of its location. -/
theorem hostReadReturnsWordAndChangesNothing : Obligations.HostReadReturnsWordAndChangesNothing := by
  refine ⟨fun s rest a hb hm h => ?_, fun s hcfg => ?_⟩
  · obtain ⟨w, hw⟩ := Option.ne_none_iff_exists'.1 fun hnone => (hostRead_eq_none_iff s a).1 hnone hm
    exact ⟨w, hw, (step_read (permitted_of_not_busy hb _) h).trans (performRead_of_hostRead (s := withHost rest s) hw)⟩
  · have hread (loc : Loc) (h : existsLoc s.cfg loc = true) := hostRead_addrOf hcfg.1 h
    refine ⟨fun i hi => hread (.sin i) (by simpa [existsLoc]), fun i hi => hread (.sout i) (by simpa [existsLoc]),
      fun k hk => ?_, fun i hi => ?_⟩
    · have hk' : k < s.cfg.nb := Nat.lt_succ_of_le hk
      refine ⟨hread (.frame k false) ?_, hread (.frame k true) ?_, hread (.xf k false) ?_, hread (.xf k true) ?_,
        hread (.sp k false) ?_, hread (.sp k true) ?_⟩ <;> simpa [existsLoc]
    · refine ⟨hread (.rb i) ?_, hread (.cb i false) ?_, hread (.cb i true) ?_, hread (.wa i) ?_, hread (.ws i) ?_⟩ <;>
        simpa [existsLoc]

/-! ## Stores -/

section
variable {V : Type}

theorem getD_set {a : List V} {i : Nat} (hi : i < a.length) (x d : V) (j : Nat) :
    (a.set i x).getD j d = if j = i then x else a.getD j d := by
  split
  next h => rw [h, getD_set_self hi]
  next h => rw [getD_set_ne (Ne.symm h)]

theorem valAt_set (num : Num V) {a : List V} {i : Nat} (hi : i < a.length) (x : V) (j : Nat) :
    valAt num (a.set i x) j = if j = i then x else valAt num a j := getD_set hi x _ j

theorem binAt_set (num : Num V) {a : List (Bin V)} {i : Nat} (hi : i < a.length) (x : Bin V) (j : Nat) :
    binAt num (a.set i x) j = if j = i then x else binAt num a j := getD_set hi x _ j

theorem cxAt_set (num : Num V) {a : List (Cx V)} {i : Nat} (hi : i < a.length) (x : Cx V) (j : Nat) :
    cxAt num (a.set i x) j = if j = i then x else cxAt num a j := getD_set hi x _ j

end

theorem binWord_setBinWord (x : Bin Word) (b b' : Bool) (w : Word) :
    binWord (setBinWord x b w) b' = if b' = b then w else binWord x b' := by
  cases b <;> cases b' <;> rfl

theorem cxWord_setCxWord (x : Cx Word) (b b' : Bool) (w : Word) :
    cxWord (setCxWord x b w) b' = if b' = b then w else cxWord x b' := by
  cases b <;> cases b' <;> rfl

/-- One word of a pair array after one of its words is replaced. -/
theorem binWord_binAt_set {a : List (Bin Word)} {k : Nat} (hk : k < a.length) (b : Bool) (w : Word) (j : Nat) (b' : Bool) :
    binWord (binAt num (a.set k (setBinWord (binAt num a k) b w)) j) b' =
      if j = k ∧ b' = b then w else binWord (binAt num a j) b' := by
  rw [binAt_set num hk]
  by_cases hj : j = k
  · simp [hj, binWord_setBinWord]
  · simp [hj]

theorem cxWord_cxAt_set {a : List (Cx Word)} {k : Nat} (hk : k < a.length) (b : Bool) (w : Word) (j : Nat) (b' : Bool) :
    cxWord (cxAt num (a.set k (setCxWord (cxAt num a k) b w)) j) b' =
      if j = k ∧ b' = b then w else cxWord (cxAt num a j) b' := by
  rw [cxAt_set num hk]
  by_cases hj : j = k
  · simp [hj, cxWord_setCxWord]
  · simp [hj]

/-- The locations of plain storage (20_memory.md R64, R70): ARG and the words of SIN, XF, RB, SP and CB. -/
inductive Loc.Plain : Loc → Prop where
  | arg : Plain (.csr .arg)
  | sin (i : Nat) : Plain (.sin i)
  | xf (k : Nat) (b : Bool) : Plain (.xf k b)
  | rb (i : Nat) : Plain (.rb i)
  | sp (k : Nat) (b : Bool) : Plain (.sp k b)
  | cb (i : Nat) (b : Bool) : Plain (.cb i b)

theorem Loc.Plain.not_readOnly {loc : Loc} (h : loc.Plain) : readOnly loc = false := by
  cases h <;> rfl

theorem Loc.Plain.ne_cmd {loc : Loc} (h : loc.Plain) : loc ≠ .csr .cmd := by
  rintro rfl
  cases h

/-- The addresses of plain storage: the register at offset 4 and regions 1, 4, 5, 6 and 7. -/
theorem plain_of_locate {cfg : Config Word} {a : Addr} {loc : Loc} (h : locate cfg a = some loc)
    (ha : a = 0x000004#24 ∨ a.toNat / 2 ^ 20 ∈ [0x1, 0x4, 0x5, 0x6, 0x7]) : loc.Plain := by
  rcases ha with rfl | hregion
  · cases h
    exact .arg
  · change regionOf a ∈ _ at hregion
    rw [← (region_offset_of_locate h).1] at hregion
    cases loc with
    | sin i => exact .sin i
    | xf k b => exact .xf k b
    | rb i => exact .rb i
    | sp k b => exact .sp k b
    | cb i b => exact .cb i b
    | _ => simp [Loc.region] at hregion

/-- A store to plain storage changes only the storage that the host may write. -/
theorem storeLoc_plain {loc : Loc} (h : loc.Plain) (w : Word) (s : State) :
    ∃ arg rb sp cb sin xf, storeLoc loc w s =
      { s with arg := arg, te := { s.te with rb := rb, sp := sp }, cb := cb, sin := sin, xf := xf } := by
  cases h <;> exact ⟨_, _, _, _, _, _, rfl⟩

/-- A store to plain storage is read back, and every other location reads as before. -/
theorem readLoc_storeLoc {loc : Loc} {s : State} (hwf : Memory.wf s) (hex : existsLoc s.cfg loc = true)
    (hplain : loc.Plain) (w : Word) (loc' : Loc) :
    readLoc (storeLoc loc w s) loc' = if loc' = loc then w else readLoc s loc' := by
  obtain ⟨-, -, ⟨hrb, hsp, -⟩, hcb, hsin, hxf⟩ := (memory_wf_iff s).1 hwf
  cases hplain <;> simp only [existsLoc, decide_eq_true_eq] at hex
  case arg =>
    cases loc' with
    | csr r => cases r <;> rfl
    | _ => rfl
  case sin i =>
    cases loc' with
    | sin j => simp [storeLoc, readLoc, valAt_set num (hsin ▸ hex)]
    | _ => rfl
  case xf k b =>
    cases loc' with
    | xf j b' => simp [storeLoc, readLoc, binWord_binAt_set (hxf ▸ hex)]
    | _ => rfl
  case rb i =>
    cases loc' with
    | rb j => simp [storeLoc, readLoc, valAt_set num (hrb ▸ hex)]
    | _ => rfl
  case sp k b =>
    cases loc' with
    | sp j b' => simp [storeLoc, readLoc, cxWord_cxAt_set (hsp ▸ hex)]
    | _ => rfl
  case cb i b =>
    cases loc' with
    | cb j b' => simp [storeLoc, readLoc, cxWord_cxAt_set (hcb ▸ hex)]
    | _ => rfl

/-- The same at the addresses: no other address selects the location. -/
theorem hostRead_storeLoc {s : State} (hcfg : LegalGeometry s.cfg) (hwf : Memory.wf s) {a : Addr} {loc : Loc}
    (hloc : locate s.cfg a = some loc) (hplain : loc.Plain) (w : Word) (b : Addr) :
    hostRead (storeLoc loc w s) b = if b = a then some w else hostRead s b := by
  have hread := readLoc_storeLoc hwf (existsLoc_of_locate hcfg hloc) hplain w
  rw [hostRead, hostRead, storeLoc_cfg]
  split
  next hb => rw [hb, hloc, Option.map_some, hread, if_pos rfl]
  next hne =>
    refine Option.map_congr fun loc' hloc' => ?_
    rw [hread, if_neg]
    rintro rfl
    exact hne ((addrOf_of_locate hloc').symm.trans (addrOf_of_locate hloc))

/-- Settles O18: the address selects a location of plain storage, and the store is to that location. -/
theorem plainStorageReadsBack : Obligations.PlainStorageReadsBack := by
  intro s rest a w hcfg hwf hb hm h haddr
  obtain ⟨loc, hloc⟩ := exists_locate_of_mapped hm
  have hplain := plain_of_locate hloc haddr
  have hread := hostRead_storeLoc (s := respond .done (withHost rest s)) hcfg.1 hwf hloc hplain w
  refine ⟨storeLoc loc w (respond .done (withHost rest s)),
    (step_write hb h).trans (performWrite_store (s := withHost rest s) hloc hplain.not_readOnly hplain.ne_cmd w),
    (hread a).trans (if_pos rfl), fun b hne => (hread b).trans (if_neg hne), ?_⟩
  obtain ⟨_, _, _, _, _, _, e⟩ := storeLoc_plain hplain w (respond .done (withHost rest s))
  rw [e]
  exact ⟨rfl, rfl, rfl, rfl, rfl, rfl, rfl, rfl, rfl, rfl, rfl⟩

end Sys2Proof.Machine
end

section
/-! PROOF. Words and the values they encode (20_memory.md R61): `f32` and `bits32` undo each other, and integers below 2^24
convert exactly. -/

namespace Sys2Proof.Machine

/-! ## The fields of a word -/

theorem toNat_packWord {s : Bool} {biased fraction : Nat} (hb : biased < 256) (hf : fraction < 2 ^ 23) :
    (packWord s biased fraction).toNat = s.toNat * 2 ^ 31 + biased * 2 ^ 23 + fraction := by
  have hs : s.toNat ≤ 1 := Bool.toNat_le s
  rw [packWord, BitVec.toNat_ofNat, Nat.mod_eq_of_lt (by omega)]

theorem fields_packWord {s : Bool} {biased fraction : Nat} (hb : biased < 256) (hf : fraction < 2 ^ 23) :
    bits (packWord s biased fraction) 31 31 = s.toNat ∧ bits (packWord s biased fraction) 30 23 = biased ∧
      bits (packWord s biased fraction) 22 0 = fraction := by
  have hs : s.toNat ≤ 1 := Bool.toNat_le s
  simp only [bits, toNat_packWord hb hf]
  omega

theorem exponent_lt (w : Word) : bits w 30 23 < 256 := Nat.mod_lt _ (by decide)

theorem fraction_lt (w : Word) : bits w 22 0 < 2 ^ 23 := Nat.mod_lt _ (by decide)

/-- A word is made of its fields. -/
theorem packWord_fields (w : Word) : packWord (bits w 31 31 = 1) (bits w 30 23) (bits w 22 0) = w := by
  have hlt := w.isLt
  have hs : (decide (bits w 31 31 = 1)).toNat = bits w 31 31 := by
    have hbit : bits w 31 31 < 2 := Nat.mod_lt _ two_pos
    by_cases h : bits w 31 31 = 1
    · simp [h]
    · simp only [h, decide_false, Bool.toNat_false]
      omega
  apply BitVec.eq_of_toNat_eq
  rw [toNat_packWord (exponent_lt w) (fraction_lt w), hs]
  simp only [bits]
  omega

/-! ## `f32` and `bits32` -/

/-- The word of a finite value whose significand has 24 bits. -/
theorem bits32_normal {s : Bool} {m : Nat} {x : Int} (h : 2 ^ 23 ≤ m) :
    bits32 (.finite s m x) = packWord s (x + 150).toNat (m - 2 ^ 23) := if_neg (Nat.not_lt.2 h)

/-- The word of a finite value below the normal ones. -/
theorem bits32_subnormal {s : Bool} {m : Nat} {x : Int} (h : m < 2 ^ 23) :
    bits32 (.finite s m x) = packWord s 0 m := if_pos h

/-- `bits32` undoes `f32`; the fraction of a NaN is kept (entry 13). -/
theorem bits32_f32 (w : Word) : bits32 (f32 w) = w := by
  have hw := packWord_fields w
  unfold f32
  split
  next hexp =>
    rw [hexp] at hw
    split
    next hinf => rwa [hinf] at hw
    next => exact hw
  next =>
    split
    next hsub =>
      rw [bits32_subnormal (fraction_lt w)]
      rwa [hsub] at hw
    next =>
      rw [bits32_normal (Nat.le_add_right _ _), Nat.add_sub_cancel_left, Int.sub_add_cancel, Int.toNat_natCast]
      exact hw

/-- The significands and exponents of finite binary32 values: below 2^23 only at the least exponent. -/
def EncodableMagnitude (m : Nat) (x : Int) : Prop :=
  (m < 2 ^ 23 ∧ x = -149) ∨ (2 ^ 23 ≤ m ∧ m < 2 ^ 24 ∧ -149 ≤ x ∧ x ≤ 104)

theorem encodable_of_f32 {w : Word} {s : Bool} {m : Nat} {x : Int} (h : f32 w = .finite s m x) :
    EncodableMagnitude m x := by
  have hexp := exponent_lt w
  have hfrac := fraction_lt w
  unfold f32 at h
  unfold EncodableMagnitude
  split_ifs at h <;> cases h <;> omega

theorem f32_packWord {s : Bool} {biased fraction : Nat} (hb : biased < 255) (hf : fraction < 2 ^ 23) :
    f32 (packWord s biased fraction) =
      if biased = 0 then .finite s fraction (-149) else .finite s (2 ^ 23 + fraction) (biased - 150) := by
  obtain ⟨hsign, hexp, hfrac⟩ := fields_packWord (s := s) (Nat.lt_succ_of_lt hb) hf
  have hs : decide (s.toNat = 1) = s := by cases s <;> rfl
  rw [f32, hsign, hexp, hfrac, hs, if_neg hb.ne]

theorem f32_bits32_finite {s : Bool} {m : Nat} {x : Int} (h : EncodableMagnitude m x) :
    f32 (bits32 (.finite s m x)) = .finite s m x := by
  rcases h with ⟨hm, rfl⟩ | ⟨hm, hm', hx, hx'⟩
  · rw [bits32_subnormal hm, f32_packWord (by decide) hm, if_pos rfl]
  · have hexp : (((x + 150).toNat : Nat) : Int) - 150 = x := by omega
    rw [bits32_normal hm, f32_packWord (by omega) (by omega), if_neg (by omega), hexp, Nat.add_sub_cancel' hm]

/-- Unary minus of a finite value other than zero (entry 3). -/
theorem negWord_of_f32 {w : Word} {s : Bool} {m : Nat} {x : Int} (h : f32 w = .finite s m x) (hm : m ≠ 0) :
    negWord w = bits32 (.finite (!s) m x) := by
  simp [negWord, h, hm]

/-! ## Integers -/

/-- The significand of the integer `n`: shifted left until it has 24 bits. -/
def normalised (n : Nat) : Nat := n * 2 ^ (23 - Nat.log2 n)

variable {n : Nat}

theorem log2_le_of_lt (hlt : n < 2 ^ 24) : Nat.log2 n ≤ 23 := by
  rcases Nat.eq_zero_or_pos n with rfl | hpos
  · decide
  · exact Nat.le_of_lt_succ ((Nat.log2_lt hpos.ne').2 hlt)

theorem normalised_bounds (hpos : 0 < n) (hlt : n < 2 ^ 24) : 2 ^ 23 ≤ normalised n ∧ normalised n < 2 ^ 24 := by
  have hlog := log2_le_of_lt hlt
  have hlow : 2 ^ Nat.log2 n ≤ n := Nat.log2_self_le hpos.ne'
  have hhigh : n < 2 ^ (Nat.log2 n + 1) := Nat.lt_log2_self
  constructor
  · calc 2 ^ 23 = 2 ^ Nat.log2 n * 2 ^ (23 - Nat.log2 n) := by rw [← pow_add, Nat.add_sub_cancel' hlog]
      _ ≤ normalised n := Nat.mul_le_mul_right _ hlow
  · calc normalised n < 2 ^ (Nat.log2 n + 1) * 2 ^ (23 - Nat.log2 n) :=
          Nat.mul_lt_mul_of_pos_right hhigh (Nat.two_pow_pos _)
      _ = 2 ^ 24 := by rw [← pow_add]; congr 1; omega

theorem wordOfNat_eq_bits32 (hpos : 0 < n) (hlt : n < 2 ^ 24) :
    wordOfNat n = bits32 (.finite false (normalised n) (Nat.log2 n - 23)) := by
  rw [wordOfNat, if_neg hpos.ne', if_pos hlt, normalised]

theorem wordOfNat_eq_packWord (hpos : 0 < n) (hlt : n < 2 ^ 24) :
    wordOfNat n = packWord false (127 + Nat.log2 n) (normalised n - 2 ^ 23) := by
  have hexp : ((Nat.log2 n : Int) - 23 + 150).toNat = 127 + Nat.log2 n := by omega
  rw [wordOfNat_eq_bits32 hpos hlt, bits32_normal (normalised_bounds hpos hlt).1, hexp]

theorem f32_wordOfNat (hpos : 0 < n) (hlt : n < 2 ^ 24) :
    f32 (wordOfNat n) = .finite false (normalised n) (Nat.log2 n - 23) := by
  have hlog := log2_le_of_lt hlt
  obtain ⟨hlow, hhigh⟩ := normalised_bounds hpos hlt
  rw [wordOfNat_eq_bits32 hpos hlt]
  exact f32_bits32_finite (.inr ⟨hlow, hhigh, by omega, by omega⟩)

theorem valueOf_f32_wordOfNat (hlt : n < 2 ^ 24) : valueOf (f32 (wordOfNat n)) = some (n : ℚ) := by
  rcases Nat.eq_zero_or_pos n with rfl | hpos
  · have hzero : f32 (wordOfNat 0) = .finite false 0 (-149) := by decide
    simp [hzero, valueOf]
  · have hscale : (2 : ℚ) ^ (23 - Nat.log2 n) * 2 ^ ((Nat.log2 n : Int) - 23) = 1 := by
      rw [← zpow_natCast, ← zpow_add₀ two_ne_zero, Nat.cast_sub (log2_le_of_lt hlt)]
      simp
    rw [f32_wordOfNat hpos hlt, valueOf, normalised]
    push_cast
    simp [mul_assoc, hscale]

/-- The fields of the word of an integer (10_state.md R45). -/
theorem wordOfNat_fields (hpos : 0 < n) (hlt : n < 2 ^ 24) :
    (wordOfNat n).getLsbD 31 = false ∧ (wordOfNat n).toNat / 2 ^ 23 % 2 ^ 8 = 127 + Nat.log2 n ∧
      2 ^ 23 + (wordOfNat n).toNat % 2 ^ 23 = n * 2 ^ (23 - Nat.log2 n) := by
  have hlog := log2_le_of_lt hlt
  obtain ⟨hlow, hhigh⟩ := normalised_bounds hpos hlt
  have hword : (wordOfNat n).toNat = (127 + Nat.log2 n) * 2 ^ 23 + (normalised n - 2 ^ 23) := by
    rw [wordOfNat_eq_packWord hpos hlt, toNat_packWord (by omega) (by omega)]
    simp
  change _ ∧ _ ∧ _ = normalised n
  exact ⟨Nat.testBit_lt_two_pow (by omega), by omega, by omega⟩

/-- Settles O31: the word of an integer is that of its normalised significand; a finite value and its negative have the
same significand and exponent, and `f32` undoes `bits32` there. -/
theorem integerConversionExact : Obligations.IntegerConversionExact := by
  refine ⟨fun n hpos hlt => ⟨Nat.log2 n, log2_le_of_lt hlt, wordOfNat_fields hpos hlt⟩, by decide, by decide, by decide,
    by decide, fun _ => valueOf_f32_wordOfNat, fun w _ => bits32_f32 w, fun w s m x h hm => ?_, by decide, rfl, by decide⟩
  rw [← f32_bits32_finite (encodable_of_f32 h)]
  exact congrArg f32 (negWord_of_f32 h hm)

end Sys2Proof.Machine
end

section
/-! PROOF. The encoding: a word decodes to an instruction exactly when its opcode field and its operand field are those of
the instruction (30_encoding.md R90 to R94). -/

namespace Sys2Proof

open Laws.OpcodeField (opcode)

/-! ## The fields of a command word -/

theorem bits_wordOf {op field : Nat} (hop : op < 2 ^ 8) (hfield : field < 2 ^ 24) :
    bits (wordOf op field) 31 24 = op ∧ bits (wordOf op field) 23 0 = field := by
  simp only [bits, wordOf, BitVec.toNat_ofNat]
  omega

/-- A word is made of its opcode field and its operand field. -/
theorem wordOf_bits (w : Word) : wordOf (bits w 31 24) (bits w 23 0) = w := by
  have hlt := w.isLt
  apply BitVec.eq_of_toNat_eq
  simp only [bits, wordOf, BitVec.toNat_ofNat]
  omega

/-! ## The fields of an instruction -/

/-- The operand format of an instruction (30_encoding.md R93). -/
def Instr.format : Instr → Format
  | .cfftF | .cfftI | .rfft | .irfft | .reset => .z
  | .analyze _ => .l
  | .resynth _ => .s

/-- The integer in bits 23:0 of an instruction's word (30_encoding.md R91, R92). -/
def Instr.operandField : Instr → Nat
  | .cfftF | .cfftI | .rfft | .irfft | .reset => 0
  | .analyze len => len
  | .resynth src => srcBit src

/-- The instruction with the operand that its field holds in `w` (30_encoding.md R92). -/
def Instr.withOperandOf (w : Word) : Instr → Instr
  | .analyze _ => .analyze (bits w 23 0)
  | .resynth _ => .resynth (srcOf w)
  | i => i

theorem encode_eq_wordOf (i : Instr) : encode i = wordOf (opcode i) i.operandField := by
  cases i <;> rfl

theorem opcode_lt (i : Instr) : opcode i < 2 ^ 8 := by
  cases i <;> simp [opcode]

theorem wellFormed_iff_operandField_lt (i : Instr) : i.wellFormed = true ↔ i.operandField < 2 ^ 24 := by
  cases i with
  | analyze len => simp [Instr.wellFormed, Instr.operandField]
  | resynth src => cases src <;> decide
  | _ => decide

@[simp] theorem opcode_withOperandOf (w : Word) (i : Instr) : opcode (i.withOperandOf w) = opcode i := by
  cases i <;> rfl

/-- The bit `src` and the bits that must be zero make up the operand field of format S (30_encoding.md R91). -/
theorem operandField_eq_srcBit_iff (w : Word) (src : Source) :
    bits w 23 0 = srcBit src ↔ bits w 23 1 = 0 ∧ srcOf w = src := by
  cases src <;> simp [bits, srcOf, srcBit] <;> omega

/-- No must-be-zero bit of the format is 1 exactly when the operand is all that the operand field holds. -/
theorem reservedSet_eq_false_iff (i : Instr) (w : Word) :
    reservedSet i.format w = false ↔ bits w 23 0 = (i.withOperandOf w).operandField := by
  cases i with
  | analyze len => simp [Instr.format, Instr.withOperandOf, Instr.operandField, reservedSet]
  | resynth src =>
    simp [Instr.format, Instr.withOperandOf, Instr.operandField, reservedSet, operandField_eq_srcBit_iff]
  | _ => simp [Instr.format, Instr.withOperandOf, Instr.operandField, reservedSet]

theorem withOperandOf_eq_self {i : Instr} {w : Word} (h : bits w 23 0 = i.operandField) : i.withOperandOf w = i := by
  cases i with
  | analyze len => exact congrArg _ h
  | resynth src => exact congrArg _ ((operandField_eq_srcBit_iff w src).1 h).2
  | _ => rfl

/-! ## The decoder -/

theorem formatOf_opcode (i : Instr) : formatOf (opcode i) = some i.format := by
  cases i <;> rfl

theorem commandOf_opcode (i : Instr) (w : Word) : commandOf (opcode i) w = some (i.withOperandOf w) := by
  cases i <;> rfl

theorem exists_opcode_iff (op : Nat) : (∃ i, op = opcode i) ↔ op ∈ [0x01, 0x02, 0x03, 0x04, 0x10, 0x20, 0x30] := by
  constructor
  · rintro ⟨i, rfl⟩
    cases i <;> simp [opcode]
  · intro h
    simp only [List.mem_cons, List.not_mem_nil, or_false] at h
    rcases h with h | h | h | h | h | h | h
    exacts [⟨.cfftF, h⟩, ⟨.cfftI, h⟩, ⟨.rfft, h⟩, ⟨.irfft, h⟩, ⟨.analyze 0, h⟩, ⟨.resynth .frame, h⟩, ⟨.reset, h⟩]

/-- An assigned opcode: the reserved field decides, and the operand is read from the word (30_encoding.md R94). -/
theorem decode_of_opcode {w : Word} {i : Instr} (h : bits w 31 24 = opcode i) :
    decode w = if reservedSet i.format w then .error .reservedField else .ok (i.withOperandOf w) := by
  rw [decode, h, formatOf_opcode, commandOf_opcode]

/-- An unassigned opcode is rejected whatever the operand field holds (30_encoding.md R94). -/
theorem decode_of_unassigned {w : Word} (h : ¬ ∃ i, bits w 31 24 = opcode i) : decode w = .error .illegalOpcode := by
  have hformat : formatOf (bits w 31 24) = none := by
    simp only [exists_opcode_iff, List.mem_cons, List.not_mem_nil, or_false, not_or] at h
    simp [formatOf, h]
  rw [decode, hformat]

/-- What the decoder can answer: an unassigned opcode, a reserved field, or the instruction of the opcode. -/
theorem decode_cases (w : Word) :
    ((¬ ∃ i, bits w 31 24 = opcode i) ∧ decode w = .error .illegalOpcode) ∨
    ∃ i, bits w 31 24 = opcode i ∧
      ((reservedSet i.format w = true ∧ decode w = .error .reservedField) ∨
       (reservedSet i.format w = false ∧ decode w = .ok (i.withOperandOf w))) := by
  by_cases hop : ∃ i, bits w 31 24 = opcode i
  · obtain ⟨i, hi⟩ := hop
    refine .inr ⟨i, hi, ?_⟩
    rw [decode_of_opcode hi]
    cases reservedSet i.format w <;> simp
  · exact .inl ⟨hop, decode_of_unassigned hop⟩

/-- A word decodes to `i` exactly when its two fields are those of `i`. -/
theorem decode_eq_ok_iff (w : Word) (i : Instr) :
    decode w = .ok i ↔ bits w 31 24 = opcode i ∧ bits w 23 0 = i.operandField := by
  constructor
  · intro h
    rcases decode_cases w with ⟨-, e⟩ | ⟨j, hj, ⟨-, e⟩ | ⟨hres, e⟩⟩ <;> rw [e] at h <;> cases h
    exact ⟨hj.trans (opcode_withOperandOf w j).symm, (reservedSet_eq_false_iff j w).1 hres⟩
  · rintro ⟨hop, hfield⟩
    have hself := withOperandOf_eq_self hfield
    have hres : reservedSet i.format w = false := (reservedSet_eq_false_iff i w).2 (by rw [hself, hfield])
    simp [decode_of_opcode hop, hres, hself]

/-- Settles O1: the word of `i` has the fields of `i`. -/
theorem decodeOfEncode : Obligations.DecodeOfEncode := by
  intro i hwf
  rw [decode_eq_ok_iff, encode_eq_wordOf]
  exact bits_wordOf (opcode_lt i) ((wellFormed_iff_operandField_lt i).1 hwf)

/-- Settles O2: a word is made of its two fields, and those are the fields of the instruction. -/
theorem encodeOfDecode : Obligations.EncodeOfDecode := by
  intro w i h
  obtain ⟨hop, hfield⟩ := (decode_eq_ok_iff w i).1 h
  constructor
  · rw [wellFormed_iff_operandField_lt, ← hfield]
    exact Nat.mod_lt _ (by decide)
  · rw [encode_eq_wordOf, ← hop, ← hfield, wordOf_bits]

/-- Settles O4: the decoder runs on each word. -/
theorem sampleWordsDecode : Obligations.SampleWordsDecode := by
  unfold Obligations.SampleWordsDecode
  decide

end Sys2Proof
end

section
/-! PROOF. The decoder against the rows of opcode_table.json: masks, matches and causes (30_encoding.md R91, R92, R94). -/

namespace Sys2Proof

open Laws.OpcodeField (opcode)

/-! ## Masks -/

/-- The word with ones in bits hi down to lo. -/
def fieldMask (hi lo : Nat) : Word := BitVec.ofNat 32 ((2 ^ (hi + 1 - lo) - 1) * 2 ^ lo)

theorem toNat_and_fieldMask (w : Word) {hi lo : Nat} (h : hi < 32) :
    (w &&& fieldMask hi lo).toNat = bits w hi lo * 2 ^ lo := by
  apply Nat.eq_of_testBit_eq
  intro j
  simp only [fieldMask, bits, BitVec.toNat_and, BitVec.toNat_ofNat, Nat.testBit_and, Nat.testBit_mod_two_pow,
    Nat.testBit_mul_two_pow, Nat.testBit_two_pow_sub_one, Nat.testBit_div_two_pow]
  by_cases hj : lo ≤ j ∧ j - lo < hi + 1 - lo
  · obtain ⟨hlo, hhi⟩ := hj
    have hj32 : j < 32 := by omega
    simp [hlo, hhi, hj32]
  · rcases not_and_or.1 hj with hlo | hhi
    · simp [hlo]
    · simp [hhi]

theorem and_fieldMask_eq_zero_iff (w : Word) {hi lo : Nat} (h : hi < 32) :
    w &&& fieldMask hi lo = 0 ↔ bits w hi lo = 0 := by
  rw [BitVec.toNat_eq, toNat_and_fieldMask w h]
  simp

theorem toNat_ushiftRight_24 (w : Word) : (w >>> 24).toNat = bits w 31 24 := by
  have hlt := w.isLt
  simp only [BitVec.toNat_ushiftRight, Nat.shiftRight_eq_div_pow, bits]
  omega

/-! ## The rows -/

/-- A row whose mask covers the whole word. -/
theorem decode_eq_ok_iff_fullMask (w : Word) {i : Instr} (hwf : i.wellFormed = true) :
    decode w = .ok i ↔ w &&& 0xFFFFFFFF#32 = encode i := by
  rw [show w &&& 0xFFFFFFFF#32 = w from BitVec.and_allOnes]
  constructor
  · exact fun h => (encodeOfDecode w i h).2.symm
  · rintro rfl
    exact decodeOfEncode i hwf

/-- The row of ANALYZE. -/
theorem decode_eq_ok_analyze_iff (w : Word) (len : Nat) : decode w = .ok (.analyze len) ↔
    w &&& 0xFF000000#32 = 0x10000000#32 ∧ len = (w &&& 0x00FFFFFF#32).toNat := by
  have hop : w &&& 0xFF000000#32 = 0x10000000#32 ↔ bits w 31 24 = 0x10 := by
    rw [BitVec.toNat_eq, show 0xFF000000#32 = fieldMask 31 24 from rfl, toNat_and_fieldMask w (by decide),
      BitVec.toNat_ofNat]
    omega
  have hlen : (w &&& 0x00FFFFFF#32).toNat = bits w 23 0 := by
    rw [show 0x00FFFFFF#32 = fieldMask 23 0 from rfl, toNat_and_fieldMask w (by decide), pow_zero, mul_one]
  rw [decode_eq_ok_iff, hop, hlen, eq_comm (a := len)]
  rfl

/-- The row of RESYNTH. -/
theorem decode_eq_ok_resynth_iff (w : Word) (src : Source) : decode w = .ok (.resynth src) ↔
    w &&& 0xFFFFFFFE#32 = 0x20000000#32 ∧ (src = .xf ↔ w.getLsbD 0 = true) := by
  have hfields : w &&& 0xFFFFFFFE#32 = 0x20000000#32 ↔ bits w 31 24 = 0x20 ∧ bits w 23 1 = 0 := by
    rw [BitVec.toNat_eq, show 0xFFFFFFFE#32 = fieldMask 31 1 from rfl, toNat_and_fieldMask w (by decide),
      BitVec.toNat_ofNat]
    simp only [bits]
    omega
  have hsrc : srcOf w = src ↔ (src = .xf ↔ w.getLsbD 0 = true) := by
    cases src <;> simp [srcOf, bits, BitVec.getLsbD, Nat.testBit_zero]
  rw [decode_eq_ok_iff, Instr.operandField, operandField_eq_srcBit_iff, hfields, hsrc, ← and_assoc]
  rfl

/-! ## The causes -/

theorem decode_eq_illegalOpcode_iff (w : Word) :
    decode w = .error .illegalOpcode ↔ ¬ ∃ i, bits w 31 24 = opcode i := by
  refine ⟨fun h => ?_, decode_of_unassigned⟩
  rcases decode_cases w with ⟨hop, -⟩ | ⟨i, -, ⟨-, e⟩ | ⟨-, e⟩⟩
  · exact hop
  all_goals
    rw [e] at h
    cases h

theorem decode_eq_reservedField_iff (w : Word) :
    decode w = .error .reservedField ↔ ∃ i, bits w 31 24 = opcode i ∧ reservedSet i.format w = true := by
  constructor
  · intro h
    rcases decode_cases w with ⟨-, e⟩ | ⟨i, hi, ⟨hres, e⟩ | ⟨-, e⟩⟩ <;> rw [e] at h <;> cases h
    exact ⟨i, hi, hres⟩
  · rintro ⟨i, hi, hres⟩
    rw [decode_of_opcode hi, if_pos hres]

/-- The decoder raises its own two causes only (60_exceptions.md R211). -/
theorem eq_of_decode_eq_error {w : Word} {c : Cause} (h : decode w = .error c) :
    c = .illegalOpcode ∨ c = .reservedField := by
  rcases decode_cases w with ⟨-, e⟩ | ⟨i, -, ⟨-, e⟩ | ⟨-, e⟩⟩ <;> rw [e] at h <;> cases h
  · exact .inl rfl
  · exact .inr rfl

/-- A reserved field holds a 1: in format Z any bit of 23:0, in format S one of 23:1 (30_encoding.md R91). -/
theorem exists_reservedSet_iff (w : Word) : (∃ i, bits w 31 24 = opcode i ∧ reservedSet i.format w = true) ↔
    (bits w 31 24 ∈ [0x01, 0x02, 0x03, 0x04, 0x30] ∧ bits w 23 0 ≠ 0) ∨ (bits w 31 24 = 0x20 ∧ bits w 23 1 ≠ 0) := by
  constructor
  · rintro ⟨i, hi, hres⟩
    cases i <;> simp [opcode, Instr.format, reservedSet] at hi hres <;> simp [hi, hres]
  · rintro (⟨hop, hres⟩ | ⟨hop, hres⟩)
    · simp only [List.mem_cons, List.not_mem_nil, or_false] at hop
      have hz : reservedSet .z w = true := by simpa [reservedSet] using hres
      rcases hop with h | h | h | h | h
      exacts [⟨.cfftF, h, hz⟩, ⟨.cfftI, h, hz⟩, ⟨.rfft, h, hz⟩, ⟨.irfft, h, hz⟩, ⟨.reset, h, hz⟩]
    · exact ⟨.resynth .frame, hop, by simpa [Instr.format, reservedSet] using hres⟩

/-- Settles O3: row by row, then cause by cause. -/
theorem decoderMatchesOpcodeTable : Obligations.DecoderMatchesOpcodeTable := by
  intro w
  refine ⟨decode_eq_ok_iff_fullMask w rfl, decode_eq_ok_iff_fullMask w rfl, decode_eq_ok_iff_fullMask w rfl,
    decode_eq_ok_iff_fullMask w rfl, decode_eq_ok_analyze_iff w, decode_eq_ok_resynth_iff w,
    decode_eq_ok_iff_fullMask w rfl, ?_, ?_, fun h => ?_, fun h => ?_⟩
  · rw [toNat_ushiftRight_24, decode_eq_illegalOpcode_iff, exists_opcode_iff]
  · rw [toNat_ushiftRight_24, decode_eq_reservedField_iff, exists_reservedSet_iff]
    simp only [ne_eq, ← and_fieldMask_eq_zero_iff w (show 23 < 32 by decide)]
    rfl
  · simpa using eq_of_decode_eq_error h
  · simpa using eq_of_decode_eq_error h

end Sys2Proof
end

section
/-! PROOF. A write to CMD as a step, and SETRATE as two steps (30_encoding.md R90, R94, R99; 44_system.md R200). -/

namespace Sys2Proof.Machine

theorem performWrite_cmd (w : Word) (s : State) : performWrite cmdAddr w s = issue w (respond .done s) := rfl

theorem issue_of_decode {w : Word} {i : Instr} {s t : State} (herr : s.err = false) (hdec : decode w = .ok i)
    (hexec : exec i (setBusy true s) = .next t) : issue w s = .next (setBusy false t) := by
  simp [issue, herr, hdec, hexec]

/-- A step that issues a decodable word runs the command with BUSY = 1 and ends with BUSY = 0 (30_encoding.md R94). -/
theorem step_command {s t : State} {w : Word} {rest : List HostAction} {i : Instr} (hb : s.busy = false)
    (herr : s.err = false) (h : s.host = .write cmdAddr w :: rest) (hdec : decode w = .ok i)
    (hexec : exec i (setBusy true (respond .done (withHost rest s))) = .next t) :
    step s = .next (setBusy false t) := by
  rw [step_write hb h, performWrite_cmd]
  exact issue_of_decode (s := respond .done (withHost rest s)) herr hdec hexec

/-- Settles O5: every command answers a next state, so its step ends with BUSY = 0. -/
theorem stepRunsDecodedCommand : Obligations.StepRunsDecodedCommand := by
  intro s rest w i hb herr h hdec
  obtain ⟨t, hexec, -⟩ := exec_cases i (setBusy true (respond .done (withHost rest s)))
  exact ⟨t, hexec, step_command hb herr h hdec hexec⟩

theorem core_run_two {s t u : State} (h : step s = .next t) (h' : step t = .next u) : core.run 2 s = .next u := by
  simp [Host.Core.run, core, h, h']

theorem step_write_arg {s : State} {v : Word} {rest : List HostAction} (hb : s.busy = false)
    (h : s.host = .write (addrOf (.csr .arg)) v :: rest) :
    step s = .next { s with host := rest, response := .done, arg := v } := by
  rw [step_write hb h]
  rfl

theorem exec_reset_of_legal {s : State} (h : isLegalRate s.arg = true) :
    exec .reset s = .next { s with rates := ratesOf num s.cfg s.arg } := by
  simp [exec, execReset, rateOperand, h]

theorem step_reset_of_legal {s : State} {rest : List HostAction} (hb : s.busy = false) (herr : s.err = false)
    (hrate : isLegalRate s.arg = true) (h : s.host = issueAction .reset :: rest) :
    step s = .next { s with host := rest, response := .done, rates := ratesOf num s.cfg s.arg } := by
  rw [step_command hb herr h (decodeOfEncode .reset rfl) (exec_reset_of_legal hrate)]
  simp [setBusy, respond, withHost, hb]

/-- Settles O32: the first step stores `v` in ARG, the second runs RESET on it. -/
theorem setRatePseudoInstruction : Obligations.SetRatePseudoInstruction := by
  intro s v rest hb herr hv h
  exact core_run_two (step_write_arg hb h) (step_reset_of_legal hb herr hv rfl)

end Sys2Proof.Machine
end

section
/-! PROOF. The bin operations under the ideal semantics: polar form is norm and argument, and the two frequency conversions
undo each other (40_bin_ops.md R111, R112, R116, R117). -/

namespace Sys2Proof.Machine

/-! ## Polar form -/

theorem toC_eq_zero_iff (c : Cx ℝ) : toC c = 0 ↔ c.re = 0 ∧ c.im = 0 := Complex.ext_iff

/-- R111 sets the phase of the zero value to 0, which is also Mathlib's argument of 0. -/
theorem arg_ideal_eq_complexArg (c : Cx ℝ) : arg ideal c.re c.im = Complex.arg (toC c) := by
  by_cases hc : toC c = 0
  · obtain ⟨hre, him⟩ := (toC_eq_zero_iff c).1 hc
    rw [hc, Complex.arg_zero]
    simp [arg, ideal, zero, hre, him]
  · have hne : ¬ (c.re = 0 ∧ c.im = 0) := fun h => hc ((toC_eq_zero_iff c).2 h)
    simp [arg, ideal, hne, toC]

theorem toPolar_ideal_eq (c : Cx ℝ) : toPolar ideal c = (‖toC c‖, Complex.arg (toC c)) := by
  have hnorm : ‖toC c‖ = √(c.re * c.re + c.im * c.im) := by
    rw [Complex.norm_def, Complex.normSq_apply]
    rfl
  rw [hnorm, ← arg_ideal_eq_complexArg]
  rfl

theorem toRect_ideal_eq (a φ : ℝ) : toRect ideal a φ = ⟨a * Real.cos φ, a * Real.sin φ⟩ := rfl

theorem toRect_norm_complexArg (c : Cx ℝ) : toRect ideal ‖toC c‖ (Complex.arg (toC c)) = c := by
  rw [toRect_ideal_eq, Complex.norm_mul_cos_arg, Complex.norm_mul_sin_arg]
  rfl

/-- Settles O51: amplitude and phase are norm and argument, also for the zero value. -/
theorem polarFormRoundTrip : Obligations.PolarFormRoundTrip := by
  intro c
  rw [toPolar_ideal_eq]
  exact ⟨norm_nonneg _, Complex.neg_pi_lt_arg _, Complex.arg_le_pi _, toRect_norm_complexArg c⟩

/-! ## Frequency conversions -/

theorem LegalGeometry.h_pos {V : Type} {cfg : Config V} (h : LegalGeometry cfg) : 0 < cfg.h := by
  obtain ⟨-, hh, -⟩ := h
  exact hh

/-- FACA and FACS are reciprocal as long as neither divides by zero (10_state.md R45). -/
theorem ratesOf_ideal_facA_mul_facS {c : Config ℝ} {sr : ℝ} (hh : 0 < c.h) (hsr : sr ≠ 0) :
    (ratesOf ideal c sr).facA * (ratesOf ideal c sr).facS = 1 := by
  have hhop : 2 * Real.pi * c.h ≠ 0 := mul_ne_zero Real.two_pi_pos.ne' (Nat.cast_ne_zero.2 hh.ne')
  simp only [ratesOf, twoPi, ideal, Nat.cast_ofNat]
  rw [div_mul_div_cancel₀ hhop, div_self hsr]

/-- The bin centre that PH2HZ adds is the one HZ2INC subtracts, so only the two rate factors are left. -/
theorem hz2inc_ph2hz_ideal (r : Rates ℝ) (d : ℝ) (k : Nat) :
    hz2inc ideal r (ph2hz ideal r d k) k = d * (r.facA * r.facS) := by
  simp only [hz2inc, ph2hz, ideal, add_sub_cancel_left, mul_assoc]

/-- Settles O53: a legal hop and a positive rate make FACA and FACS reciprocal. -/
theorem frequencyConversionsInvert : Obligations.FrequencyConversionsInvert := by
  intro c sr d k hc hsr
  rw [hz2inc_ph2hz_ideal, ratesOf_ideal_facA_mul_facS hc.h_pos hsr.ne', mul_one]

end Sys2Proof.Machine
end

section
/-! PROOF. Every command leaves the host space outside its own regions as it was (41_transform.md R133 to R138,
42_analyzer.md R161, 43_resynth.md R181, 44_system.md R201). -/

namespace Sys2Proof.Machine

/-! ## What a location shows -/

theorem hostRead_congr {s t : State} {a : Addr} (hcfg : t.cfg = s.cfg)
    (h : ∀ loc, loc.region = regionOf a → addrOf loc = a → readLoc t loc = readLoc s loc) :
    hostRead t a = hostRead s a := by
  unfold hostRead
  rw [hcfg]
  cases hloc : locate s.cfg a with
  | none => rfl
  | some loc => exact congrArg some (h loc (region_offset_of_locate hloc).1 (addrOf_of_locate hloc))

theorem readLoc_withCb {loc : Loc} (h : loc.region ≠ 0x7) (s : State) (cb : List (Cx Word)) :
    readLoc { s with cb := cb } loc = readLoc s loc := by
  cases loc with
  | cb => exact absurd rfl h
  | csr r => cases r <;> rfl
  | _ => rfl

/-- TS has no address. -/
theorem readLoc_withEngine {loc : Loc} {s : State} {te : Engine Word} (hrb : loc.region = 0x5 → te.rb = s.te.rb)
    (hsp : loc.region = 0x6 → te.sp = s.te.sp) : readLoc { s with te := te } loc = readLoc s loc := by
  cases loc with
  | rb => simp only [readLoc, hrb rfl]
  | sp => simp only [readLoc, hsp rfl]
  | csr r => cases r <;> rfl
  | _ => rfl

theorem readLoc_withResynthEngine {loc : Loc} (hsout : loc.region ≠ 0x2) (hrb : loc.region ≠ 0x5)
    (hsp : loc.region ≠ 0x6) (s : State) (rs : Resynth Word) (te : Engine Word) :
    readLoc { s with rs := rs, te := te } loc = readLoc s loc := by
  rw [← readLoc_withEngine (s := s) (te := te) (absurd · hrb) (absurd · hsp)]
  cases loc with
  | sout => exact absurd rfl hsout
  | csr r => cases r <;> rfl
  | _ => rfl

theorem readLoc_withAnalyzerEngine {loc : Loc} (hframe : loc.region ≠ 0x3)
    (hcsr : (addrOf loc).toNat ∉ [0x05, 0x06, 0x07]) (hrb : loc.region ≠ 0x5) (hsp : loc.region ≠ 0x6) (s : State)
    (an : Analyzer Word) (te : Engine Word) : readLoc { s with an := an, te := te } loc = readLoc s loc := by
  rw [← readLoc_withEngine (s := s) (te := te) (absurd · hrb) (absurd · hsp)]
  cases loc with
  | frame => exact absurd rfl hframe
  | csr r =>
    cases r with
    | fcnt | hnum | pos => exact absurd (by decide) hcsr
    | _ => rfl
  | _ => rfl

theorem readLoc_withRates {loc : Loc} (hcsr : (addrOf loc).toNat ∉ [0x08, 0x09, 0x0A, 0x0B]) (s : State)
    (r : Rates Word) : readLoc { s with rates := r } loc = readLoc s loc := by
  cases loc with
  | csr r =>
    cases r with
    | srate | facA | facS | binw => exact absurd (by decide) hcsr
    | _ => rfl
  | _ => rfl

/-! ## The commands -/

/-- Settles O29: `exec_cases` names the parts a command replaces, and a location of another region shows none of them. -/
theorem commandsLeaveOtherLocations : Obligations.CommandsLeaveOtherLocations := by
  intro s t
  have hnext {i : Instr} {u : State} (h : exec i s = .next u) (h' : exec i s = .next t) : u = t :=
    Host.Outcome.next.inj (h.symm.trans h')
  refine ⟨?_, fun e a ha => ?_, fun e a ha => ?_, fun src e a hsout hrb hsp => ?_,
    fun len hlen e a hframe hrb hsp hcsr => ?_, fun hrate e a hcsr => ?_⟩
  · rintro (e | e) a ha <;>
      (obtain rfl := hnext rfl e; exact hostRead_congr rfl fun loc hr _ => readLoc_withCb (hr ▸ ha) s _)
  · obtain rfl := hnext rfl e
    exact hostRead_congr rfl fun loc hr _ => readLoc_withEngine (fun _ => rfl) fun h => absurd (hr ▸ h) ha
  · obtain rfl := hnext rfl e
    exact hostRead_congr rfl fun loc hr _ => readLoc_withEngine (fun h => absurd (hr ▸ h) ha) fun _ => rfl
  · obtain rfl := hnext rfl e
    exact hostRead_congr rfl fun loc hr _ => readLoc_withResynthEngine (hr ▸ hsout) (hr ▸ hrb) (hr ▸ hsp) s _ _
  · obtain ⟨u, e', c⟩ := exec_cases (.analyze len) s
    obtain rfl := hnext e' e
    rcases c with ⟨hlong, -⟩ | ⟨-, rfl⟩
    · exact absurd hlen (Nat.not_le_of_lt hlong)
    · exact hostRead_congr rfl fun loc hr ha =>
        readLoc_withAnalyzerEngine (hr ▸ hframe) (ha ▸ hcsr) (hr ▸ hrb) (hr ▸ hsp) s _ _
  · obtain rfl := hnext (exec_reset_of_legal hrate) e
    exact hostRead_congr rfl fun loc _ ha => readLoc_withRates (ha ▸ hcsr) s _

end Sys2Proof.Machine
end

section
/-! PROOF. Bit reversal (41_transform.md R131) and the in-place loops of the Transform Engine: a loop in which every element
is written in one iteration of its own leaves each element's value of that iteration. -/

namespace Sys2Proof.Machine

/-! ## `bitrev` -/

theorem bitrev_zero (i : Nat) : bitrev i 0 = 0 := rfl

theorem bitrev_succ (i p : Nat) : bitrev i (p + 1) = i % 2 * 2 ^ p + bitrev (i / 2) p := rfl

theorem bitrev_lt (i p : Nat) : bitrev i p < 2 ^ p := by
  induction p generalizing i with
  | zero => exact Nat.one_pos
  | succ p ih =>
    have hhigh : i % 2 * 2 ^ p ≤ 1 * 2 ^ p := Nat.mul_le_mul_right _ (by omega)
    have hlow := ih (i / 2)
    rw [bitrev_succ, pow_succ]
    omega

theorem testBit_bitrev {i p j : Nat} (hj : j < p) : (bitrev i p).testBit j = i.testBit (p - 1 - j) := by
  induction p generalizing i with
  | zero => exact absurd hj (Nat.not_lt_zero j)
  | succ p ih =>
    rw [bitrev_succ, Nat.mul_comm, Nat.testBit_two_pow_mul_add _ (bitrev_lt _ _)]
    split
    next hlow =>
      obtain ⟨d, hd⟩ : ∃ d, p = j + 1 + d := ⟨p - (j + 1), by omega⟩
      rw [ih hlow, Nat.testBit_div_two]
      congr 1
      omega
    next hhigh =>
      obtain rfl : j = p := by omega
      simp [Nat.testBit_zero]

/-- Reading backwards twice gives the number back. -/
theorem bitrev_bitrev {i p : Nat} (h : i < 2 ^ p) : bitrev (bitrev i p) p = i := by
  refine Nat.eq_of_testBit_eq fun j => ?_
  by_cases hj : j < p
  · rw [testBit_bitrev hj, testBit_bitrev (by omega), show p - 1 - (p - 1 - j) = j by omega]
  · have hpow : 2 ^ p ≤ 2 ^ j := Nat.pow_le_pow_right two_pos (Nat.le_of_not_lt hj)
    rw [Nat.testBit_lt_two_pow ((bitrev_lt _ p).trans_le hpow), Nat.testBit_lt_two_pow (h.trans_le hpow)]

/-- Settles O44: the bits by induction on the width, the list of R131 by evaluation. -/
theorem bitReversalReadsBackwards : Obligations.BitReversalReadsBackwards := fun p i _ =>
  ⟨bitrev_lt i p, bitrev_zero i, fun _ hj => testBit_bitrev hj, by decide⟩

/-! ## In-place loops -/

section
variable {V : Type} {num : Num V}

/-- The rule of the in-place loops. `owner i` is the one iteration that writes element `i`, and `target i` what it writes
there when no earlier iteration has touched what it reads. -/
theorem cxAt_forTo_owner {n : Nat} {body : Nat → List (Cx V) → List (Cx V)} {a : List (Cx V)} (owner : Nat → Nat)
    (target : Nat → Cx V)
    (hbody : ∀ t < n, ∀ x : List (Cx V), x.length = a.length →
      (∀ i < a.length, owner i = t → cxAt num x i = cxAt num a i) →
      (body t x).length = a.length ∧
      ∀ i < a.length, cxAt num (body t x) i = if owner i = t then target i else cxAt num x i) :
    ∀ i < a.length, cxAt num (forTo n body a) i = if owner i < n then target i else cxAt num a i := by
  have hloop : (forTo n body a).length = a.length ∧
      ∀ i < a.length, cxAt num (forTo n body a) i = if owner i < n then target i else cxAt num a i := by
    refine forTo_induct (fun t (x : List (Cx V)) => x.length = a.length ∧
      ∀ i < a.length, cxAt num x i = if owner i < t then target i else cxAt num a i) ⟨rfl, by simp⟩ ?_
    rintro t ht x ⟨hlen, hx⟩
    obtain ⟨hlen', hx'⟩ := hbody t ht x hlen fun i hi ho => by rw [hx i hi, if_neg (by omega)]
    refine ⟨hlen', fun i hi => ?_⟩
    rw [hx' i hi, hx i hi]
    by_cases ho : owner i = t
    · rw [if_pos ho, if_pos (by omega)]
    · simp only [if_neg ho, show owner i < t + 1 ↔ owner i < t by omega]
  exact hloop.2

/-- Element `i` after two elements are written, the second one last. -/
theorem cxAt_set_set {a : List (Cx V)} {j k : Nat} (hj : j < a.length) (hk : k < a.length) (x y : Cx V) (i : Nat) :
    cxAt num ((a.set j x).set k y) i = if i = k then y else if i = j then x else cxAt num a i := by
  rw [cxAt_set num (by simpa using hk), cxAt_set num hj]

theorem cxAt_swapAt {a : List (Cx V)} {j k : Nat} (hj : j < a.length) (hk : k < a.length) (i : Nat) :
    cxAt num (swapAt num a j k) i = if i = k then cxAt num a j else if i = j then cxAt num a k else cxAt num a i := by
  rw [swapAt, cxAt_set_set hj hk]

/-- The bit-reversal permutation moves element `bitrev i` to `i`: iteration `min i (bitrev i)` swaps the two. -/
theorem cxAt_bitReverse {p i : Nat} {a : List (Cx V)} (ha : a.length = 2 ^ p) (hi : i < 2 ^ p) :
    cxAt num (bitReverse num (2 ^ p) p a) i = cxAt num a (bitrev i p) := by
  refine (cxAt_forTo_owner (fun i => min i (bitrev i p)) (fun i => cxAt num a (bitrev i p)) ?_ i (ha ▸ hi)).trans
    (if_pos (Nat.lt_of_le_of_lt (Nat.min_le_left _ _) hi))
  intro t ht x hlen hx
  have hrev := bitrev_bitrev ht
  have hlt := bitrev_lt t p
  refine ⟨by split <;> simp [hlen], fun i hi => ?_⟩
  have hinv := bitrev_bitrev (ha ▸ hi)
  have hother : bitrev i p = t ↔ i = bitrev t p := ⟨fun h => h ▸ hinv.symm, fun h => h ▸ hrev⟩
  split
  next hswap =>
    rw [cxAt_swapAt (by omega) (by omega), hx t (by omega) (by omega), hx (bitrev t p) (by omega) (by omega)]
    split_ifs
    · next h _ => rw [hother.2 h]
    · omega
    · next h _ => rw [h]
    · next h _ => subst h; omega
    · omega
    · rfl
  next hkeep =>
    split
    next hown =>
      obtain rfl : i = t := by omega
      rw [hx i hi hown, show bitrev i p = i by omega]
    next => rfl
end

end Sys2Proof.Machine
end

section
/-! PROOF. The complex core is the even/odd recursion (41_transform.md R132). -/

namespace Sys2Proof.Machine

variable {V : Type} {num : Num V} {dir : Direction}

/-! ## One stage -/

/-- What a butterfly at place `j` of its group puts into its upper or its lower element (41_transform.md R132). -/
def butterflyAt (num : Num V) (dir : Direction) (half j : Nat) (upper : Bool) (u v : Cx V) : Cx V :=
  if upper then Cx.sub num u (Cx.mul num (twiddle num dir j (2 * half)) v)
  else Cx.add num u (Cx.mul num (twiddle num dir j (2 * half)) v)

/-- The lower one of the two elements that the butterfly of element `i` joins. -/
def partnerLow (half i : Nat) : Nat := i / (2 * half) * (2 * half) + i % half

/-- Element `i` after the stage whose groups have `2 × half` elements (41_transform.md R132). -/
def stageAt (num : Num V) (dir : Direction) (half : Nat) (x : Nat → Cx V) (i : Nat) : Cx V :=
  butterflyAt num dir half (i % half) (half ≤ i % (2 * half)) (x (partnerLow half i)) (x (partnerLow half i + half))

theorem stageAt_congr {half i : Nat} {x y : Nat → Cx V} (hlow : x (partnerLow half i) = y (partnerLow half i))
    (hhigh : x (partnerLow half i + half) = y (partnerLow half i + half)) :
    stageAt num dir half x i = stageAt num dir half y i := by
  rw [stageAt, hlow, hhigh, stageAt]

/-- The place of an element in the two halves of its group. -/
theorem mod_two_mul_cases (half i : Nat) :
    i % (2 * half) = i % half ∨ i % (2 * half) = i % half + half := by
  rw [Nat.mul_comm, Nat.mod_mul]
  rcases Nat.mod_two_eq_zero_or_one (i / half) with h | h <;> simp [h]

theorem eq_partnerLow_cases {half : Nat} (hpos : 0 < half) (i : Nat) :
    (i % (2 * half) < half ∧ i = partnerLow half i) ∨ (half ≤ i % (2 * half) ∧ i = partnerLow half i + half) := by
  have hdiv := Nat.div_add_mod i (2 * half)
  have hlt := Nat.mod_lt i hpos
  rw [Nat.mul_comm] at hdiv
  unfold partnerLow
  rcases mod_two_mul_cases half i with h | h <;> omega

theorem group_div_mod {span r : Nat} (hr : r < span) (g : Nat) :
    (g * span + r) / span = g ∧ (g * span + r) % span = r :=
  (Nat.div_mod_unique (Nat.zero_lt_of_lt hr)).2 ⟨by rw [Nat.add_comm, Nat.mul_comm], hr⟩

/-- The group and the place of the elements a butterfly joins. -/
theorem group_and_place {half g j : Nat} (hj : j < half) :
    ((g * (2 * half) + j) / (2 * half) = g ∧ (g * (2 * half) + j) % half = j) ∧
    ((g * (2 * half) + j + half) / (2 * half) = g ∧ (g * (2 * half) + j + half) % half = j) := by
  have hmod : (g * (2 * half) + j) % half = j := by
    rw [← Nat.mul_assoc, Nat.mul_add_mod_self_right, Nat.mod_eq_of_lt hj]
  refine ⟨⟨(group_div_mod (by omega) g).1, hmod⟩, ?_, by rw [Nat.add_mod_right, hmod]⟩
  rw [Nat.add_assoc]
  exact (group_div_mod (by omega) g).1

theorem partnerLow_add_half_lt {half i len : Nat} (hpos : 0 < half) (hi : i / (2 * half) * (2 * half) + 2 * half ≤ len) :
    partnerLow half i + half < len := by
  have hlt := Nat.mod_lt i hpos
  unfold partnerLow
  omega

/-- A butterfly writes the two elements of its group at its place. -/
theorem cxAt_butterfly {half g j : Nat} {a : List (Cx V)} (hj : j < half) (hg : g * (2 * half) + 2 * half ≤ a.length)
    (i : Nat) : cxAt num (butterfly num dir (2 * half) (g * (2 * half)) j a) i =
      if i / (2 * half) = g ∧ i % half = j then stageAt num dir half (cxAt num a) i else cxAt num a i := by
  have hhalf : 2 * half / 2 = half := by omega
  simp only [butterfly, hhalf]
  rw [cxAt_set_set (by omega) (by omega)]
  by_cases hown : i / (2 * half) = g ∧ i % half = j
  · rw [if_pos hown, stageAt, hown.2, show g * (2 * half) + j = partnerLow half i by rw [partnerLow, hown.1, hown.2]]
    rcases eq_partnerLow_cases (Nat.zero_lt_of_lt hj) i with ⟨hr, hi⟩ | ⟨hr, hi⟩
    · rw [if_neg (by omega), if_pos hi]
      simp [butterflyAt, Nat.not_le_of_lt hr]
    · rw [if_pos hi]
      simp [butterflyAt, hr]
  · obtain ⟨hlow, hhigh⟩ := group_and_place (g := g) hj
    rw [if_neg hown, if_neg fun h => hown (by rwa [h]), if_neg fun h => hown (by rwa [h])]

/-- The butterflies of one group. -/
theorem cxAt_group {half g i : Nat} {a : List (Cx V)} (hpos : 0 < half)
    (hg : g * (2 * half) + 2 * half ≤ a.length) (hi : i < a.length) :
    cxAt num (forTo half (fun j x => butterfly num dir (2 * half) (g * (2 * half)) j x) a) i =
      if i / (2 * half) = g then stageAt num dir half (cxAt num a) i else cxAt num a i := by
  have howner (i j : Nat) (hj : j < half) :
      (if i / (2 * half) = g then i % half else half) = j ↔ i / (2 * half) = g ∧ i % half = j := by
    by_cases h : i / (2 * half) = g
    · simp [h]
    · simp only [h, if_false, false_and, iff_false]
      omega
  rw [cxAt_forTo_owner (fun i => if i / (2 * half) = g then i % half else half)
    (stageAt num dir half (cxAt num a)) (fun j hj x hlen hx => ⟨by simp [hlen], fun i hi => ?_⟩) i hi]
  · by_cases h : i / (2 * half) = g <;> simp [h, Nat.mod_lt i hpos]
  · simp only [cxAt_butterfly hj (hlen ▸ hg), howner i j hj]
    split
    next h =>
      obtain ⟨rfl, rfl⟩ := h
      obtain ⟨hlow, hhigh⟩ := group_and_place (g := i / (2 * half)) hj
      have hlen' := partnerLow_add_half_lt hpos hg
      exact stageAt_congr (hx _ (by omega) ((howner _ _ hj).2 hlow)) (hx _ hlen' ((howner _ _ hj).2 hhigh))
    next => rfl

/-- One stage, element by element. -/
theorem cxAt_stage {half groups i : Nat} {a : List (Cx V)} (hpos : 0 < half) (ha : a.length = groups * (2 * half))
    (hi : i < a.length) :
    cxAt num (stage num dir a.length (2 * half) a) i = stageAt num dir half (cxAt num a) i := by
  have hspan : 0 < 2 * half := by omega
  have hhalf : 2 * half / 2 = half := by omega
  have hgroups : a.length / (2 * half) = groups := by rw [ha, Nat.mul_div_cancel _ hspan]
  have hgroup {g : Nat} (hg : g < groups) : g * (2 * half) + 2 * half ≤ a.length := by
    rw [← Nat.succ_mul, ha]
    exact Nat.mul_le_mul_right _ hg
  rw [stage, hgroups, hhalf]
  refine (cxAt_forTo_owner (fun i => i / (2 * half)) (stageAt num dir half (cxAt num a)) ?_ i hi).trans
    (if_pos (Nat.div_lt_of_lt_mul (by rwa [Nat.mul_comm, ← ha])))
  intro g hg x hlen hx
  refine ⟨(length_forTo fun _ _ _ => length_butterfly ..).trans hlen, fun i hi => ?_⟩
  simp only [cxAt_group hpos (hlen ▸ hgroup hg) (hlen ▸ hi)]
  split
  next h =>
    subst h
    obtain ⟨⟨hlow, -⟩, hhigh, -⟩ := group_and_place (g := i / (2 * half)) (Nat.mod_lt i hpos)
    have hlen' := partnerLow_add_half_lt hpos (hgroup hg)
    exact stageAt_congr (hx _ (by omega) hlow) (hx _ hlen' hhigh)
  next => rfl

/-! ## All stages -/

/-- Element `k` of block `q` after `t` stages, `2^r` blocks in all: the recursion over the elements of `a` whose index is
`bitrev q` modulo `2^r`. -/
def blockAt (num : Num V) (dir : Direction) (a : List (Cx V)) (t r q k : Nat) : Cx V :=
  fftRec num dir t (fun j => cxAt num a (j * 2 ^ r + bitrev q r)) k

/-- A block of the next stage joins two neighbouring blocks. -/
theorem blockAt_succ (a : List (Cx V)) (t r q k : Nat) :
    blockAt num dir a (t + 1) r q k =
      butterflyAt num dir (2 ^ t) (k % 2 ^ t) (2 ^ t ≤ k) (blockAt num dir a t (r + 1) (2 * q) (k % 2 ^ t))
        (blockAt num dir a t (r + 1) (2 * q + 1) (k % 2 ^ t)) := by
  have heven (j : Nat) : j * 2 ^ (r + 1) + bitrev (2 * q) (r + 1) = 2 * j * 2 ^ r + bitrev q r := by
    rw [bitrev_succ, Nat.mul_mod_right, Nat.mul_div_cancel_left q two_pos]; ring
  have hodd (j : Nat) : j * 2 ^ (r + 1) + bitrev (2 * q + 1) (r + 1) = (2 * j + 1) * 2 ^ r + bitrev q r := by
    rw [bitrev_succ, show (2 * q + 1) % 2 = 1 by omega, show (2 * q + 1) / 2 = q by omega]; ring
  simp only [blockAt, fftRec, heven, hodd, butterflyAt, decide_eq_true_eq]
  rw [pow_succ' 2 t, ← ite_not (p := k < 2 ^ t)]
  simp only [Nat.not_lt]

/-- Element `k` of group `q` after a stage. -/
theorem stageAt_group {half k : Nat} (hk : k < 2 * half) (q : Nat) (x : Nat → Cx V) :
    stageAt num dir half x (q * (2 * half) + k) =
      butterflyAt num dir half (k % half) (half ≤ k) (x (2 * q * half + k % half))
        (x ((2 * q + 1) * half + k % half)) := by
  obtain ⟨hdiv, hmod⟩ := group_div_mod hk q
  have hplace : (q * (2 * half) + k) % half = k % half := by rw [← Nat.mul_assoc, Nat.mul_add_mod_self_right]
  have hlow : q * (2 * half) = 2 * q * half := by ring
  have hhigh : 2 * q * half + k % half + half = (2 * q + 1) * half + k % half := by ring
  rw [stageAt, partnerLow, hdiv, hmod, hplace, hlow, hhigh]

theorem cxAt_cfftCore_blocks {p : Nat} {a : List (Cx V)} (ha : a.length = 2 ^ p) :
    ∀ r q k, p + r = p → q < 2 ^ r → k < 2 ^ p →
      cxAt num (cfftCore num dir (2 ^ p) a) (q * 2 ^ p + k) = blockAt num dir a p r q k := by
  rw [cfftCore, Nat.log2_two_pow]
  refine (forTo_induct (fun t (x : List (Cx V)) => x.length = 2 ^ p ∧ ∀ r q k, t + r = p → q < 2 ^ r → k < 2 ^ t →
    cxAt num x (q * 2 ^ t + k) = blockAt num dir a t r q k) ⟨by simpa using ha, ?_⟩ ?_).2
  · intro r q k hr hq hk
    obtain rfl : r = p := by omega
    obtain rfl : k = 0 := by omega
    simpa [blockAt, fftRec] using cxAt_bitReverse ha hq
  · rintro t ht x ⟨hlen, hx⟩
    refine ⟨by simpa using hlen, fun r q k hr hq hk => ?_⟩
    have hpos := Nat.two_pow_pos t
    have hplace := Nat.mod_lt k hpos
    have hp : 2 ^ p = 2 ^ r * (2 * 2 ^ t) := by rw [← pow_succ', ← pow_add, Nat.add_comm, hr]
    have hq' : 2 * q + 1 < 2 ^ (r + 1) := by omega
    rw [pow_succ'] at hk ⊢
    have hi : q * (2 * 2 ^ t) + k < 2 ^ p := calc
      q * (2 * 2 ^ t) + k < q * (2 * 2 ^ t) + 2 * 2 ^ t := Nat.add_lt_add_left hk _
      _ = (q + 1) * (2 * 2 ^ t) := (Nat.succ_mul q _).symm
      _ ≤ 2 ^ p := hp ▸ Nat.mul_le_mul_right _ hq
    rw [← hlen, cxAt_stage hpos (hlen.trans hp) (hlen ▸ hi), stageAt_group hk, blockAt_succ,
      hx (r + 1) (2 * q) _ (by omega) (by omega) hplace, hx (r + 1) (2 * q + 1) _ (by omega) hq' hplace]

/-- The core computes the recursion, element by element. -/
theorem cxAt_cfftCore {p : Nat} {a : List (Cx V)} (ha : a.length = 2 ^ p) {k : Nat} (hk : k < 2 ^ p) :
    cxAt num (cfftCore num dir (2 ^ p) a) k = fftRec num dir p (cxAt num a) k := by
  simpa [blockAt, bitrev_zero] using cxAt_cfftCore_blocks ha 0 0 k rfl Nat.one_pos hk

/-- Settles O45: after t stages every block holds the recursion over its elements, and at the end one block
is left. -/
theorem coreIsEvenOddRecursion : Obligations.CoreIsEvenOddRecursion := fun _ nm dir p a ha =>
  ⟨(length_cfftCore nm dir (2 ^ p) a).trans ha, fun _ hk => cxAt_cfftCore ha hk⟩

end Sys2Proof.Machine
end

section
/-! PROOF. What CFFT.F, CFFT.I, RFFT and IRFFT leave, element by element, for any numerics (41_transform.md R133 to R138). -/

namespace Sys2Proof.Machine

variable {V : Type} {num : Num V} {cfg : Config V}

/-! ## The complex transforms -/

theorem LegalGeometry.n_eq_two_pow (h : LegalGeometry cfg) : ∃ p, cfg.n = 2 ^ (p + 1) := by
  obtain ⟨⟨p, -, hp, hn⟩, -⟩ := h
  exact ⟨p - 1, by rw [hn, Nat.sub_add_cancel hp]⟩

theorem LegalGeometry.m_eq_two_pow (h : LegalGeometry cfg) : ∃ p, cfg.m = 2 ^ p := by
  obtain ⟨p, hn⟩ := h.n_eq_two_pow
  exact ⟨p, by rw [Config.m, hn, pow_succ, Nat.mul_div_cancel _ two_pos]⟩

theorem LegalGeometry.two_mul_m (h : LegalGeometry cfg) : 2 * cfg.m = cfg.n := by
  have := h.n_even
  unfold Config.m
  omega

theorem LegalGeometry.m_pos (h : LegalGeometry cfg) : 0 < cfg.m := by
  have := h.two_mul_m
  have := h.n_pos
  omega

/-- An element after the division of the normalised direction (41_transform.md R130). -/
def scaledAt (num : Num V) (cfg : Config V) (dir : Direction) (c : Cx V) : Cx V :=
  if normalises cfg.norm dir then Cx.divBy num c (num.ofNat cfg.n) else c

theorem scaledAt_forward (c : Cx V) : scaledAt num cfg .forward c =
    if cfg.norm = .fwd then ⟨num.div c.re (num.ofNat cfg.n), num.div c.im (num.ofNat cfg.n)⟩ else c := by
  simp [scaledAt, normalises, Cx.divBy]

theorem scaledAt_inverse (c : Cx V) : scaledAt num cfg .inverse c =
    if cfg.norm = .inv then ⟨num.div c.re (num.ofNat cfg.n), num.div c.im (num.ofNat cfg.n)⟩ else c := by
  simp [scaledAt, normalises, Cx.divBy]

theorem cxAt_scaleBy (dir : Direction) {a : List (Cx V)} {k : Nat} (hk : k < a.length) :
    cxAt num (scaleBy num cfg dir a) k = scaledAt num cfg dir (cxAt num a k) := by
  unfold scaleBy scaledAt
  split
  · simp [cxAt, List.getD_eq_getElem?_getD, hk]
  · rfl

theorem cxAt_cfft (hcfg : LegalGeometry cfg) (dir : Direction) {cb : List (Cx V)} (hcb : cb.length = cfg.n) {k : Nat}
    (hk : k < cfg.n) : cxAt num (cfft num cfg dir cb) k =
      scaledAt num cfg dir (fftRec num dir (Nat.log2 cfg.n) (cxAt num cb) k) := by
  obtain ⟨p, hn⟩ := hcfg.n_eq_two_pow
  rw [cfft, cxAt_scaleBy dir (by simpa [hcb] using hk), hn, Nat.log2_two_pow, cxAt_cfftCore (hcb.trans hn) (hn ▸ hk)]

/-- Settles O46: `cxAt_cfft` in the two directions. -/
theorem cfftTransformsInPlace : Obligations.CfftTransformsInPlace := by
  intro s hcfg hwf
  obtain ⟨-, -, -, hcb, -⟩ := (memory_wf_iff s).1 hwf
  refine ⟨⟨_, execCfftF_next s, by simpa using hcb, fun k hk => ?_⟩,
    ⟨_, execCfftI_next s, by simpa using hcb, fun k hk => ?_⟩⟩
  · rw [cxAt_cfft hcfg.1 .forward hcb hk, scaledAt_forward]
  · rw [cxAt_cfft hcfg.1 .inverse hcb hk, scaledAt_inverse]

/-! ## The loops over slots k and M - k -/

/-- In a loop that carries the twiddle `w <- w × w1` along, iteration `t` finds `recurTwiddle t`. -/
theorem forTo_recurTwiddle {σ : Type} (body : Nat → Cx V → σ → σ) (w1 : Cx V) (n : Nat) (s : σ) :
    forTo n (fun t (p : σ × Cx V) => (body t p.2 p.1, Cx.mul num p.2 w1)) (s, w1) =
      (forTo n (fun t x => body t (recurTwiddle num w1 t) x) s, recurTwiddle num w1 n) := by
  induction n with
  | zero => rfl
  | succ n ih => rw [forTo_succ, ih, forTo_succ, recurTwiddle]

/-- Slots k and M - k rewritten from their two values: slot k by `lo`, then slot M - k by `hi`. -/
def pairUpdate (num : Num V) (m k : Nat) (lo hi : Cx V → Cx V → Cx V) (ts : List (Cx V)) : List (Cx V) :=
  (ts.set k (lo (cxAt num ts k) (cxAt num ts (m - k)))).set (m - k) (hi (cxAt num ts k) (cxAt num ts (m - k)))

/-- What a loop over the pairs k = 1..M/2 leaves: slot 0 as it was, and in every other slot the value its own pair gives. -/
theorem cxAt_pairLoop {m : Nat} {ts : List (Cx V)} (hts : ts.length = m) (lo hi : Nat → Cx V → Cx V → Cx V) {i : Nat}
    (hi' : i < m) : cxAt num (forTo (m / 2) (fun t x => pairUpdate num m (t + 1) (lo t) (hi t) x) ts) i =
      if i = 0 then cxAt num ts 0
      else if 2 * i < m then lo (i - 1) (cxAt num ts i) (cxAt num ts (m - i))
      else hi (m - i - 1) (cxAt num ts (m - i)) (cxAt num ts i) := by
  rw [cxAt_forTo_owner (fun i => if i = 0 then m else min i (m - i) - 1)
    (fun i => if 2 * i < m then lo (i - 1) (cxAt num ts i) (cxAt num ts (m - i))
      else hi (m - i - 1) (cxAt num ts (m - i)) (cxAt num ts i)) ?_ i (by omega)]
  · by_cases h0 : i = 0
    · simp [h0]; omega
    · rw [if_pos (by rw [if_neg h0]; omega), if_neg h0]
  · intro t ht x hlen hx
    refine ⟨by simp [pairUpdate, hlen], fun i hi => ?_⟩
    have hlow := hx (t + 1) (by omega) (by rw [if_neg (by omega)]; omega)
    have hhigh := hx (m - (t + 1)) (by omega) (by rw [if_neg (by omega)]; omega)
    rw [pairUpdate, cxAt_set_set (by omega) (by omega), hlow, hhigh]
    by_cases hupper : i = m - (t + 1)
    · rw [if_pos hupper, if_pos (by split <;> omega), if_neg (by omega), ← hupper, show m - i = t + 1 by omega,
        Nat.add_sub_cancel]
    · rw [if_neg hupper]
      by_cases hlower : i = t + 1
      · rw [if_pos hlower, if_pos (by split <;> omega), if_pos (by omega), hlower, Nat.add_sub_cancel]
      · rw [if_neg hlower, if_neg (by split <;> omega)]

/-! ## The real forward transform -/

/-- `E` of step 4 of `rfft()` and of step 3 of `irfft()`, from the slots k and M - k (41_transform.md R135, R137). -/
def evenPart (num : Num V) (a z : Cx V) : Cx V := Cx.divBy num (Cx.add num a (Cx.conj num z)) (num.ofNat 2)

/-- `w × O` of step 4 of `rfft()` (41_transform.md R135). -/
def splitOdd (num : Num V) (w a z : Cx V) : Cx V :=
  Cx.mul num w (Cx.mul num (Cx.sub num a (Cx.conj num z)) ⟨num.ofNat 0, num.neg num.half⟩)

/-- What step 4 of `rfft()` puts into slot k (41_transform.md R135). -/
def splitLow (num : Num V) (w a z : Cx V) : Cx V := Cx.add num (evenPart num a z) (splitOdd num w a z)

/-- What step 4 of `rfft()` puts into slot M - k (41_transform.md R135). -/
def splitHigh (num : Num V) (w a z : Cx V) : Cx V :=
  Cx.conj num (Cx.sub num (evenPart num a z) (splitOdd num w a z))

theorem splitLoop_eq (ts : List (Cx V)) : splitLoop num cfg ts =
    forTo (cfg.m / 2) (fun t x => pairUpdate num cfg.m (t + 1)
      (splitLow num (recurTwiddle num (splitTwiddle num cfg.n) t))
      (splitHigh num (recurTwiddle num (splitTwiddle num cfg.n) t)) x) ts :=
  congrArg Prod.fst (forTo_recurTwiddle (fun t w x => splitPair num cfg.m (t + 1) w x) (splitTwiddle num cfg.n)
    (cfg.m / 2) ts)

/-- The spectrum of the packed samples, before it is split. -/
def packedTransform (num : Num V) (cfg : Config V) (rb : List V) (k : Nat) : Cx V :=
  fftRec num .forward (Nat.log2 cfg.m) (fun j => ⟨valAt num rb (2 * j), valAt num rb (2 * j + 1)⟩) k

/-- Slot `k` of the packed spectrum, before the division of the normalised direction. -/
def splitSlotAt (num : Num V) (cfg : Config V) (z : Nat → Cx V) (k : Nat) : Cx V :=
  if k = 0 then ⟨num.add (z 0).re (z 0).im, num.sub (z 0).re (z 0).im⟩
  else if 2 * k < cfg.m then splitLow num (recurTwiddle num (splitTwiddle num cfg.n) (k - 1)) (z k) (z (cfg.m - k))
  else splitHigh num (recurTwiddle num (splitTwiddle num cfg.n) (cfg.m - k - 1)) (z (cfg.m - k)) (z k)

theorem fftRec_congr {dir : Direction} {p : Nat} {x y : Nat → Cx V} (h : ∀ j < 2 ^ p, x j = y j) (k : Nat) :
    fftRec num dir p x k = fftRec num dir p y k := by
  induction p generalizing x y k with
  | zero => exact h 0 Nat.one_pos
  | succ p ih =>
    rw [pow_succ] at h
    simp only [fftRec]
    rw [ih (x := fun i => x (2 * i)) (y := fun i => y (2 * i)) fun j hj => h _ (by omega),
      ih (x := fun i => x (2 * i + 1)) (y := fun i => y (2 * i + 1)) fun j hj => h _ (by omega)]

theorem cxAt_core_packReal (hcfg : LegalGeometry cfg) (rb : List V) {k : Nat} (hk : k < cfg.m) :
    cxAt num (cfftCore num .forward cfg.m (packReal num cfg.m rb)) k = packedTransform num cfg rb k := by
  obtain ⟨p, hm⟩ := hcfg.m_eq_two_pow
  rw [packedTransform, hm, cxAt_cfftCore (by simp) (hm ▸ hk), Nat.log2_two_pow]
  exact fftRec_congr (fun j hj => getD_map_range hj _ _) k

theorem cxAt_packedSpectrum (hcfg : LegalGeometry cfg) (rb : List V) {k : Nat} (hk : k < cfg.m) :
    cxAt num (packedSpectrum num cfg rb) k =
      scaledAt num cfg .forward (splitSlotAt num cfg (packedTransform num cfg rb) k) := by
  have hcore {i : Nat} (hi : i < cfg.m) := cxAt_core_packReal (num := num) hcfg rb hi
  have hslot {i : Nat} (h0 : i ≠ 0) (hi : i < cfg.m) :
      cxAt num (splitSlot0 num (cfftCore num .forward cfg.m (packReal num cfg.m rb))) i =
        packedTransform num cfg rb i := by
    rw [splitSlot0, cxAt_set_ne num (Ne.symm h0), hcore hi]
  rw [packedSpectrum, cxAt_scaleBy _ (by simpa using hk), splitLoop_eq,
    cxAt_pairLoop (by simp) (fun t => splitLow num (recurTwiddle num (splitTwiddle num cfg.n) t))
      (fun t => splitHigh num (recurTwiddle num (splitTwiddle num cfg.n) t)) hk, splitSlotAt]
  by_cases h0 : k = 0
  · rw [if_pos h0, if_pos h0, splitSlot0, cxAt_set_self num (by simpa using hcfg.m_pos), hcore hcfg.m_pos]
  · rw [if_neg h0, if_neg h0, hslot h0 hk, hslot (by omega) (by omega)]

theorem splitSlotAt_low (z : Nat → Cx V) {k : Nat} (hk : 1 ≤ k) (hlt : 2 * k < cfg.m) :
    splitSlotAt num cfg z k =
      splitLow num (recurTwiddle num (splitTwiddle num cfg.n) (k - 1)) (z k) (z (cfg.m - k)) := by
  rw [splitSlotAt, if_neg (by omega), if_pos hlt]

theorem splitSlotAt_high (z : Nat → Cx V) {k : Nat} (hk : 1 ≤ k) (hle : 2 * k ≤ cfg.m) :
    splitSlotAt num cfg z (cfg.m - k) =
      splitHigh num (recurTwiddle num (splitTwiddle num cfg.n) (k - 1)) (z k) (z (cfg.m - k)) := by
  rw [splitSlotAt, if_neg (by omega), if_neg (by omega), show cfg.m - (cfg.m - k) = k by omega]

theorem cxAt_unpackSpectrum {m k : Nat} (hk : k ≤ m) (ts : List (Cx V)) :
    cxAt num (unpackSpectrum num m ts) k =
      if k = 0 then ⟨(cxAt num ts 0).re, num.ofNat 0⟩
      else if k = m then ⟨(cxAt num ts 0).im, num.ofNat 0⟩
      else cxAt num ts k := getD_map_range (Nat.lt_succ_of_le hk) _ _

/-- Settles O47: `cxAt_packedSpectrum` slot by slot, and SP unpacks TS. -/
theorem rfftSplitsPackedSpectrum : Obligations.RfftSplitsPackedSpectrum := by
  intro s hcfg _
  have hm := hcfg.1.m_pos
  have hts {k : Nat} (hk : k < s.cfg.m) := cxAt_packedSpectrum (num := Machine.num) hcfg.1 s.te.rb hk
  refine ⟨_, _, execRfft_next s, by simp, by simp [Config.nb, Config.m], ?_, fun k hk hle => ⟨fun hlt => ?_, ?_⟩,
    ?_, ?_, fun k hk hlt => ?_⟩
  · rw [hts hm, scaledAt_forward]
    rfl
  · rw [hts (by change _ < s.cfg.n / 2; omega), scaledAt_forward, splitSlotAt_low _ hk hlt]
    rfl
  · change cxAt Machine.num _ (s.cfg.m - k) = _
    rw [hts (by omega), scaledAt_forward, splitSlotAt_high _ hk hle]
    rfl
  · rw [cxAt_unpackSpectrum (Nat.zero_le _), if_pos rfl]
    rfl
  · change cxAt Machine.num _ s.cfg.m = _
    rw [cxAt_unpackSpectrum le_rfl, if_neg hm.ne', if_pos rfl]
    rfl
  · change k < s.cfg.m at hlt
    rw [cxAt_unpackSpectrum hlt.le, if_neg hk.ne', if_neg hlt.ne]

/-! ## The real inverse transform -/

/-- `O` of step 3 of `irfft()` (41_transform.md R137). -/
def mergeOdd (num : Num V) (w a z : Cx V) : Cx V :=
  Cx.mul num (Cx.divBy num (Cx.sub num a (Cx.conj num z)) (num.ofNat 2)) w

/-- What step 3 of `irfft()` puts into slot k (41_transform.md R137). -/
def mergeLow (num : Num V) (w a z : Cx V) : Cx V :=
  ⟨num.sub (evenPart num a z).re (mergeOdd num w a z).im, num.add (evenPart num a z).im (mergeOdd num w a z).re⟩

/-- What step 3 of `irfft()` puts into slot M - k (41_transform.md R137). -/
def mergeHigh (num : Num V) (w a z : Cx V) : Cx V :=
  ⟨num.add (evenPart num a z).re (mergeOdd num w a z).im,
   num.add (num.neg (evenPart num a z).im) (mergeOdd num w a z).re⟩

theorem mergeLoop_eq (ts : List (Cx V)) : mergeLoop num cfg ts =
    forTo (cfg.m / 2) (fun t x => pairUpdate num cfg.m (t + 1)
      (mergeLow num (recurTwiddle num (mergeTwiddle num cfg.n) t))
      (mergeHigh num (recurTwiddle num (mergeTwiddle num cfg.n) t)) x) ts :=
  congrArg Prod.fst (forTo_recurTwiddle (fun t w x => mergePair num cfg.m (t + 1) w x) (mergeTwiddle num cfg.n)
    (cfg.m / 2) ts)

/-- Slot `k` of the merged spectrum, the transform of the packed samples (41_transform.md R137). -/
def mergeSlotAt (num : Num V) (cfg : Config V) (sp : List (Cx V)) (k : Nat) : Cx V :=
  if k = 0 then
    ⟨num.div (num.add (cxAt num sp 0).re (cxAt num sp cfg.m).re) (num.ofNat 2),
     num.div (num.sub (cxAt num sp 0).re (cxAt num sp cfg.m).re) (num.ofNat 2)⟩
  else if 2 * k < cfg.m then
    mergeLow num (recurTwiddle num (mergeTwiddle num cfg.n) (k - 1)) (cxAt num sp k) (cxAt num sp (cfg.m - k))
  else
    mergeHigh num (recurTwiddle num (mergeTwiddle num cfg.n) (cfg.m - k - 1)) (cxAt num sp (cfg.m - k)) (cxAt num sp k)

theorem mergeSlotAt_low (sp : List (Cx V)) {k : Nat} (hk : 1 ≤ k) (hlt : 2 * k < cfg.m) :
    mergeSlotAt num cfg sp k =
      mergeLow num (recurTwiddle num (mergeTwiddle num cfg.n) (k - 1)) (cxAt num sp k) (cxAt num sp (cfg.m - k)) := by
  rw [mergeSlotAt, if_neg (by omega), if_pos hlt]

theorem mergeSlotAt_high (sp : List (Cx V)) {k : Nat} (hk : 1 ≤ k) (hle : 2 * k ≤ cfg.m) :
    mergeSlotAt num cfg sp (cfg.m - k) =
      mergeHigh num (recurTwiddle num (mergeTwiddle num cfg.n) (k - 1)) (cxAt num sp k) (cxAt num sp (cfg.m - k)) := by
  rw [mergeSlotAt, if_neg (by omega), if_neg (by omega), show cfg.m - (cfg.m - k) = k by omega]

theorem cxAt_packSpectrum {m k : Nat} (hk : k < m) (sp : List (Cx V)) :
    cxAt num (packSpectrum num m sp) k =
      if k = 0 then
        ⟨num.div (num.add (cxAt num sp 0).re (cxAt num sp m).re) (num.ofNat 2),
         num.div (num.sub (cxAt num sp 0).re (cxAt num sp m).re) (num.ofNat 2)⟩
      else cxAt num sp k := getD_map_range hk _ _

theorem cxAt_mergeLoop (sp : List (Cx V)) {k : Nat} (hk : k < cfg.m) :
    cxAt num (mergeLoop num cfg (packSpectrum num cfg.m sp)) k = mergeSlotAt num cfg sp k := by
  rw [mergeLoop_eq, cxAt_pairLoop (by simp) (fun t => mergeLow num (recurTwiddle num (mergeTwiddle num cfg.n) t))
    (fun t => mergeHigh num (recurTwiddle num (mergeTwiddle num cfg.n) t)) hk, mergeSlotAt]
  by_cases h0 : k = 0
  · rw [if_pos h0, if_pos h0, cxAt_packSpectrum (by omega), if_pos rfl]
  · have hslot {i : Nat} (hi0 : i ≠ 0) (hi : i < cfg.m) : cxAt num (packSpectrum num cfg.m sp) i = cxAt num sp i := by
      rw [cxAt_packSpectrum hi, if_neg hi0]
    rw [if_neg h0, if_neg h0, hslot h0 hk, hslot (by omega) (by omega)]

theorem cxAt_timePairs (hcfg : LegalGeometry cfg) (sp : List (Cx V)) {j : Nat} (hj : j < cfg.m) :
    cxAt num (timePairs num cfg sp) j = fftRec num .inverse (Nat.log2 cfg.m) (mergeSlotAt num cfg sp) j := by
  have hslot (i : Nat) (hi : i < cfg.m) := cxAt_mergeLoop (num := num) sp hi
  obtain ⟨p, hm⟩ := hcfg.m_eq_two_pow
  rw [timePairs, hm, cxAt_cfftCore (by simp) (hm ▸ hj), Nat.log2_two_pow]
  exact fftRec_congr (fun i hi => hm ▸ hslot i (hm ▸ hi)) j

theorem valAt_unpackReal {n j : Nat} (g : V) (ts : List (Cx V)) (hj : 2 * j + 1 < n) :
    valAt num (unpackReal num n g ts) (2 * j) = num.mul g (cxAt num ts j).re ∧
    valAt num (unpackReal num n g ts) (2 * j + 1) = num.mul g (cxAt num ts j).im := by
  refine ⟨(getD_map_range (by omega) _ _).trans ?_, (getD_map_range hj _ _).trans ?_⟩
  · rw [if_pos (by omega), Nat.mul_div_cancel_left j two_pos]
  · rw [if_neg (by omega), show (2 * j + 1) / 2 = j by omega]

theorem irfftScale_eq (num : Num V) (cfg : Config V) : irfftScale num cfg =
    if cfg.norm = .inv then num.div (num.ofNat 2) (num.ofNat cfg.n) else num.ofNat 2 := by
  unfold irfftScale
  cases cfg.norm <;> rfl

/-- Settles O48: the slots `mergeSlotAt`, their transform, and the scaled samples. -/
theorem irfftMergesAndScales : Obligations.IrfftMergesAndScales := by
  intro s hcfg _
  have hn := hcfg.1.two_mul_m
  refine ⟨_, _, execIrfft_next s, by simp, by simp, mergeSlotAt Machine.num s.cfg s.te.sp, rfl,
    fun k hk hle => ⟨fun hlt => ?_, ?_⟩, fun j hj => ⟨cxAt_timePairs hcfg.1 _ hj, ?_⟩⟩
  · exact mergeSlotAt_low _ hk hlt
  · exact mergeSlotAt_high _ hk hle
  · change j < s.cfg.m at hj
    rw [← irfftScale_eq]
    exact valAt_unpackReal _ _ (by omega)

theorem packSpectrum_congr {m : Nat} {sp sp' : List (Cx V)} (h0 : (cxAt num sp 0).re = (cxAt num sp' 0).re)
    (hm : (cxAt num sp m).re = (cxAt num sp' m).re) (h : ∀ k, k ≠ 0 → k < m → cxAt num sp k = cxAt num sp' k) :
    packSpectrum num m sp = packSpectrum num m sp' := by
  refine List.map_congr_left fun k hk => ?_
  split
  next => rw [h0, hm]
  next hk0 => exact h k hk0 (List.mem_range.1 hk)

/-- Settles O49: packing the bins reads only the real parts of bins 0 and N/2. -/
theorem irfftIgnoresEdgeImaginaryParts : Obligations.IrfftIgnoresEdgeImaginaryParts := by
  intro s x y hcfg hwf
  obtain ⟨-, -, ⟨-, hsp, -⟩, -⟩ := (memory_wf_iff s).1 hwf
  have hm := hcfg.1.m_pos
  have hlen : s.cfg.m < s.te.sp.length := hsp ▸ Nat.lt_succ_self _
  have hcx := cxAt_set_set (num := Machine.num) (Nat.zero_lt_of_lt hlen) hlen ⟨(cxAt Machine.num s.te.sp 0).re, x⟩
    ⟨(cxAt Machine.num s.te.sp s.cfg.m).re, y⟩
  refine ⟨_, _, execIrfft_next s, execIrfft_next _, ?_⟩
  simp only [irfft_rb, irfft_ts, timePairs]
  rw [packSpectrum_congr (sp := s.te.sp) ?_ ?_ fun k h0 hlt => ?_]
  · exact ⟨rfl, rfl⟩
  · rw [hcx, if_neg hm.ne, if_pos rfl]
  · rw [hcx, if_pos rfl]
  · rw [hcx, if_neg hlt.ne, if_neg h0]

end Sys2Proof.Machine
end

section
/-! PROOF. The transform sums over the complex numbers (41_transform.md R139). -/

namespace Sys2Proof.Machine

/-! ## The kernel as powers of a root of unity -/

/-- The other direction (41_transform.md R130). -/
def Direction.opposite : Direction → Direction
  | .forward => .inverse
  | .inverse => .forward

/-- `e^(∓2πi/len)`, the kernel at 1, 1 (41_transform.md R130). -/
noncomputable def unitRoot (dir : Direction) (len : Nat) : ℂ := kernel dir len 1 1

theorem unitRoot_inverse (len : Nat) : unitRoot .inverse len = Complex.exp (2 * Real.pi * Complex.I / len) := by
  simp [unitRoot, kernel]

theorem unitRoot_forward (len : Nat) : unitRoot .forward len = (unitRoot .inverse len)⁻¹ := by
  rw [unitRoot_inverse, ← Complex.exp_neg]
  simp [unitRoot, kernel]

theorem unitRoot_opposite (dir : Direction) (len : Nat) : unitRoot dir.opposite len = (unitRoot dir len)⁻¹ := by
  cases dir with
  | forward => rw [unitRoot_forward, inv_inv, Direction.opposite]
  | inverse => exact unitRoot_forward len

theorem conj_unitRoot (dir : Direction) (len : Nat) :
    (starRingEnd ℂ) (unitRoot dir len) = unitRoot dir.opposite len := by
  have hinv : (starRingEnd ℂ) (unitRoot .inverse len) = (unitRoot .inverse len)⁻¹ := by
    rw [unitRoot_inverse, ← Complex.exp_conj, ← Complex.exp_neg]
    simp [neg_div, map_ofNat]
  rw [unitRoot_opposite]
  cases dir with
  | forward => rw [unitRoot_forward, map_inv₀, hinv]
  | inverse => exact hinv

theorem kernel_eq_pow (dir : Direction) (len n k : Nat) : kernel dir len n k = unitRoot dir len ^ (n * k) := by
  unfold unitRoot kernel
  rw [← Complex.exp_nat_mul]
  congr 1
  push_cast
  ring

theorem isPrimitiveRoot_unitRoot (dir : Direction) {len : Nat} (h : 0 < len) : IsPrimitiveRoot (unitRoot dir len) len := by
  have hinv : IsPrimitiveRoot (unitRoot .inverse len) len := by
    rw [unitRoot_inverse]
    exact Complex.isPrimitiveRoot_exp len h.ne'
  cases dir with
  | forward => exact unitRoot_forward len ▸ hinv.inv
  | inverse => exact hinv

theorem unitRoot_ne_zero (dir : Direction) (len : Nat) : unitRoot dir len ≠ 0 := Complex.exp_ne_zero _

theorem unitRoot_two_mul_sq (dir : Direction) (len : Nat) : unitRoot dir (2 * len) ^ 2 = unitRoot dir len := by
  unfold unitRoot kernel
  rw [← Complex.exp_nat_mul]
  congr 1
  push_cast
  ring

/-- Half a turn. -/
theorem unitRoot_two_mul_pow (dir : Direction) {len : Nat} (h : 0 < len) : unitRoot dir (2 * len) ^ len = -1 := by
  have hroot := isPrimitiveRoot_unitRoot dir (show 0 < 2 * len by omega)
  have hsq : (unitRoot dir (2 * len) ^ len) ^ 2 = 1 := by rw [← pow_mul, Nat.mul_comm len, hroot.pow_eq_one]
  exact (sq_eq_one_iff.1 hsq).resolve_left (hroot.pow_ne_one_of_pos_of_lt h.ne' (by omega))

/-! ## The transform sums -/

theorem dft_eq_sum (dir : Direction) (len : Nat) (x : Nat → ℂ) (k : Nat) :
    dft dir len x k = ∑ n ∈ Finset.range len, x n * unitRoot dir len ^ (n * k) := by
  simp only [dft, kernel_eq_pow]

theorem dft_congr {dir : Direction} {len : Nat} {x y : Nat → ℂ} (h : ∀ n < len, x n = y n) (k : Nat) :
    dft dir len x k = dft dir len y k :=
  Finset.sum_congr rfl fun n hn => by rw [h n (Finset.mem_range.1 hn)]

theorem dft_add_len (dir : Direction) {len : Nat} (h : 0 < len) (x : Nat → ℂ) (k : Nat) :
    dft dir len x (k + len) = dft dir len x k := by
  rw [dft_eq_sum, dft_eq_sum]
  refine Finset.sum_congr rfl fun n _ => ?_
  rw [Nat.mul_add, pow_add, pow_mul' _ n len, (isPrimitiveRoot_unitRoot dir h).pow_eq_one, one_pow, mul_one]

theorem sum_range_two_mul (f : Nat → ℂ) (len : Nat) :
    ∑ n ∈ Finset.range (2 * len), f n =
      ∑ n ∈ Finset.range len, f (2 * n) + ∑ n ∈ Finset.range len, f (2 * n + 1) := by
  induction len with
  | zero => simp
  | succ len ih =>
    rw [Nat.mul_succ, Finset.sum_range_succ, Finset.sum_range_succ, ih, Finset.sum_range_succ, Finset.sum_range_succ]
    ring

/-- The even and the odd elements apart. -/
theorem dft_two_mul (dir : Direction) (len : Nat) (x : Nat → ℂ) (k : Nat) : dft dir (2 * len) x k =
    dft dir len (fun n => x (2 * n)) k + unitRoot dir (2 * len) ^ k * dft dir len (fun n => x (2 * n + 1)) k := by
  simp only [dft_eq_sum]
  rw [sum_range_two_mul, Finset.mul_sum]
  congr 1 <;> refine Finset.sum_congr rfl fun n _ => ?_
  · rw [← unitRoot_two_mul_sq dir len]
    ring
  · rw [← unitRoot_two_mul_sq dir len]
    ring

/-- The upper half of the sums over twice the points. -/
theorem dft_two_mul_add_len (dir : Direction) {len : Nat} (h : 0 < len) (x : Nat → ℂ) (k : Nat) :
    dft dir (2 * len) x (k + len) =
      dft dir len (fun n => x (2 * n)) k - unitRoot dir (2 * len) ^ k * dft dir len (fun n => x (2 * n + 1)) k := by
  rw [dft_two_mul, dft_add_len dir h, dft_add_len dir h, pow_add, unitRoot_two_mul_pow dir h]
  ring

/-- The rows of the kernel are orthogonal. -/
theorem sum_unitRoot_pow_mul_opposite (dir : Direction) {len j k : Nat} (hj : j < len) (hk : k < len) :
    ∑ n ∈ Finset.range len, unitRoot dir len ^ (j * n) * unitRoot dir.opposite len ^ (n * k) =
      if j = k then (len : ℂ) else 0 := by
  have hroot := isPrimitiveRoot_unitRoot dir (Nat.zero_lt_of_lt hj)
  have hne := unitRoot_ne_zero dir len
  have hterm (n : Nat) : unitRoot dir len ^ (j * n) * unitRoot dir.opposite len ^ (n * k) =
      (unitRoot dir len ^ j / unitRoot dir len ^ k) ^ n := by
    rw [unitRoot_opposite, inv_pow, div_pow, ← pow_mul, ← pow_mul, Nat.mul_comm k, div_eq_mul_inv]
  simp only [hterm]
  split
  next h => simp [h, hne]
  next h =>
    have hratio : unitRoot dir len ^ j / unitRoot dir len ^ k ≠ 1 := fun h1 =>
      h (hroot.pow_inj hj hk ((div_eq_one_iff_eq (pow_ne_zero k hne)).1 h1))
    have hturn : (unitRoot dir len ^ j / unitRoot dir len ^ k) ^ len = 1 := by
      rw [div_pow, ← pow_mul, ← pow_mul, pow_mul', pow_mul' _ k, hroot.pow_eq_one, one_pow, one_pow, div_one]
    rw [geom_sum_eq hratio, hturn, sub_self, zero_div]

/-- The sums invert each other up to the number of points (41_transform.md R130, R140). -/
theorem dft_opposite_dft (dir : Direction) {len : Nat} (x : Nat → ℂ) {k : Nat} (hk : k < len) :
    dft dir.opposite len (dft dir len x) k = len * x k := by
  have hterm (n : Nat) : dft dir len x n * unitRoot dir.opposite len ^ (n * k) =
      ∑ j ∈ Finset.range len, x j * (unitRoot dir len ^ (j * n) * unitRoot dir.opposite len ^ (n * k)) := by
    rw [dft_eq_sum, Finset.sum_mul]
    exact Finset.sum_congr rfl fun j _ => mul_assoc _ _ _
  calc dft dir.opposite len (dft dir len x) k
    _ = ∑ j ∈ Finset.range len, x j * ∑ n ∈ Finset.range len,
          unitRoot dir len ^ (j * n) * unitRoot dir.opposite len ^ (n * k) := by
        simp only [dft_eq_sum dir.opposite, hterm, Finset.mul_sum]
        exact Finset.sum_comm
    _ = ∑ j ∈ Finset.range len, if j = k then x j * len else 0 := by
        refine Finset.sum_congr rfl fun j hj => ?_
        rw [sum_unitRoot_pow_mul_opposite dir (Finset.mem_range.1 hj) hk, mul_ite, mul_zero]
    _ = len * x k := by rw [Finset.sum_ite_eq' _ _ (fun j => x j * (len : ℂ)), if_pos (Finset.mem_range.2 hk), mul_comm]

/-! ## Transform sums of real and of conjugate-symmetric sequences -/

theorem dft_add (dir : Direction) (len : Nat) (x y : Nat → ℂ) (k : Nat) :
    dft dir len (fun n => x n + y n) k = dft dir len x k + dft dir len y k := by
  simp only [dft, add_mul, Finset.sum_add_distrib]

theorem dft_const_mul (dir : Direction) (len : Nat) (a : ℂ) (x : Nat → ℂ) (k : Nat) :
    dft dir len (fun n => a * x n) k = a * dft dir len x k := by
  simp only [dft, mul_assoc, Finset.mul_sum]

theorem conj_dft (dir : Direction) (len : Nat) (x : Nat → ℂ) (k : Nat) :
    (starRingEnd ℂ) (dft dir len x k) = dft dir.opposite len (fun n => (starRingEnd ℂ) (x n)) k := by
  simp only [dft_eq_sum, map_sum, map_mul, map_pow, conj_unitRoot]

/-- Turning the other way is turning on to the full turn. -/
theorem unitRoot_opposite_pow (dir : Direction) {len a b : Nat} (h : len ∣ a + b) :
    unitRoot dir.opposite len ^ a = unitRoot dir len ^ b := by
  have hturn : unitRoot dir len ^ (a + b) = 1 := by
    rcases Nat.eq_zero_or_pos len with rfl | hpos
    · rw [Nat.eq_zero_of_zero_dvd h, pow_zero]
    · exact (isPrimitiveRoot_unitRoot dir hpos).pow_eq_one_iff_dvd _ |>.2 h
  rw [unitRoot_opposite, inv_pow, inv_eq_iff_eq_inv]
  exact eq_inv_of_mul_eq_one_left (by rw [← pow_add, hturn])

/-- The sums of a real sequence are conjugate-symmetric. -/
theorem conj_dft_of_real {dir : Direction} {len k : Nat} (hk : k ≤ len) {x : Nat → ℂ}
    (hx : ∀ n, (starRingEnd ℂ) (x n) = x n) : (starRingEnd ℂ) (dft dir len x k) = dft dir len x (len - k) := by
  rw [conj_dft, dft_eq_sum, dft_eq_sum]
  refine Finset.sum_congr rfl fun n _ => ?_
  have hturns : n * k + n * (len - k) = len * n := by rw [← Nat.mul_add, Nat.add_sub_cancel' hk, Nat.mul_comm]
  rw [hx, unitRoot_opposite_pow dir (b := n * (len - k)) ⟨n, hturns⟩]

/-- Reading a sequence backwards from its end turns its sums the other way. -/
theorem dft_reverse (dir : Direction) (len : Nat) (x : Nat → ℂ) (k : Nat) :
    dft dir len (fun n => x ((len - n) % len)) k = dft dir.opposite len x k := by
  have hmem {n : Nat} (hn : n ∈ Finset.range len) : (len - n) % len ∈ Finset.range len :=
    Finset.mem_range.2 (Nat.mod_lt _ (Nat.zero_lt_of_lt (Finset.mem_range.1 hn)))
  have hcases {n : Nat} (hn : n ∈ Finset.range len) :
      n = 0 ∧ (len - n) % len = 0 ∨ 0 < n ∧ (len - n) % len = len - n := by
    have hlt := Finset.mem_range.1 hn
    rcases Nat.eq_zero_or_pos n with h | h
    · exact .inl ⟨h, by simp [h]⟩
    · exact .inr ⟨h, Nat.mod_eq_of_lt (by omega)⟩
  have hinv {n : Nat} (hn : n ∈ Finset.range len) : (len - (len - n) % len) % len = n := by
    have := Finset.mem_range.1 hn
    rcases hcases hn with ⟨h, e⟩ | ⟨h, e⟩ <;> rw [e]
    · simp [h]
    · rw [Nat.sub_sub_self (by omega), Nat.mod_eq_of_lt (by omega)]
  rw [dft_eq_sum, dft_eq_sum]
  refine Finset.sum_nbij' (fun n => (len - n) % len) (fun n => (len - n) % len) (fun _ => hmem) (fun _ => hmem)
    (fun _ => hinv) (fun _ => hinv) fun n hn => ?_
  have hlt := Finset.mem_range.1 hn
  rw [unitRoot_opposite_pow dir (b := n * k)]
  rw [← Nat.add_mul]
  rcases hcases hn with ⟨h, e⟩ | ⟨h, e⟩ <;> rw [e]
  · simp [h]
  · rw [Nat.sub_add_cancel hlt.le]
    exact Nat.dvd_mul_right _ _

/-- The sums of a conjugate-symmetric sequence are real. -/
theorem conj_dft_of_symmetric {dir : Direction} {len : Nat} {x : Nat → ℂ}
    (hx : ∀ n < len, (starRingEnd ℂ) (x n) = x ((len - n) % len)) (k : Nat) :
    (starRingEnd ℂ) (dft dir len x k) = dft dir len x k := by
  rw [conj_dft, dft_congr hx, dft_reverse]
  cases dir <;> rfl

/-- The sums at the even places, from half the points. -/
theorem dft_two_mul_even (dir : Direction) (len : Nat) (x : Nat → ℂ) (j : Nat) :
    dft dir (2 * len) x (2 * j) = dft dir len (fun n => x n + x (n + len)) j := by
  rcases Nat.eq_zero_or_pos len with rfl | hpos
  · rfl
  have hturn := (isPrimitiveRoot_unitRoot dir (show 0 < 2 * len by omega)).pow_eq_one
  simp only [dft_eq_sum, add_mul, Finset.sum_add_distrib]
  rw [two_mul len, Finset.sum_range_add, ← two_mul len]
  congr 1 <;> refine Finset.sum_congr rfl fun n _ => ?_
  · rw [← unitRoot_two_mul_sq dir len]
    ring
  · rw [← unitRoot_two_mul_sq dir len, Nat.add_comm len n, ← pow_mul,
      show (n + len) * (2 * j) = 2 * (n * j) + 2 * len * j by ring, pow_add, pow_mul _ (2 * len), hturn, one_pow, mul_one]

/-- The sums at the odd places, from half the points. -/
theorem dft_two_mul_odd (dir : Direction) (len : Nat) (x : Nat → ℂ) (j : Nat) : dft dir (2 * len) x (2 * j + 1) =
    dft dir len (fun n => unitRoot dir (2 * len) ^ n * (x n - x (n + len))) j := by
  rcases Nat.eq_zero_or_pos len with rfl | hpos
  · rfl
  have hturn := (isPrimitiveRoot_unitRoot dir (show 0 < 2 * len by omega)).pow_eq_one
  have hhalf := unitRoot_two_mul_pow dir hpos
  simp only [dft_eq_sum]
  rw [two_mul len, Finset.sum_range_add, ← two_mul len, ← Finset.sum_add_distrib]
  refine Finset.sum_congr rfl fun n _ => ?_
  rw [← unitRoot_two_mul_sq dir len, Nat.add_comm len n, ← pow_mul,
    show n * (2 * j + 1) = 2 * (n * j) + n by ring,
    show (n + len) * (2 * j + 1) = 2 * (n * j) + n + 2 * len * j + len by ring]
  simp only [pow_add, pow_mul _ (2 * len), hturn, one_pow, hhalf]
  ring

end Sys2Proof.Machine
end

section
/-! PROOF. CFFT.F and CFFT.I under the ideal semantics (41_transform.md R133, R134, R139). -/

namespace Sys2Proof.Machine

/-! ## The complex operations of the ideal semantics -/

@[simp] theorem toC_re (c : Cx ℝ) : (toC c).re = c.re := rfl
@[simp] theorem toC_im (c : Cx ℝ) : (toC c).im = c.im := rfl

theorem toC_injective : Function.Injective toC := fun _ _ h =>
  (Cx.mk.injEq ..).mpr (Complex.ext_iff.1 h)

@[simp] theorem toC_add (a b : Cx ℝ) : toC (Cx.add ideal a b) = toC a + toC b := rfl
@[simp] theorem toC_sub (a b : Cx ℝ) : toC (Cx.sub ideal a b) = toC a - toC b := rfl
@[simp] theorem toC_mul (a b : Cx ℝ) : toC (Cx.mul ideal a b) = toC a * toC b := by
  apply Complex.ext <;> simp [ideal]
@[simp] theorem toC_conj (a : Cx ℝ) : toC (Cx.conj ideal a) = (starRingEnd ℂ) (toC a) := rfl
@[simp] theorem toC_divBy (a : Cx ℝ) (s : ℝ) : toC (Cx.divBy ideal a s) = toC a / s := by
  apply Complex.ext <;> simp [ideal]

@[simp] theorem toC_scale (s : ℝ) (a : Cx ℝ) : toC (Cx.scale ideal s a) = s * toC a := by
  apply Complex.ext <;> simp [ideal]

theorem toC_cos_sin (j len : Nat) :
    toC ⟨Real.cos (2 * Real.pi * j / len), Real.sin (2 * Real.pi * j / len)⟩ = unitRoot .inverse len ^ j := by
  have hangle : (j : ℂ) * (2 * Real.pi * Complex.I / len) = (2 * Real.pi * j / len : ℝ) * Complex.I := by
    push_cast
    ring
  rw [unitRoot_inverse, ← Complex.exp_nat_mul, hangle]
  exact Complex.ext (Complex.exp_ofReal_mul_I_re _).symm (Complex.exp_ofReal_mul_I_im _).symm

theorem toC_cos_neg_sin (j len : Nat) :
    toC ⟨Real.cos (2 * Real.pi * j / len), -Real.sin (2 * Real.pi * j / len)⟩ = unitRoot .forward len ^ j := by
  have hconj : unitRoot .forward len = (starRingEnd ℂ) (unitRoot .inverse len) := (conj_unitRoot .inverse len).symm
  rw [hconj, ← map_pow, ← toC_cos_sin]
  rfl

theorem toC_twiddle (dir : Direction) (j span : Nat) : toC (twiddle ideal dir j span) = unitRoot dir span ^ j := by
  cases dir with
  | forward =>
    rw [← toC_cos_neg_sin]
    simp [twiddle, ideal, twoPi, sgnVal]
  | inverse =>
    rw [← toC_cos_sin]
    simp [twiddle, ideal, twoPi, sgnVal]

/-- The twiddles of the two recurrences (41_transform.md R135, R137). -/
theorem toC_recurTwiddle {w : Cx ℝ} {dir : Direction} {len : Nat} (hw : toC w = unitRoot dir len) (t : Nat) :
    toC (recurTwiddle ideal w t) = unitRoot dir len ^ (t + 1) := by
  induction t with
  | zero => rw [recurTwiddle, hw, zero_add, pow_one]
  | succ t ih => rw [recurTwiddle, toC_mul, ih, hw, pow_succ _ (t + 1)]

theorem toC_splitTwiddle (n : Nat) : toC (splitTwiddle ideal n) = unitRoot .forward n := by
  simpa [splitTwiddle, ideal, twoPi] using toC_cos_neg_sin 1 n

theorem toC_mergeTwiddle (n : Nat) : toC (mergeTwiddle ideal n) = unitRoot .inverse n := by
  simpa [mergeTwiddle, ideal, twoPi] using toC_cos_sin 1 n

/-- The recursion computes the transform sum. -/
theorem toC_fftRec (dir : Direction) (p : Nat) (x : Nat → Cx ℝ) {k : Nat} (hk : k < 2 ^ p) :
    toC (fftRec ideal dir p x k) = dft dir (2 ^ p) (fun n => toC (x n)) k := by
  induction p generalizing x k with
  | zero =>
    obtain rfl : k = 0 := by omega
    simp [fftRec, dft_eq_sum]
  | succ p ih =>
    have hpos := Nat.two_pow_pos p
    have hplace := Nat.mod_lt k hpos
    rw [pow_succ'] at hk ⊢
    simp only [fftRec, apply_ite toC, toC_add, toC_sub, toC_mul, toC_twiddle, ih _ hplace, pow_succ' 2 p]
    split
    next hlow => rw [Nat.mod_eq_of_lt hlow, dft_two_mul]
    next hhigh =>
      have hk' : k = k % 2 ^ p + 2 ^ p := by rw [Nat.mod_eq_sub_mod (by omega), Nat.mod_eq_of_lt (by omega)]; omega
      generalize k % 2 ^ p = j at hk'
      rw [hk', dft_two_mul_add_len dir hpos]

/-! ## The complex transforms -/

/-- The scales `sf` and `si` as real numbers (41_transform.md R130). -/
noncomputable def realScale (c : Config ℝ) (dir : Direction) : ℝ := if normalises c.norm dir then 1 / c.n else 1

theorem dirScale_eq_realScale (c : Config ℝ) (dir : Direction) : dirScale c dir = realScale c dir := by
  unfold dirScale realScale
  split <;> simp

theorem scaledAt_ideal (c : Config ℝ) (dir : Direction) (z : Cx ℝ) :
    scaledAt ideal c dir z = Cx.scale ideal (realScale c dir) z := by
  unfold scaledAt realScale
  split <;> simp [Cx.divBy, Cx.scale, ideal, div_eq_inv_mul]

theorem toC_scaledAt (c : Config ℝ) (dir : Direction) (z : Cx ℝ) :
    toC (scaledAt ideal c dir z) = dirScale c dir * toC z := by
  rw [scaledAt_ideal, toC_scale, dirScale_eq_realScale]

/-- Settles O54: the core is the recursion, and the recursion is the transform sum. -/
theorem cfftComputesTransformSum : Obligations.CfftComputesTransformSum := by
  intro c dir cb hcfg hcb k hk
  obtain ⟨p, hn⟩ := hcfg.n_eq_two_pow
  rw [cAt, cxAt_cfft hcfg dir hcb hk, toC_scaledAt, hn, Nat.log2_two_pow, toC_fftRec dir _ _ (hn ▸ hk)]
  rfl

end Sys2Proof.Machine
end

section
/-! PROOF. RFFT under the ideal semantics (41_transform.md R135, R139). -/

namespace Sys2Proof.Machine

variable {c : Config ℝ}

/-- A sample of RB as a complex number. -/
noncomputable def sampleAt (rb : List ℝ) (n : Nat) : ℂ := (valAt ideal rb n : ℝ)

@[simp] theorem conj_sampleAt (rb : List ℝ) (n : Nat) : (starRingEnd ℂ) (sampleAt rb n) = sampleAt rb n :=
  Complex.conj_ofReal _

/-- The transform of the even-indexed samples (41_transform.md R135). -/
noncomputable def evenSum (c : Config ℝ) (rb : List ℝ) (k : Nat) : ℂ :=
  dft .forward c.m (fun n => sampleAt rb (2 * n)) k

/-- The transform of the odd-indexed samples (41_transform.md R135). -/
noncomputable def oddSum (c : Config ℝ) (rb : List ℝ) (k : Nat) : ℂ :=
  dft .forward c.m (fun n => sampleAt rb (2 * n + 1)) k

theorem conj_evenSum (rb : List ℝ) {k : Nat} (hk : k ≤ c.m) :
    (starRingEnd ℂ) (evenSum c rb k) = evenSum c rb (c.m - k) := conj_dft_of_real hk fun _ => conj_sampleAt _ _

theorem conj_oddSum (rb : List ℝ) {k : Nat} (hk : k ≤ c.m) :
    (starRingEnd ℂ) (oddSum c rb k) = oddSum c rb (c.m - k) := conj_dft_of_real hk fun _ => conj_sampleAt _ _

/-- The transform of all samples, from those of the even and of the odd ones. -/
theorem dft_sampleAt (hcfg : LegalGeometry c) (rb : List ℝ) (k : Nat) : dft .forward c.n (sampleAt rb) k =
    evenSum c rb k + unitRoot .forward c.n ^ k * oddSum c rb k := by
  rw [← hcfg.two_mul_m, dft_two_mul]
  rfl

theorem dft_sampleAt_add_m (hcfg : LegalGeometry c) (rb : List ℝ) (k : Nat) :
    dft .forward c.n (sampleAt rb) (k + c.m) = evenSum c rb k - unitRoot .forward c.n ^ k * oddSum c rb k := by
  rw [← hcfg.two_mul_m, dft_two_mul_add_len _ hcfg.m_pos]
  rfl

theorem toC_packedTransform (hcfg : LegalGeometry c) (rb : List ℝ) {k : Nat} (hk : k < c.m) :
    toC (packedTransform ideal c rb k) = evenSum c rb k + Complex.I * oddSum c rb k := by
  obtain ⟨p, hm⟩ := hcfg.m_eq_two_pow
  have hpair (j : Nat) : toC ⟨valAt ideal rb (2 * j), valAt ideal rb (2 * j + 1)⟩ =
      sampleAt rb (2 * j) + Complex.I * sampleAt rb (2 * j + 1) := by
    rw [mul_comm Complex.I]
    exact Complex.mk_eq_add_mul_I _ _
  rw [packedTransform, evenSum, oddSum, ← dft_const_mul, ← dft_add]
  rw [hm] at hk ⊢
  rw [Nat.log2_two_pow, toC_fftRec _ _ _ hk]
  simp only [hpair]

/-- The even part of slots k and M - k is the transform of the even-indexed samples, the odd part that of the odd-indexed. -/
theorem toC_evenPart_splitOdd (hcfg : LegalGeometry c) (rb : List ℝ) {k : Nat} (hk : 1 ≤ k) (hlt : k < c.m)
    (w : Cx ℝ) :
    toC (evenPart ideal (packedTransform ideal c rb k) (packedTransform ideal c rb (c.m - k))) = evenSum c rb k ∧
    toC (splitOdd ideal w (packedTransform ideal c rb k) (packedTransform ideal c rb (c.m - k))) =
      toC w * oddSum c rb k := by
  have hz := toC_packedTransform hcfg rb hlt
  have hz' : (starRingEnd ℂ) (toC (packedTransform ideal c rb (c.m - k))) =
      evenSum c rb k - Complex.I * oddSum c rb k := by
    rw [toC_packedTransform hcfg rb (by omega), map_add, map_mul, Complex.conj_I, conj_evenSum rb (by omega),
      conj_oddSum rb (by omega), Nat.sub_sub_self hlt.le]
    ring
  have hhalf : toC ⟨ideal.ofNat 0, ideal.neg ideal.half⟩ = -(Complex.I / 2) := by
    apply Complex.ext <;> simp [ideal]
  have htwo : ((ideal.ofNat 2 : ℝ) : ℂ) = 2 := by simp [ideal]
  constructor
  · rw [evenPart, toC_divBy, toC_add, toC_conj, hz, hz', htwo]
    ring
  · rw [splitOdd, toC_mul, toC_mul, toC_sub, toC_conj, hz, hz', hhalf]
    linear_combination (-toC w * oddSum c rb k) * Complex.I_mul_I

theorem toC_splitSlotAt (hcfg : LegalGeometry c) (rb : List ℝ) {k : Nat} (hk : 1 ≤ k) (hlt : k < c.m) :
    toC (splitSlotAt ideal c (packedTransform ideal c rb) k) = dft .forward c.n (sampleAt rb) k := by
  have hw {t : Nat} (ht : 1 ≤ t) :
      toC (recurTwiddle ideal (splitTwiddle ideal c.n) (t - 1)) = unitRoot .forward c.n ^ t := by
    rw [toC_recurTwiddle (toC_splitTwiddle c.n), Nat.sub_add_cancel ht]
  by_cases hlow : 2 * k < c.m
  · obtain ⟨he, ho⟩ := toC_evenPart_splitOdd hcfg rb hk hlt (recurTwiddle ideal (splitTwiddle ideal c.n) (k - 1))
    rw [splitSlotAt_low _ hk hlow, splitLow, toC_add, he, ho, hw hk, dft_sampleAt hcfg]
  · obtain ⟨t, rfl⟩ : ∃ t, k = c.m - t := ⟨c.m - k, by omega⟩
    have ht : 1 ≤ t := by omega
    have hn := hcfg.two_mul_m
    obtain ⟨he, ho⟩ := toC_evenPart_splitOdd hcfg rb ht (by omega) (recurTwiddle ideal (splitTwiddle ideal c.n) (t - 1))
    rw [splitSlotAt_high _ ht (by omega), splitHigh, toC_conj, toC_sub, he, ho, hw ht, ← dft_sampleAt_add_m hcfg,
      conj_dft_of_real (by omega) fun _ => conj_sampleAt _ _, show c.n - (t + c.m) = c.m - t by omega]

/-- Slot 0 holds the DC and the Nyquist value, both real. -/
theorem splitSlotAt_zero (hcfg : LegalGeometry c) (rb : List ℝ) :
    ((splitSlotAt ideal c (packedTransform ideal c rb) 0).re : ℂ) = dft .forward c.n (sampleAt rb) 0 ∧
    ((splitSlotAt ideal c (packedTransform ideal c rb) 0).im : ℂ) = dft .forward c.n (sampleAt rb) c.m := by
  have hz := toC_packedTransform hcfg rb hcfg.m_pos
  have hreal {x : Nat → ℂ} (hx : ∀ n, (starRingEnd ℂ) (x n) = x n) :
      (starRingEnd ℂ) (dft .forward c.m x 0) = dft .forward c.m x 0 := by
    rw [conj_dft_of_real (Nat.zero_le _) hx, Nat.sub_zero, ← dft_add_len _ hcfg.m_pos x 0, Nat.zero_add]
  have he : ((evenSum c rb 0).re : ℂ) = evenSum c rb 0 := Complex.conj_eq_iff_re.1 (hreal fun _ => conj_sampleAt _ _)
  have ho : ((oddSum c rb 0).re : ℂ) = oddSum c rb 0 := Complex.conj_eq_iff_re.1 (hreal fun _ => conj_sampleAt _ _)
  rw [← he, ← ho] at hz
  have hre : (packedTransform ideal c rb 0).re = (evenSum c rb 0).re := by simpa using congrArg Complex.re hz
  have him : (packedTransform ideal c rb 0).im = (oddSum c rb 0).re := by simpa using congrArg Complex.im hz
  have hm := dft_sampleAt_add_m hcfg rb 0
  rw [Nat.zero_add] at hm
  rw [hm, dft_sampleAt hcfg, pow_zero, one_mul, ← he, ← ho, ← hre, ← him]
  exact ⟨Complex.ofReal_add _ _, Complex.ofReal_sub _ _⟩

/-- Settles O55: slot by slot, the even/odd split joins the two half transforms into the sum over all samples. -/
theorem rfftComputesTransformSum : Obligations.RfftComputesTransformSum := by
  intro c te hcfg _ k hk
  change k ≤ c.m at hk
  have hts {i : Nat} (hi : i < c.m) := cxAt_packedSpectrum (num := ideal) hcfg te.rb hi
  obtain ⟨hdc, hnyquist⟩ := splitSlotAt_zero hcfg te.rb
  have hzero (x : ℝ) : toC ⟨x, ideal.ofNat 0⟩ = x := by apply Complex.ext <;> simp [ideal]
  change cAt _ k = dirScale c .forward * dft .forward c.n (sampleAt te.rb) k
  rw [cAt, rfft_sp, cxAt_unpackSpectrum hk]
  split_ifs with h0 hm
  · rw [hzero, hts hcfg.m_pos, scaledAt_ideal, Cx.scale_re, h0, ← hdc, dirScale_eq_realScale]
    exact Complex.ofReal_mul _ _
  · rw [hzero, hts hcfg.m_pos, scaledAt_ideal, Cx.scale_im, hm, ← hnyquist, dirScale_eq_realScale]
    exact Complex.ofReal_mul _ _
  · rw [hts (by omega), toC_scaledAt, toC_splitSlotAt hcfg te.rb (by omega) (by omega)]

end Sys2Proof.Machine
end

section
/-! PROOF. IRFFT under the ideal semantics (41_transform.md R137, R139). -/

namespace Sys2Proof.Machine

variable {c : Config ℝ}

theorem hermitian_of_lt_half {n k : Nat} (h0 : k ≠ 0) (h : k < n / 2) (sp : List (Cx ℝ)) :
    hermitian n sp k = cAt sp k := by
  rw [hermitian, if_neg h0, if_pos h]

theorem hermitian_half {n : Nat} (h : n / 2 ≠ 0) (sp : List (Cx ℝ)) :
    hermitian n sp (n / 2) = ((cAt sp (n / 2)).re : ℂ) := by
  rw [hermitian, if_neg h, if_neg (Nat.lt_irrefl _), if_pos rfl]

theorem hermitian_of_half_lt {n k : Nat} (h : n / 2 < k) (sp : List (Cx ℝ)) :
    hermitian n sp k = (starRingEnd ℂ) (cAt sp (n - k)) := by
  rw [hermitian, if_neg (by omega), if_neg (by omega), if_neg (by omega)]

/-- The full spectrum of the real inverse transform is conjugate-symmetric. -/
theorem conj_hermitian {n k : Nat} (hn : n % 2 = 0) (sp : List (Cx ℝ)) (hk : k < n) :
    (starRingEnd ℂ) (hermitian n sp k) = hermitian n sp ((n - k) % n) := by
  by_cases h0 : k = 0
  · simp [h0, hermitian]
  rw [Nat.mod_eq_of_lt (by omega : n - k < n)]
  rcases Nat.lt_trichotomy k (n / 2) with h | h | h
  · rw [hermitian_of_lt_half h0 h, hermitian_of_half_lt (by omega), Nat.sub_sub_self hk.le]
  · rw [h, show n - n / 2 = n / 2 by omega, hermitian_half (by omega), Complex.conj_ofReal]
  · rw [hermitian_of_half_lt h, hermitian_of_lt_half (by omega) (by omega), Complex.conj_conj]

/-- Slot `k` of the merged spectrum, uniformly in k, from the full spectrum at k and at k + M. -/
noncomputable def mergedSum (c : Config ℝ) (sp : List (Cx ℝ)) (k : Nat) : ℂ :=
  ((hermitian c.n sp k + hermitian c.n sp (k + c.m)) +
    Complex.I * (unitRoot .inverse c.n ^ k * (hermitian c.n sp k - hermitian c.n sp (k + c.m)))) / 2

/-- Step 3 of `irfft()` puts `E + i×O` into slot k and `conj(E) + i×conj(O)` into slot M - k (41_transform.md R137). -/
theorem toC_merge (w a z : Cx ℝ) :
    toC (mergeLow ideal w a z) = ((toC a + (starRingEnd ℂ) (toC z)) +
      Complex.I * (toC w * (toC a - (starRingEnd ℂ) (toC z)))) / 2 ∧
    toC (mergeHigh ideal w a z) = ((toC z + (starRingEnd ℂ) (toC a)) -
      Complex.I * ((starRingEnd ℂ) (toC w) * (toC z - (starRingEnd ℂ) (toC a)))) / 2 := by
  constructor <;> apply Complex.ext <;> simp [mergeLow, mergeHigh, evenPart, mergeOdd, ideal] <;> ring

theorem toC_mergeSlotAt (hcfg : LegalGeometry c) (sp : List (Cx ℝ)) {k : Nat} (hk : k < c.m) :
    toC (mergeSlotAt ideal c sp k) = mergedSum c sp k := by
  have hn := hcfg.two_mul_m
  have hhalf : c.n / 2 = c.m := rfl
  have hw {t : Nat} (ht : 1 ≤ t) :
      toC (recurTwiddle ideal (mergeTwiddle ideal c.n) (t - 1)) = unitRoot .inverse c.n ^ t := by
    rw [toC_recurTwiddle (toC_mergeTwiddle c.n), Nat.sub_add_cancel ht]
  have hbin {t : Nat} (ht : 1 ≤ t) (hlt : t < c.m) : hermitian c.n sp t = toC (cxAt ideal sp t) ∧
      hermitian c.n sp (t + c.m) = (starRingEnd ℂ) (toC (cxAt ideal sp (c.m - t))) := by
    refine ⟨hermitian_of_lt_half (by omega) hlt sp, ?_⟩
    rw [hermitian_of_half_lt (by omega), show c.n - (t + c.m) = c.m - t by omega, cAt]
  unfold mergedSum
  by_cases h0 : k = 0
  · have hM : hermitian c.n sp (0 + c.m) = ((cxAt ideal sp c.m).re : ℂ) := by
      rw [Nat.zero_add]
      exact hermitian_half hcfg.m_pos.ne' sp
    have hD : hermitian c.n sp 0 = ((cxAt ideal sp 0).re : ℂ) := rfl
    rw [h0, hM, hD, mergeSlotAt, if_pos rfl]
    apply Complex.ext <;> simp [ideal]
  by_cases hlow : 2 * k < c.m
  · obtain ⟨ha, hz⟩ := hbin (by omega) hk
    rw [mergeSlotAt_low _ (by omega) hlow, (toC_merge _ _ _).1, hw (by omega), ha, hz]
  · obtain ⟨t, rfl⟩ : ∃ t, k = c.m - t := ⟨c.m - k, by omega⟩
    have ht : 1 ≤ t := by omega
    obtain ⟨ha, hz⟩ := hbin (by omega) hk
    have hturn : unitRoot .inverse c.n ^ (c.m - t) = -(starRingEnd ℂ) (unitRoot .inverse c.n ^ t) := by
      have hm : unitRoot .inverse c.n ^ c.m = -1 := hn ▸ unitRoot_two_mul_pow .inverse hcfg.m_pos
      rw [map_pow, conj_unitRoot, unitRoot_opposite_pow .inverse (b := c.m + (c.m - t)) ⟨1, by omega⟩, pow_add, hm]
      ring
    rw [mergeSlotAt_high _ ht (by omega), (toC_merge _ _ _).2, hw ht, ha, hz, hturn, Nat.sub_sub_self (by omega)]
    ring

/-- The inverse transform of the merged slots holds two samples per slot, still to be scaled. -/
theorem toC_timePairs (hcfg : LegalGeometry c) (sp : List (Cx ℝ)) {j : Nat} (hj : j < c.m) :
    toC (cxAt ideal (timePairs ideal c sp) j) = (dft .inverse c.n (hermitian c.n sp) (2 * j) +
      Complex.I * dft .inverse c.n (hermitian c.n sp) (2 * j + 1)) / 2 := by
  have hslots : toC (cxAt ideal (timePairs ideal c sp) j) = dft .inverse c.m (mergedSum c sp) j := by
    have hmerge (i : Nat) (hi : i < c.m) := toC_mergeSlotAt hcfg sp hi
    obtain ⟨p, hm⟩ := hcfg.m_eq_two_pow
    rw [cxAt_timePairs hcfg sp hj]
    rw [hm] at hj hmerge ⊢
    rw [Nat.log2_two_pow, toC_fftRec _ _ _ hj, dft_congr hmerge]
  rw [hslots, ← hcfg.two_mul_m, dft_two_mul_even, dft_two_mul_odd, ← dft_const_mul, ← dft_add, div_eq_inv_mul,
    ← dft_const_mul]
  refine dft_congr (fun n _ => ?_) j
  rw [mergedSum, hcfg.two_mul_m, div_eq_inv_mul]

theorem ofReal_irfftScale (c : Config ℝ) : ((irfftScale ideal c : ℝ) : ℂ) = 2 * dirScale c .inverse := by
  unfold irfftScale dirScale
  cases hnorm : c.norm <;> simp [ideal, normalises, div_eq_mul_inv]

/-- The sums over a conjugate-symmetric spectrum are real, so the two samples of a slot are its two parts. -/
theorem sampleAt_irfft (hcfg : LegalGeometry c) (te : Engine ℝ) {n : Nat} (hn : n < c.n) :
    sampleAt (irfft ideal c te).rb n = dirScale c .inverse * dft .inverse c.n (hermitian c.n te.sp) n := by
  have hm := hcfg.two_mul_m
  have hreal (i : Nat) :
      ((dft .inverse c.n (hermitian c.n te.sp) i).re : ℂ) = dft .inverse c.n (hermitian c.n te.sp) i :=
    Complex.conj_eq_iff_re.1 (conj_dft_of_symmetric (fun _ hk => conj_hermitian hcfg.n_even te.sp hk) i)
  have hscaled (i : Nat) : (ideal.mul (irfftScale ideal c) ((dft .inverse c.n (hermitian c.n te.sp) i).re / 2) : ℂ) =
      dirScale c .inverse * dft .inverse c.n (hermitian c.n te.sp) i := by
    have hmul (x y : ℝ) : ((ideal.mul x y : ℝ) : ℂ) = x * y := Complex.ofReal_mul x y
    rw [hmul, ofReal_irfftScale, Complex.ofReal_div, hreal, Complex.ofReal_ofNat]
    ring
  obtain ⟨j, hj⟩ : ∃ j, n = 2 * j ∨ n = 2 * j + 1 := ⟨n / 2, by omega⟩
  obtain ⟨heven, hodd⟩ := valAt_unpackReal (num := ideal) (irfftScale ideal c) (timePairs ideal c te.sp)
    (show 2 * j + 1 < c.n by omega)
  have hpair := toC_timePairs hcfg te.sp (show j < c.m by omega)
  rw [← hreal (2 * j), ← hreal (2 * j + 1)] at hpair
  rcases hj with rfl | rfl
  · have hre : (cxAt ideal (timePairs ideal c te.sp) j).re =
        (dft .inverse c.n (hermitian c.n te.sp) (2 * j)).re / 2 := by
      simpa using congrArg Complex.re hpair
    rw [sampleAt, irfft_rb, heven, hre, hscaled]
  · have him : (cxAt ideal (timePairs ideal c te.sp) j).im =
        (dft .inverse c.n (hermitian c.n te.sp) (2 * j + 1)).re / 2 := by
      simpa using congrArg Complex.im hpair
    rw [sampleAt, irfft_rb, hodd, him, hscaled]

/-- Settles O56: the merged slots hold the spectrum at k and at k + M, so their transform holds the even and the odd sums. -/
theorem irfftComputesInverseSum : Obligations.IrfftComputesInverseSum := fun _ te hcfg _ _ hn => sampleAt_irfft hcfg te hn

end Sys2Proof.Machine
end

section
/-! PROOF. The transforms undo each other under the ideal semantics (41_transform.md R140). -/

namespace Sys2Proof.Machine

variable {c : Config ℝ}

theorem dirScale_mul_opposite (c : Config ℝ) (dir : Direction) :
    dirScale c dir.opposite * dirScale c dir = 1 / c.n := by
  unfold dirScale
  cases dir <;> cases hnorm : c.norm <;> simp [normalises, Direction.opposite]

/-- A scaled transform sum of scaled transform sums in the other direction. -/
theorem scaled_dft_opposite_dft (dir : Direction) {x y : Nat → ℂ}
    (hy : ∀ n < c.n, y n = dirScale c dir * dft dir c.n x n) {k : Nat} (hk : k < c.n) :
    dirScale c dir.opposite * dft dir.opposite c.n y k = x k := by
  have hn : (c.n : ℂ) ≠ 0 := Nat.cast_ne_zero.2 (Nat.ne_zero_of_lt hk)
  rw [dft_congr hy, dft_const_mul, dft_opposite_dft dir x hk, ← mul_assoc, dirScale_mul_opposite, one_div,
    inv_mul_cancel_left₀ hn]

theorem eq_of_getD_eq {α : Type} {a b : List α} {d : α} (hlen : a.length = b.length)
    (h : ∀ k < b.length, a.getD k d = b.getD k d) : a = b :=
  List.ext_getElem hlen fun k ha hb => by simpa [List.getD_eq_getElem, ha, hb] using h k hb

theorem cfft_opposite_cfft (hcfg : LegalGeometry c) (dir : Direction) {cb : List (Cx ℝ)} (hcb : cb.length = c.n) :
    cfft ideal c dir.opposite (cfft ideal c dir cb) = cb := by
  refine eq_of_getD_eq (d := Cx.zero ideal) (by simp) fun k hk => toC_injective ?_
  rw [hcb] at hk
  exact (cfftComputesTransformSum c dir.opposite _ hcfg (by simpa using hcb) k hk).trans
    (scaled_dft_opposite_dft dir (cfftComputesTransformSum c dir cb hcfg hcb) hk)

/-- The spectrum that RFFT leaves is that of all N points. -/
theorem hermitian_rfft (hcfg : LegalGeometry c) {te : Engine ℝ} (hrb : te.rb.length = c.n) {k : Nat} (hk : k < c.n) :
    hermitian c.n (rfft ideal c te).sp k = dirScale c .forward * dft .forward c.n (sampleAt te.rb) k := by
  have hsum {i : Nat} (hi : i ≤ c.n / 2) : cAt (rfft ideal c te).sp i =
      dirScale c .forward * dft .forward c.n (sampleAt te.rb) i := rfftComputesTransformSum c te hcfg hrb i hi
  have hconj {i : Nat} (hi : i ≤ c.n) : (starRingEnd ℂ) (dirScale c .forward * dft .forward c.n (sampleAt te.rb) i) =
      dirScale c .forward * dft .forward c.n (sampleAt te.rb) (c.n - i) := by
    rw [map_mul, conj_dft_of_real hi fun _ => conj_sampleAt _ _, dirScale_eq_realScale, Complex.conj_ofReal]
  have hperiod := dft_add_len .forward hcfg.n_pos (sampleAt te.rb) 0
  have hn := hcfg.n_even
  by_cases h0 : k = 0
  · rw [h0, hermitian, if_pos rfl, hsum (Nat.zero_le _)]
    refine Complex.conj_eq_iff_re.1 ((hconj (Nat.zero_le _)).trans ?_)
    rw [Nat.sub_zero, ← hperiod, Nat.zero_add]
  rcases Nat.lt_trichotomy k (c.n / 2) with h | h | h
  · rw [hermitian_of_lt_half h0 h, hsum h.le]
  · rw [h, hermitian_half (by omega), hsum le_rfl]
    refine Complex.conj_eq_iff_re.1 ((hconj (by omega)).trans ?_)
    rw [show c.n - c.n / 2 = c.n / 2 by omega]
  · rw [hermitian_of_half_lt h, hsum (by omega), hconj (by omega), Nat.sub_sub_self hk.le]

theorem irfft_rfft (hcfg : LegalGeometry c) {te : Engine ℝ} (hrb : te.rb.length = c.n) :
    (irfft ideal c (rfft ideal c te)).rb = te.rb := by
  refine eq_of_getD_eq (d := zero ideal) (by simp [hrb]) fun k hk => Complex.ofReal_injective ?_
  rw [hrb] at hk
  exact (sampleAt_irfft hcfg _ hk).trans (scaled_dft_opposite_dft .forward (fun _ => hermitian_rfft hcfg hrb) hk)

/-- Where its edge bins are real, the full spectrum repeats the bins. -/
theorem hermitian_of_real_edges (hcfg : LegalGeometry c) {sp : List (Cx ℝ)} (h0 : (cxAt ideal sp 0).im = 0)
    (hM : (cxAt ideal sp c.m).im = 0) {k : Nat} (hk : k ≤ c.m) : hermitian c.n sp k = cAt sp k := by
  have hre {i : Nat} (him : (cxAt ideal sp i).im = 0) : ((cAt sp i).re : ℂ) = cAt sp i :=
    Complex.ext rfl him.symm
  by_cases hk0 : k = 0
  · rw [hk0]
    exact hre h0
  rcases Nat.lt_or_eq_of_le hk with h | rfl
  · exact hermitian_of_lt_half hk0 h sp
  · exact (hermitian_half hcfg.m_pos.ne' sp).trans (hre hM)

theorem rfft_irfft (hcfg : LegalGeometry c) {te : Engine ℝ} (hsp : te.sp.length = c.nb)
    (h0 : (cxAt ideal te.sp 0).im = 0) (hM : (cxAt ideal te.sp c.m).im = 0) :
    (rfft ideal c (irfft ideal c te)).sp = te.sp := by
  refine eq_of_getD_eq (d := Cx.zero ideal) (by simp [hsp, Config.nb, Config.m]) fun k hk => toC_injective ?_
  have hn := hcfg.two_mul_m
  have hm := hcfg.m_pos
  rw [hsp] at hk
  have hk : k ≤ c.m := Nat.le_of_lt_succ hk
  exact (rfftComputesTransformSum c _ hcfg (by simp) k hk).trans
    ((scaled_dft_opposite_dft .inverse (fun _ => sampleAt_irfft hcfg te) (by omega)).trans
      (hermitian_of_real_edges hcfg h0 hM hk))

/-- Settles O57: every transform is a scaled sum, the sums invert each other, and the two scales multiply to 1/N. -/
theorem transformsInvertEachOther : Obligations.TransformsInvertEachOther := fun _ _ _ hcfg hrb hsp hcb =>
  ⟨irfft_rfft hcfg hrb, rfft_irfft hcfg hsp, cfft_opposite_cfft hcfg .forward hcb, cfft_opposite_cfft hcfg .inverse hcb⟩

end Sys2Proof.Machine
end

section
/-! PROOF. ANALYZE takes its samples one by one, and its indices count them (42_analyzer.md R161, R162, R166). -/

namespace Sys2Proof.Machine

variable {V : Type}

/-! ## One sample at a time -/

/-- The iteration of ANALYZE's loop that accepts the one sample `x` (42_analyzer.md R161). -/
def takeSample (num : Num V) (cfg : Config V) (r : Rates V) (x : V) (p : Analyzer V × Engine V) : Analyzer V × Engine V :=
  analyzeIter num cfg r [x] 0 1 p

/-- The samples `x 0`, ..., `x (n - 1)` accepted one by one. -/
def takeSamples (num : Num V) (cfg : Config V) (r : Rates V) (x : Nat → V) (n : Nat) (p : Analyzer V × Engine V) :
    Analyzer V × Engine V :=
  forTo n (fun q => takeSample num cfg r (x q)) p

variable {num : Num V} {cfg : Config V} {r : Rates V}

theorem takeSamples_succ (x : Nat → V) (n : Nat) (p : Analyzer V × Engine V) :
    takeSamples num cfg r x (n + 1) p = takeSample num cfg r (x n) (takeSamples num cfg r x n p) := rfl

theorem takeSamples_add (x : Nat → V) (m n : Nat) (p : Analyzer V × Engine V) :
    takeSamples num cfg r x (m + n) p = takeSamples num cfg r (fun q => x (m + q)) n (takeSamples num cfg r x m p) :=
  forTo_add ..

theorem takeSamples_congr {x y : Nat → V} {n : Nat} (h : ∀ q < n, x q = y q) (p : Analyzer V × Engine V) :
    takeSamples num cfg r x n p = takeSamples num cfg r y n p :=
  forTo_congr fun q hq _ => by rw [h q hq]

theorem analyzeIter_one (sin : List V) (i : Nat) (p : Analyzer V × Engine V) :
    analyzeIter num cfg r sin i 1 p = takeSample num cfg r (valAt num sin i) p := rfl

theorem analyzeIter_of_short {sin : List V} {i n : Nat} {p : Analyzer V × Engine V} (h : p.1.pos + n ≠ cfg.h) :
    analyzeIter num cfg r sin i n p = (acceptSamples num cfg sin i n p.1, p.2) := if_neg h

theorem analyzeIter_of_full {sin : List V} {i n : Nat} {p : Analyzer V × Engine V} (h : p.1.pos + n = cfg.h) :
    analyzeIter num cfg r sin i n p = completeHop num cfg r (acceptSamples num cfg sin i n p.1, p.2) := if_pos h

theorem acceptSamples_succ (sin : List V) (i n : Nat) (an : Analyzer V) :
    acceptSamples num cfg sin i (n + 1) an =
      acceptSamples num cfg sin (i + n) 1 (acceptSamples num cfg sin i n an) := by
  simp [acceptSamples, forTo_succ, Nat.add_assoc]

/-- While the hop is not full, samples taken one by one are accepted as one chunk. -/
theorem takeSamples_of_short (sin : List V) (i : Nat) {n : Nat} {p : Analyzer V × Engine V} (h : p.1.pos + n < cfg.h) :
    takeSamples num cfg r (fun q => valAt num sin (i + q)) n p = (acceptSamples num cfg sin i n p.1, p.2) := by
  induction n with
  | zero => rfl
  | succ n ih =>
    rw [takeSamples_succ, ih (by omega), ← analyzeIter_one, acceptSamples_succ]
    exact analyzeIter_of_short h.ne

/-- An iteration of ANALYZE's loop takes the samples that fit one by one. -/
theorem analyzeIter_eq_takeSamples (sin : List V) (i : Nat) {n : Nat} {p : Analyzer V × Engine V} (hn : 0 < n)
    (hfit : p.1.pos + n ≤ cfg.h) :
    analyzeIter num cfg r sin i n p = takeSamples num cfg r (fun q => valAt num sin (i + q)) n p := by
  obtain ⟨m, rfl⟩ : ∃ m, n = m + 1 := ⟨n - 1, by omega⟩
  rw [takeSamples_succ, takeSamples_of_short sin i (by omega), ← analyzeIter_one]
  simp only [analyzeIter, acceptSamples_succ sin i m]

/-! ## The indices and the counter -/

theorem takeSample_of_short (x : V) {p : Analyzer V × Engine V} (h : p.1.pos + 1 ≠ cfg.h) :
    takeSample num cfg r x p = (acceptSamples num cfg [x] 0 1 p.1, p.2) := analyzeIter_of_short h

theorem takeSample_of_full (x : V) {p : Analyzer V × Engine V} (h : p.1.pos + 1 = cfg.h) :
    takeSample num cfg r x p = completeHop num cfg r (acceptSamples num cfg [x] 0 1 p.1, p.2) := analyzeIter_of_full h

/-- The number after t: either the remainder by h returns to 0 and the quotient moves on, or only the remainder moves. -/
theorem div_mod_add_one {h : Nat} (hh : 0 < h) (t : Nat) :
    (t % h + 1 = h ∧ (t + 1) / h = t / h + 1 ∧ (t + 1) % h = 0) ∨
    (t % h + 1 ≠ h ∧ (t + 1) / h = t / h ∧ (t + 1) % h = t % h + 1) := by
  have hdiv := Nat.mod_add_div t h
  have hlt := Nat.mod_lt t hh
  by_cases hfull : t % h + 1 = h
  · refine .inl ⟨hfull, (Nat.div_mod_unique hh).2 ⟨?_, hh⟩⟩
    rw [Nat.mul_succ]
    omega
  · exact .inr ⟨hfull, (Nat.div_mod_unique hh).2 ⟨by omega, by omega⟩⟩

/-- POS counts the samples modulo H (42_analyzer.md R161). -/
theorem takeSamples_pos (x : Nat → V) (n : Nat) {p : Analyzer V × Engine V} (hpos : p.1.pos < cfg.h) :
    (takeSamples num cfg r x n p).1.pos = (p.1.pos + n) % cfg.h := by
  induction n with
  | zero => exact (Nat.mod_eq_of_lt hpos).symm
  | succ n ih =>
    rw [takeSamples_succ, ← Nat.add_assoc]
    rcases div_mod_add_one (Nat.zero_lt_of_lt hpos) (p.1.pos + n) with ⟨hfull, -, e⟩ | ⟨hshort, -, e⟩ <;> rw [e]
    · rw [takeSample_of_full _ (ih.symm ▸ hfull), completeHop_pos]
    · rw [takeSample_of_short _ (ih.symm ▸ hshort), acceptSamples_pos, ih]

theorem takeSamples_pos_lt (x : Nat → V) (n : Nat) {p : Analyzer V × Engine V} (hpos : p.1.pos < cfg.h) :
    (takeSamples num cfg r x n p).1.pos < cfg.h :=
  (takeSamples_pos x n hpos).trans_lt (Nat.mod_lt _ (Nat.zero_lt_of_lt hpos))

/-- HNUM and FCNT count the completed hops (42_analyzer.md R161, R166). -/
theorem takeSamples_hnum_fcnt (x : Nat → V) (n : Nat) {p : Analyzer V × Engine V} (hp : p.1.IndicesInRange cfg) :
    (takeSamples num cfg r x n p).1.hnum = (p.1.hnum + (p.1.pos + n) / cfg.h) % cfg.dm ∧
    (takeSamples num cfg r x n p).1.fcnt = p.1.fcnt + BitVec.ofNat 32 ((p.1.pos + n) / cfg.h) := by
  obtain ⟨hhnum, hpos⟩ := hp
  induction n with
  | zero =>
    rw [Nat.add_zero, Nat.div_eq_of_lt hpos]
    exact ⟨(Nat.mod_eq_of_lt hhnum).symm, (BitVec.add_zero _).symm⟩
  | succ n ih =>
    obtain ⟨ihnum, ihfcnt⟩ := ih
    have hn := takeSamples_pos (num := num) (r := r) x n hpos
    rw [takeSamples_succ, ← Nat.add_assoc]
    rcases div_mod_add_one (Nat.zero_lt_of_lt hpos) (p.1.pos + n) with ⟨hfull, e, -⟩ | ⟨hshort, e, -⟩ <;> rw [e]
    · rw [takeSample_of_full _ (hn.symm ▸ hfull), completeHop_hnum, completeHop_fcnt, acceptSamples_hnum,
        acceptSamples_fcnt, ihnum, ihfcnt]
      exact ⟨by rw [Nat.mod_add_mod, Nat.add_assoc], by rw [BitVec.ofNat_add, BitVec.add_assoc]; rfl⟩
    · rw [takeSample_of_short _ (hn.symm ▸ hshort)]
      exact ⟨ihnum, ihfcnt⟩

/-! ## ANALYZE -/

/-- The loop of ANALYZE takes the samples from `i` on one by one. -/
theorem analyzeLoop_eq_takeSamples (sin : List V) (len fuel i : Nat) {p : Analyzer V × Engine V}
    (hpos : p.1.pos < cfg.h) (hfuel : len ≤ i + fuel) :
    analyzeLoop num cfg r sin len fuel i p = takeSamples num cfg r (fun q => valAt num sin (i + q)) (len - i) p := by
  induction fuel generalizing i p with
  | zero =>
    rw [Nat.sub_eq_zero_of_le (show len ≤ i from hfuel)]
    rfl
  | succ fuel ih =>
    rw [analyzeLoop_succ]
    split
    next hi =>
      obtain ⟨n, hn⟩ : ∃ n, fitting cfg len i p.1 = n := ⟨_, rfl⟩
      obtain ⟨hpositive, hfit, hlen⟩ : 0 < n ∧ p.1.pos + n ≤ cfg.h ∧ len - i = n + (len - (i + n)) := by
        unfold fitting at hn
        omega
      rw [hn, analyzeIter_eq_takeSamples sin i hpositive hfit, ih (i + n) (takeSamples_pos_lt _ n hpos) (by omega), hlen,
        takeSamples_add]
      simp only [Nat.add_assoc]
    next hi =>
      rw [Nat.sub_eq_zero_of_le (Nat.le_of_not_lt hi)]
      rfl

/-- ANALYZE takes the samples of SIN one by one. -/
theorem analyze_eq_takeSamples (sin : List V) (len : Nat) {p : Analyzer V × Engine V} (hpos : p.1.pos < cfg.h) :
    analyze num cfg r sin len p = takeSamples num cfg r (valAt num sin) len p := by
  rw [analyze, analyzeLoop_eq_takeSamples sin len len 0 hpos (Nat.le_add_left ..)]
  simp only [Nat.zero_add, Nat.sub_zero]

end Sys2Proof.Machine
end

section
/-! PROOF. What ANALYZE answers: the error, the counts, and the same whatever the chunks (42_analyzer.md R161, R166, R167). -/

namespace Sys2Proof.Machine

/-- A legal chunk is taken sample by sample, and nothing but the analyzer and the engine changes. -/
theorem exec_analyze_of_le {s : State} {len : Nat} (hlen : len ≤ s.cfg.chmax) (hpos : s.an.pos < s.cfg.h) :
    exec (.analyze len) s = .next { s with
      an := (takeSamples num s.cfg s.rates (valAt num s.sin) len (s.an, s.te)).1
      te := (takeSamples num s.cfg s.rates (valAt num s.sin) len (s.an, s.te)).2 } := by
  rcases execAnalyze_cases len s with ⟨hgt, -⟩ | ⟨-, e⟩
  · omega
  · rw [← analyze_eq_takeSamples s.sin len (p := (s.an, s.te)) hpos]
    exact e

/-- Settles O33: the word is the encoding of the instruction it decodes to. -/
theorem analyzeTooLongRaises : Obligations.AnalyzeTooLongRaises := by
  intro s w len hw hlen
  obtain ⟨-, rfl⟩ := encodeOfDecode w _ hw
  rcases execAnalyze_cases len s with ⟨-, e⟩ | ⟨hle, -⟩
  · exact e
  · omega

/-- Settles O34: POS counts the samples modulo H, HNUM and FCNT count the hops. -/
theorem analyzeCountsHops : Obligations.AnalyzeCountsHops := by
  intro s len _ hpos hhnum hlen
  exact ⟨_, exec_analyze_of_le hlen hpos, rfl, takeSamples_pos _ len hpos,
    takeSamples_hnum_fcnt _ len (p := (s.an, s.te)) ⟨hhnum, hpos⟩⟩

/-! ## Chunks -/

theorem valAt_append_left {a : List Word} {i : Nat} (h : i < a.length) (b : List Word) :
    valAt num (a ++ b) i = valAt num a i := List.getD_append _ _ _ _ h

theorem valAt_append_right (a b : List Word) (i : Nat) : valAt num (a ++ b) (a.length + i) = valAt num b i := by
  rw [valAt, List.getD_append_right _ _ _ _ (Nat.le_add_right _ _), Nat.add_sub_cancel_left]
  rfl

/-- Feeding a chunk takes its samples one by one. -/
theorem feedChunk_next {s : State} {chunk : List Word} (hlen : chunk.length ≤ s.cfg.chmax) (hpos : s.an.pos < s.cfg.h) :
    ∃ t, feedChunk s chunk = some t ∧ t.cfg = s.cfg ∧ t.rates = s.rates ∧ t.err = s.err ∧
      (t.an, t.te) = takeSamples num s.cfg s.rates (valAt num chunk) chunk.length (s.an, s.te) := by
  rw [feedChunk, exec_analyze_of_le (s := { s with sin := chunk ++ s.sin.drop chunk.length }) hlen hpos]
  exact ⟨_, rfl, rfl, rfl, rfl, takeSamples_congr (fun q hq => valAt_append_left hq _) _⟩

/-- Feeding chunks takes the samples of all of them one by one. -/
theorem foldlM_feedChunk {s : State} (chunks : List (List Word)) (hlen : chunks.flatten.length ≤ s.cfg.chmax)
    (hpos : s.an.pos < s.cfg.h) :
    ∃ u, chunks.foldlM feedChunk s = some u ∧ u.err = s.err ∧
      (u.an, u.te) = takeSamples num s.cfg s.rates (valAt num chunks.flatten) chunks.flatten.length (s.an, s.te) := by
  induction chunks generalizing s with
  | nil => exact ⟨s, rfl, rfl, rfl⟩
  | cons chunk chunks ih =>
    rw [List.flatten_cons, List.length_append] at hlen ⊢
    obtain ⟨t, hfeed, hcfg, hrates, herr, ht⟩ := feedChunk_next (chunk := chunk) (s := s) (by omega) hpos
    have hpos' : t.an.pos < t.cfg.h := by
      rw [show t.an = (t.an, t.te).1 from rfl, ht, hcfg]
      exact takeSamples_pos_lt _ _ hpos
    obtain ⟨u, hfold, herr', hu⟩ := ih (by rw [hcfg]; omega) hpos'
    refine ⟨u, by rw [List.foldlM_cons, hfeed]; exact hfold, herr'.trans herr, ?_⟩
    rw [hu, ht, hcfg, hrates, takeSamples_add]
    simp only [valAt_append_right]
    rw [takeSamples_congr fun q hq => valAt_append_left hq _]

/-- Settles O38: the chunks and their concatenation take the same samples one by one. -/
theorem chunkingInvariance : Obligations.ChunkingInvariance := by
  intro s chunks _ hpos hlen
  obtain ⟨t, hfeed, -, -, herr, ht⟩ := feedChunk_next hlen hpos
  obtain ⟨u, hfold, herr', hu⟩ := foldlM_feedChunk chunks hlen hpos
  obtain ⟨han, hte⟩ := Prod.mk.inj (hu.trans ht.symm)
  exact ⟨t, u, hfeed, hfold, han, hte, herr', herr⟩

end Sys2Proof.Machine
end

section
/-! PROOF. Where ANALYZE stores its samples: the ring AB (42_analyzer.md R161, R162, R165). -/

namespace Sys2Proof.Machine

section
variable {V : Type} {num : Num V} {cfg : Config V} {r : Rates V}

/-! ## Writing the ring -/

/-- The samples `x 0`, ..., `x (len - 1)` written one after the other into a ring of `n` places from `start` on
(42_analyzer.md R162). -/
def writeRing (n start : Nat) (x : Nat → V) (len : Nat) (ab : List V) : List V :=
  forTo len (fun q ab => ab.set ((start + q) % n) (x q)) ab

@[simp] theorem length_writeRing (n start : Nat) (x : Nat → V) (len : Nat) (ab : List V) :
    (writeRing n start x len ab).length = ab.length := length_forTo fun _ _ _ => List.length_set

theorem writeRing_succ (n start : Nat) (x : Nat → V) (len : Nat) (ab : List V) :
    writeRing n start x (len + 1) ab = (writeRing n start x len ab).set ((start + len) % n) (x len) := rfl

/-- A place no sample reaches keeps its value. -/
theorem valAt_writeRing_of_ne {n start len i : Nat} {x : Nat → V} {ab : List V} (h : ∀ q < len, (start + q) % n ≠ i) :
    valAt num (writeRing n start x len ab) i = valAt num ab i :=
  forTo_keeps (fun a => valAt num a i = valAt num ab i) rfl fun q hq _ ha => (valAt_set_ne num (h q hq) _ _).trans ha

/-- Two samples less than a ring apart are at different places. -/
theorem ring_place_ne {n start q t : Nat} (hlt : q < t) (hnear : t < q + n) : (start + t) % n ≠ (start + q) % n := by
  intro h
  have hmod : t ≡ q [MOD n] := Nat.ModEq.add_left_cancel' start h
  have hdvd : n ∣ t - q := (Nat.modEq_iff_dvd' hlt.le).1 hmod.symm
  have := Nat.le_of_dvd (by omega) hdvd
  omega

/-- A sample is at its place until the sample a whole ring later overwrites it. -/
theorem valAt_writeRing {n start q len : Nat} {ab : List V} (hab : ab.length = n) (hq : q < len) (hlen : len ≤ q + n)
    (x : Nat → V) : valAt num (writeRing n start x len ab) ((start + q) % n) = x q := by
  induction len with
  | zero => omega
  | succ len ih =>
    rw [writeRing_succ]
    rcases Nat.lt_or_eq_of_le (Nat.le_of_lt_succ hq) with hlt | rfl
    · rw [valAt_set_ne num (ring_place_ne hlt (by omega)), ih hlt (by omega)]
    · exact valAt_set_self num (by rw [length_writeRing, hab]; exact Nat.mod_lt _ (by omega)) _

/-! ## The ring of the analyzer -/

theorem LegalGeometry.dm_mul_h (h : LegalGeometry cfg) : cfg.dm * cfg.h = cfg.n := by
  obtain ⟨-, -, -, hdvd, -⟩ := h
  exact Nat.div_mul_cancel (Nat.dvd_of_mod_eq_zero hdvd)

/-- `HNUM × H + POS` is the next place of the ring (42_analyzer.md R162). -/
theorem ring_place (hcfg : LegalGeometry cfg) (b t : Nat) :
    (b + t / cfg.h) % cfg.dm * cfg.h + t % cfg.h = (b * cfg.h + t) % cfg.n := by
  rw [← hcfg.dm_mul_h, Nat.mul_comm cfg.dm, Nat.mod_mul, Nat.mul_add_mod_self_right, Nat.mul_comm b,
    Nat.mul_add_div hcfg.h_pos, Nat.mul_comm cfg.h, Nat.add_comm]

/-- A sample is written at `AB[HNUM × H + POS]` (42_analyzer.md R161), and completing the hop leaves AB alone. -/
theorem takeSample_ab (x : V) (p : Analyzer V × Engine V) :
    (takeSample num cfg r x p).1.ab = p.1.ab.set (p.1.hnum * cfg.h + p.1.pos) x := by
  unfold takeSample analyzeIter
  split <;> rfl

/-- The samples are written into the ring from `HNUM × H + POS` on (42_analyzer.md R162). -/
theorem takeSamples_ab (hcfg : LegalGeometry cfg) (x : Nat → V) (n : Nat) {p : Analyzer V × Engine V}
    (hp : p.1.IndicesInRange cfg) :
    (takeSamples num cfg r x n p).1.ab = writeRing cfg.n (p.1.hnum * cfg.h + p.1.pos) x n p.1.ab := by
  induction n with
  | zero => rfl
  | succ n ih =>
    rw [takeSamples_succ, takeSample_ab, ih, (takeSamples_hnum_fcnt x n hp).1, takeSamples_pos x n hp.2, ring_place hcfg,
      writeRing_succ, Nat.add_assoc]

/-- The hop buffer being filled lies inside the ring (42_analyzer.md R162). -/
theorem hop_end_le (hcfg : LegalGeometry cfg) {b : Nat} (hb : b < cfg.dm) : b * cfg.h + cfg.h ≤ cfg.n := by
  rw [← hcfg.dm_mul_h, ← Nat.succ_mul]
  exact Nat.mul_le_mul_right _ hb

end

/-! ## ANALYZE -/

/-- Settles O35: the samples are written into the ring, where each stays for one turn. -/
theorem analyzeStoresEverySample : Obligations.AnalyzeStoresEverySample := by
  intro s len hcfg hwf hpos hhnum hlen
  obtain ⟨hab, -⟩ := hwf
  refine ⟨_, exec_analyze_of_le hlen hpos, ?_⟩
  simp only [takeSamples_ab hcfg.1 _ len (p := (s.an, s.te)) ⟨hhnum, hpos⟩]
  exact ⟨fun q hq hlast => valAt_writeRing hab hq hlast _, fun i _ hi => valAt_writeRing_of_ne hi⟩

/-- Settles O36: the samples fit the hop, so they are accepted as one chunk, and their places lie inside the ring. -/
theorem analyzeShortChunkNoFrame : Obligations.AnalyzeShortChunkNoFrame := by
  intro s len hcfg hwf hhnum hlen hshort
  obtain ⟨hab, -⟩ := hwf
  have hpos : s.an.pos < s.cfg.h := by omega
  have hend := hop_end_le hcfg.1 hhnum
  have hplace : ∀ q < len, (s.an.hnum * s.cfg.h + s.an.pos + q) % s.cfg.n = s.an.hnum * s.cfg.h + s.an.pos + q :=
    fun q hq => Nat.mod_eq_of_lt (by omega)
  have htake : takeSamples num s.cfg s.rates (valAt num s.sin) len (s.an, s.te) =
      (acceptSamples num s.cfg s.sin 0 len s.an, s.te) := by
    simpa only [Nat.zero_add] using takeSamples_of_short s.sin 0 hshort
  have hring := takeSamples_ab (num := num) (r := s.rates) hcfg.1 (valAt num s.sin) len (p := (s.an, s.te)) ⟨hhnum, hpos⟩
  rw [htake] at hring
  refine ⟨(acceptSamples num s.cfg s.sin 0 len s.an).ab, by rw [exec_analyze_of_le hlen hpos, htake]; rfl, ?_⟩
  rw [hring]
  refine ⟨(length_writeRing ..).trans hab, fun q hq => ?_, fun i hi => valAt_writeRing_of_ne fun q hq => ?_⟩
  · rw [← hplace q hq]
    exact valAt_writeRing hab hq (by omega) _
  · rw [hplace q hq]
    omega

end Sys2Proof.Machine
end

section
/-! PROOF. What a completed hop leaves, element by element (42_analyzer.md R163, R164). -/

namespace Sys2Proof.Machine

section
variable {V : Type} {num : Num V} {cfg : Config V} {r : Rates V}

/-- A chunk that brings exactly the samples the hop needs is accepted and completes the hop (42_analyzer.md R161). -/
theorem analyze_of_full (sin : List V) {len : Nat} {p : Analyzer V × Engine V} (hlen : 0 < len)
    (hfull : p.1.pos + len = cfg.h) :
    analyze num cfg r sin len p = completeHop num cfg r (acceptSamples num cfg sin 0 len p.1, p.2) := by
  have hiter := analyzeIter_eq_takeSamples (num := num) (r := r) sin 0 hlen hfull.le
  simp only [Nat.zero_add] at hiter
  rw [analyze_eq_takeSamples sin len (by omega), ← hiter, analyzeIter_of_full hfull]

/-! ## The window -/

theorem ringOffset_le (hcfg : LegalGeometry cfg) (b : Nat) : ringOffset cfg b ≤ cfg.n :=
  (Nat.le_add_right _ _).trans (hop_end_le hcfg (Nat.mod_lt _ hcfg.dm_pos))

/-- `(i - o) mod n` without a negative number. -/
theorem add_sub_mod_eq_toNat {i o n : Nat} (ho : o ≤ n) : (i + n - o) % n = (((i : Int) - o) % (n : Int)).toNat := by
  have hcast : ((i + n - o : Nat) : Int) = i - o + n := by omega
  rw [← Int.add_emod_right, ← hcast, ← Int.natCast_emod, Int.toNat_natCast]

theorem valAt_windowSegment (an : Analyzer V) {i : Nat} (hi : i < cfg.n) : valAt num (windowSegment num cfg an) i =
    num.mul (valAt num an.ab i) (valAt num cfg.wa ((i + cfg.n - ringOffset cfg an.hnum) % cfg.n)) :=
  getD_map_range hi _ _

/-! ## The bins -/

theorem arg_eq_ite (re im : V) : arg num re im =
    if num.isZero re = true ∧ num.isZero im = true then num.ofNat 0 else num.atan2 im re := by
  simp [arg, zero]

/-- The bin of a spectrum value after the phase `φ` (40_bin_ops.md R111, R114, R116). -/
def binAfter (num : Num V) (r : Rates V) (k : Nat) (z : Cx V) (φ : V) : Bin V :=
  ⟨(toPolar num z).1, ph2hz num r (wrap num (num.sub (toPolar num z).2 φ)) k⟩

theorem analyzeBin_eq (sp : List (Cx V)) (k : Nat) (p : List V × List (Bin V)) : analyzeBin num r sp k p =
    (p.1.set k (toPolar num (cxAt num sp k)).2, p.2.set k (binAfter num r k (cxAt num sp k) (valAt num p.1 k))) := rfl

/-- The loop over the bins before iteration `j`: the bins below `j` are done, the phases from `j` on are those before the
hop (42_analyzer.md R163). -/
def BinsDoneTo (num : Num V) (r : Rates V) (sp : List (Cx V)) (an : Analyzer V) (j : Nat) (q : List V × List (Bin V)) :
    Prop :=
  q.1.length = an.pph.length ∧ q.2.length = an.frame.length ∧
  (∀ k < j, valAt num q.1 k = (toPolar num (cxAt num sp k)).2 ∧
    binAt num q.2 k = binAfter num r k (cxAt num sp k) (valAt num an.pph k)) ∧
  ∀ k ≥ j, valAt num q.1 k = valAt num an.pph k

/-- Iteration `j` writes bin `j` alone, from the phase before the hop. -/
theorem BinsDoneTo.analyzeBin {sp : List (Cx V)} {an : Analyzer V} {j : Nat} {q : List V × List (Bin V)}
    (h : BinsDoneTo num r sp an j q) (hpph : j < an.pph.length) (hframe : j < an.frame.length) :
    BinsDoneTo num r sp an (j + 1) (analyzeBin num r sp j q) := by
  obtain ⟨hlen, hlen', hdone, hleft⟩ := h
  rw [analyzeBin_eq]
  refine ⟨List.length_set.trans hlen, List.length_set.trans hlen', fun k hk => ?_, fun k hk => ?_⟩
  · rcases Nat.lt_or_eq_of_le (Nat.le_of_lt_succ hk) with hlt | rfl
    · rw [valAt_set_ne num hlt.ne', binAt_set_ne num hlt.ne']
      exact hdone k hlt
    · rw [valAt_set_self num (hlen.symm ▸ hpph), binAt_set_self num (hlen'.symm ▸ hframe), hleft k le_rfl]
      exact ⟨rfl, rfl⟩
  · rw [valAt_set_ne num (by omega)]
    exact hleft k (by omega)

/-- What a completed hop leaves in PPH and FRAME (42_analyzer.md R163). -/
theorem completeHop_bin {p : Analyzer V × Engine V} (h : p.1.Shaped cfg) {k : Nat} (hk : k < cfg.nb) :
    valAt num (completeHop num cfg r p).1.pph k = (toPolar num (cxAt num (completeHop num cfg r p).2.sp k)).2 ∧
    binAt num (completeHop num cfg r p).1.frame k =
      binAfter num r k (cxAt num (completeHop num cfg r p).2.sp k) (valAt num p.1.pph k) := by
  obtain ⟨-, hpph, hframe⟩ := h
  obtain ⟨-, -, hdone, -⟩ : BinsDoneTo num r (hopEngine num cfg p).sp p.1 cfg.nb
      (hopBins num cfg r (hopEngine num cfg p).sp p.1) :=
    forTo_induct (BinsDoneTo num r _ p.1) ⟨rfl, rfl, fun _ hk => absurd hk (Nat.not_lt_zero _), fun _ _ => rfl⟩
      fun j hj _ hq => hq.analyzeBin (hpph.symm ▸ hj) (hframe.symm ▸ hj)
  exact hdone k hk

end

/-! ## ANALYZE -/

/-- An ANALYZE that brings exactly the samples the hop needs accepts them and completes the hop. -/
theorem exec_analyze_of_full {s : State} {len : Nat} (hlen : len ≤ s.cfg.chmax) (hpos : 0 < len)
    (hfull : s.an.pos + len = s.cfg.h) : ∃ t, exec (.analyze len) s = .next t ∧
      t.an = (completeHop num s.cfg s.rates (acceptSamples num s.cfg s.sin 0 len s.an, s.te)).1 ∧
      t.te = (completeHop num s.cfg s.rates (acceptSamples num s.cfg s.sin 0 len s.an, s.te)).2 := by
  have hhop := analyze_of_full (num := num) (r := s.rates) s.sin (p := (s.an, s.te)) hpos hfull
  rw [analyze_eq_takeSamples s.sin len (by simp only; omega)] at hhop
  exact ⟨_, exec_analyze_of_le hlen (by omega), congrArg Prod.fst hhop, congrArg Prod.snd hhop⟩

/-- Settles O37: the chunk is accepted and completes the hop, whose window and bins are as R163 and R164 write them. -/
theorem hopCompletionResult : Obligations.HopCompletionResult := by
  intro s len hcfg hwf hhnum hlen hpos hfull
  obtain ⟨hab, hpph, hframe, -⟩ := hwf
  obtain ⟨t, hexec, han, hte⟩ := exec_analyze_of_full hlen hpos hfull
  have hshaped : (acceptSamples num s.cfg s.sin 0 len s.an).Shaped s.cfg :=
    acceptSamples_shaped num s.cfg s.sin 0 len ⟨hab, hpph, hframe⟩
  refine ⟨t, hexec, fun i hi => ?_, ?_, fun k hk => ?_, ?_, ?_, ?_⟩
  · rw [hte, han, completeHop_te, hopEngine_rb, valAt_windowSegment _ hi, add_sub_mod_eq_toNat (ringOffset_le hcfg.1 _)]
    rfl
  · rw [hte]
    rfl
  · have hbin := completeHop_bin (num := num) (r := s.rates) (p := (acceptSamples num s.cfg s.sin 0 len s.an, s.te))
      hshaped (Nat.lt_succ_of_le hk)
    rw [← han, ← hte] at hbin
    simp only [← arg_eq_ite]
    exact hbin
  · rw [han, completeHop_fcnt, acceptSamples_fcnt]
  · rw [han, completeHop_pos]
  · rw [han, completeHop_hnum, acceptSamples_hnum]

end Sys2Proof.Machine
end

section
/-! PROOF. A stationary bin-centre sinusoid under the ideal semantics (42_analyzer.md R168). -/

namespace Sys2Proof.Machine

/-! ## Transform sums of a rotated window and of a sinusoid -/

/-- A root of unity's power depends on the exponent modulo the order. -/
theorem unitRoot_pow_congr (dir : Direction) {len a b : Nat} (hlen : 0 < len) (h : a ≡ b [MOD len]) :
    unitRoot dir len ^ a = unitRoot dir len ^ b := by
  have hone := (isPrimitiveRoot_unitRoot dir hlen).pow_eq_one
  rw [pow_eq_pow_mod a hone, pow_eq_pow_mod b hone, h]

/-- Rotating a sequence by `o` places multiplies its sums by the kernel at `o`. -/
theorem dft_rotate (dir : Direction) {len o : Nat} (hlen : 0 < len) (ho : o ≤ len) (w : Nat → ℂ) (k : Nat) :
    dft dir len (fun n => w ((n + len - o) % len)) k = unitRoot dir len ^ (o * k) * dft dir len w k := by
  have hmem (a : Nat) : a % len ∈ Finset.range len := Finset.mem_range.2 (Nat.mod_lt a hlen)
  have hturn {n a b : Nat} (hab : a + b = len) (hn : n ∈ Finset.range len) : ((n + a) % len + b) % len = n := by
    rw [Nat.mod_add_mod, Nat.add_assoc, hab, Nat.add_mod_right, Nat.mod_eq_of_lt (Finset.mem_range.1 hn)]
  simp only [dft_eq_sum, Finset.mul_sum, Nat.add_sub_assoc ho]
  refine Finset.sum_nbij' (fun n => (n + (len - o)) % len) (fun m => (m + o) % len) (fun _ _ => hmem _) (fun _ _ => hmem _)
    (fun n hn => hturn (Nat.sub_add_cancel ho) hn) (fun m hm => hturn (Nat.add_sub_cancel' ho) hm) fun n hn => ?_
  have hplace : n ≡ (n + (len - o)) % len + o [MOD len] := by
    rw [Nat.ModEq, hturn (Nat.sub_add_cancel ho) hn, Nat.mod_eq_of_lt (Finset.mem_range.1 hn)]
  rw [unitRoot_pow_congr dir hlen (hplace.mul_right k), Nat.add_mul, pow_add]
  ring

/-- A bin-centre sinusoid splits into its two rotating parts, which move the sums to bins 0 and 2 k0. -/
theorem dft_sinusoid_mul {len : Nat} (k0 : Nat) (A θ : ℝ) (w : Nat → ℂ) :
    dft .forward len (fun n => (A * Real.cos (2 * Real.pi * k0 * n / len + θ) : ℝ) * w n) k0 =
      A / 2 * Complex.exp (Complex.I * θ) * dft .forward len w 0 +
        A / 2 * Complex.exp (-(Complex.I * θ)) * dft .forward len w (2 * k0) := by
  simp only [dft_eq_sum, Finset.mul_sum, ← Finset.sum_add_distrib]
  refine Finset.sum_congr rfl fun n _ => ?_
  have hne : unitRoot .forward len ^ (n * k0) ≠ 0 := pow_ne_zero _ (unitRoot_ne_zero _ _)
  have hpos : Complex.exp ((2 * Real.pi * k0 * n / len + θ : ℝ) * Complex.I) =
      (unitRoot .forward len ^ (n * k0))⁻¹ * Complex.exp (Complex.I * θ) := by
    rw [← kernel_eq_pow, kernel, ← Complex.exp_neg, ← Complex.exp_add]
    congr 1
    push_cast
    ring
  have hneg : Complex.exp (-(2 * Real.pi * k0 * n / len + θ : ℝ) * Complex.I) =
      unitRoot .forward len ^ (n * k0) * Complex.exp (-(Complex.I * θ)) := by
    rw [neg_mul, Complex.exp_neg, hpos, mul_inv, inv_inv, Complex.exp_neg]
  rw [Complex.ofReal_mul, Complex.ofReal_cos, Complex.cos, hpos, hneg, Nat.mul_zero, pow_zero, Nat.mul_left_comm,
    Nat.two_mul, pow_add]
  field_simp

/-- The sum at bin k0 of a bin-centre sinusoid under a rotated window that does not leak the image (42_analyzer.md R168). -/
theorem dft_sinusoid_mul_rotated {len o : Nat} (hlen : 0 < len) (ho : o ≤ len) (k0 : Nat) (A θ : ℝ) {w : Nat → ℂ}
    (hleak : dft .forward len w (2 * k0) = 0) :
    dft .forward len (fun n => (A * Real.cos (2 * Real.pi * k0 * n / len + θ) : ℝ) * w ((n + len - o) % len)) k0 =
      A / 2 * Complex.exp (Complex.I * θ) * ∑ n ∈ Finset.range len, w n := by
  have hdc : dft .forward len w 0 = ∑ n ∈ Finset.range len, w n := by
    simp only [dft_eq_sum, Nat.mul_zero, pow_zero, mul_one]
  rw [dft_sinusoid_mul, dft_rotate _ hlen ho, dft_rotate _ hlen ho, hleak, hdc, Nat.mul_zero, pow_zero]
  ring

/-! ## The analyzer on a stream -/

variable {c : Config ℝ}

theorem resetOf_indicesInRange (hcfg : LegalGeometry c) : (Analyzer.resetOf ideal c).IndicesInRange c :=
  ⟨hcfg.dm_pos, hcfg.h_pos⟩

/-- `j` hops take the first j × H samples of the stream. -/
theorem analyzed_eq_takeSamples (hcfg : LegalGeometry c) (x : Nat → ℝ) (j : Nat) :
    analyzed c x j = takeSamples ideal c (ratesOf ideal c c.sr0) x (j * c.h)
      (Analyzer.resetOf ideal c, Engine.resetOf ideal c) := by
  induction j with
  | zero => rw [Nat.zero_mul]; rfl
  | succ j ih =>
    rw [analyzed, forTo_succ, ← analyzed, ih, analyze_eq_takeSamples _ _ (takeSamples_pos_lt _ _ hcfg.h_pos), Nat.succ_mul,
      takeSamples_add]
    exact takeSamples_congr (fun q hq => getD_map_range hq _ _) _

theorem analyzed_pos (hcfg : LegalGeometry c) (x : Nat → ℝ) (j : Nat) : (analyzed c x j).1.pos = 0 := by
  rw [analyzed_eq_takeSamples hcfg, takeSamples_pos _ _ hcfg.h_pos]
  simp only [Analyzer.resetOf, Nat.zero_add, Nat.mul_mod_left]

theorem analyzed_shaped (x : Nat → ℝ) (j : Nat) : (analyzed c x j).1.Shaped c ∧ (analyzed c x j).2.Shaped c :=
  forTo_keeps (fun p : Analyzer ℝ × Engine ℝ => p.1.Shaped c ∧ p.2.Shaped c)
    (by simp only [Analyzer.Shaped, Engine.Shaped, Analyzer.resetOf, Engine.resetOf, List.length_replicate, and_self])
    fun _ _ _ h => analyze_shaped ideal c _ h

/-- From hop dm on the ring holds a stream that repeats every N samples (42_analyzer.md R162). -/
theorem analyzed_ab (hcfg : LegalGeometry c) {x : Nat → ℝ} (hx : Function.Periodic x c.n) {j : Nat} (hj : c.dm ≤ j)
    {i : Nat} (hi : i < c.n) : valAt ideal (analyzed c x j).1.ab i = x i := by
  have hn : c.n ≤ j * c.h := hcfg.dm_mul_h ▸ Nat.mul_le_mul_right _ hj
  obtain ⟨q, hq, hlast, hplace⟩ : ∃ q, q < j * c.h ∧ j * c.h ≤ q + c.n ∧ q % c.n = i := by
    refine ⟨i + c.n * ((j * c.h - 1 - i) / c.n), ?_, ?_, ?_⟩
    · have := Nat.mul_div_le (j * c.h - 1 - i) c.n
      omega
    · have := Nat.lt_mul_div_succ (j * c.h - 1 - i) hcfg.n_pos
      rw [Nat.mul_succ] at this
      omega
    · rw [Nat.add_mul_mod_self_left, Nat.mod_eq_of_lt hi]
  have hab : (Analyzer.resetOf ideal c).ab.length = c.n := List.length_replicate
  have hring := valAt_writeRing (num := ideal) (start := 0) hab hq hlast x
  rw [Nat.zero_add, hplace] at hring
  rw [analyzed_eq_takeSamples hcfg,
    takeSamples_ab hcfg _ _ (p := (Analyzer.resetOf ideal c, _)) (resetOf_indicesInRange hcfg)]
  simp only [Analyzer.resetOf, Nat.zero_mul, Nat.zero_add] at hring ⊢
  rw [hring, ← hx.map_mod_nat, hplace]

/-- Every hop of the stream is accepted as one chunk and completed. -/
theorem analyzed_succ (hcfg : LegalGeometry c) (x : Nat → ℝ) (j : Nat) : ∃ an : Analyzer ℝ,
    analyzed c x (j + 1) = completeHop ideal c (ratesOf ideal c c.sr0) (an, (analyzed c x j).2) ∧
      an.pph = (analyzed c x j).1.pph ∧ an.Shaped c := by
  have hfull : (analyzed c x j).1.pos + c.h = c.h := by rw [analyzed_pos hcfg, Nat.zero_add]
  exact ⟨acceptSamples ideal c ((List.range c.h).map fun q => x (j * c.h + q)) 0 c.h (analyzed c x j).1,
    analyze_of_full _ hcfg.h_pos hfull, rfl, acceptSamples_shaped ideal c _ 0 c.h (analyzed_shaped x j).1⟩

/-- The phase and the bin after a hop of the stream, from its spectrum and from the phase before it. -/
theorem analyzed_bin (hcfg : LegalGeometry c) (x : Nat → ℝ) (j : Nat) {k : Nat} (hk : k < c.nb) :
    valAt ideal (analyzed c x (j + 1)).1.pph k = (toPolar ideal (cxAt ideal (analyzed c x (j + 1)).2.sp k)).2 ∧
    binAt ideal (analyzed c x (j + 1)).1.frame k = binAfter ideal (ratesOf ideal c c.sr0) k
      (cxAt ideal (analyzed c x (j + 1)).2.sp k) (valAt ideal (analyzed c x j).1.pph k) := by
  obtain ⟨an, hhop, hpph, hshaped⟩ := analyzed_succ hcfg x j
  rw [hhop, ← hpph]
  exact completeHop_bin (p := (an, (analyzed c x j).2)) hshaped hk

/-- From hop dm on the spectrum is that of the repeating stream under the rotated window (42_analyzer.md R163, R164). -/
theorem analyzed_sp (hcfg : LegalGeometry c) {x : Nat → ℝ} (hx : Function.Periodic x c.n) {j : Nat} (hj : c.dm ≤ j) :
    ∃ o ≤ c.n, ∀ k ≤ c.n / 2, cAt (analyzed c x j).2.sp k = dirScale c .forward *
      dft .forward c.n (fun n => x n * (valAt ideal c.wa ((n + c.n - o) % c.n) : ℝ)) k := by
  obtain ⟨j, rfl⟩ : ∃ i, j = i + 1 := ⟨j - 1, by have := hcfg.dm_pos; omega⟩
  obtain ⟨an, hhop, -, -⟩ := analyzed_succ hcfg x j
  have hab : ∀ i < c.n, valAt ideal an.ab i = x i := fun i hi => by
    rw [← analyzed_ab hcfg hx hj hi, hhop, completeHop_ab]
  refine ⟨ringOffset c an.hnum, ringOffset_le hcfg _, fun k hk => ?_⟩
  rw [hhop, completeHop_te, hopEngine, rfftComputesTransformSum c _ hcfg (length_windowSegment ..) k hk]
  refine congrArg _ (dft_congr (fun n hn => ?_) k)
  rw [valAt_windowSegment _ hn, hab n hn]
  exact Complex.ofReal_mul _ _

/-- A bin whose spectrum value has not changed reports its centre frequency (40_bin_ops.md R114, R116). -/
theorem binAfter_same_freq (r : Rates ℝ) (k : Nat) (z : Cx ℝ) :
    (binAfter ideal r k z (toPolar ideal z).2).freq = k * r.binw := by
  have hwrap : wrap ideal 0 = 0 :=
    wrap_ideal_unique (k := 0) (neg_lt_zero.2 Real.pi_pos) Real.pi_pos.le (by rw [sub_zero, Int.cast_zero, zero_mul])
  have hdiff : ideal.sub (toPolar ideal z).2 (toPolar ideal z).2 = 0 := sub_self _
  simp only [binAfter, ph2hz, hdiff, hwrap]
  simp [binCenter, ideal]

theorem sinusoid_periodic {n : Nat} (hn : 0 < n) (k0 : Nat) (A θ : ℝ) :
    Function.Periodic (fun t : Nat => A * Real.cos (2 * Real.pi * k0 * t / n + θ)) n := by
  intro t
  have hne : (n : ℝ) ≠ 0 := Nat.cast_ne_zero.2 hn.ne'
  have hturns : 2 * Real.pi * k0 * (t + n : Nat) / n + θ = 2 * Real.pi * k0 * t / n + θ + k0 * (2 * Real.pi) := by
    push_cast
    field_simp
    ring
  simp only [hturns, Real.cos_add_nat_mul_two_pi]

/-- Settles O59: the window turns with the ring, so both rotating parts of the sinusoid meet the whole window: one at bin 0
of its sums, the other, the image, at bin 2 k0, where the window is silent. Equal spectrum values have equal phases. -/
theorem binCentreSinusoidFrequency : Obligations.BinCentreSinusoidFrequency := by
  intro c k0 A θ hcfg _ _ hlt hleak x
  have hsp : ∀ j, c.dm ≤ j → cAt (analyzed c x j).2.sp k0 =
      dirScale c .forward * (A / 2) * Complex.exp (Complex.I * θ) *
        ∑ n ∈ Finset.range c.n, ((valAt ideal c.wa n : ℝ) : ℂ) := by
    intro j hj
    obtain ⟨o, ho, hsum⟩ := analyzed_sp hcfg (sinusoid_periodic hcfg.n_pos k0 A θ) hj
    rw [hsum k0 hlt.le, dft_sinusoid_mul_rotated hcfg.n_pos ho k0 A θ hleak]
    ring
  refine ⟨hsp, fun j hj => ?_⟩
  obtain ⟨i, rfl⟩ : ∃ i, j = i + 1 + 1 := ⟨j - 2, by have := hcfg.dm_pos; omega⟩
  have hk : k0 < c.nb := Nat.lt_succ_of_lt hlt
  have hsame : cxAt ideal (analyzed c x (i + 1)).2.sp k0 = cxAt ideal (analyzed c x (i + 1 + 1)).2.sp k0 :=
    toC_injective ((hsp (i + 1) (by omega)).trans (hsp (i + 1 + 1) (by omega)).symm)
  rw [(analyzed_bin hcfg x (i + 1) hk).2, (analyzed_bin hcfg x i hk).1, hsame, binAfter_same_freq]
  rfl

end Sys2Proof.Machine
end

section
/-! PROOF. What one output sample does: every counter counts on, and the buffer whose counter reaches N is refreshed
(43_resynth.md R182, R185). -/

namespace Sys2Proof.Machine

/-! ## Loops -/

section
variable {σ : Type} {n : Nat}

theorem forTo_of_fixed {body : Nat → σ → σ} {s : σ} (h : ∀ i < n, body i s = s) : forTo n body s = s :=
  forTo_keeps (· = s) rfl fun i hi _ hx => hx.symm ▸ h i hi

/-- A loop of which only iteration `b` does anything. -/
theorem forTo_single {body : Nat → σ → σ} {b : Nat} {s : σ} (hb : b < n) (h : ∀ i < n, i ≠ b → ∀ x, body i x = x) :
    forTo n body s = body b s := by
  induction n with
  | zero => omega
  | succ n ih =>
    rw [forTo_succ]
    rcases Nat.lt_or_eq_of_le (Nat.le_of_lt_succ hb) with hlt | rfl
    · rw [ih hlt fun i hi => h i (by omega), h n (by omega) hlt.ne']
    · rw [forTo_of_fixed fun i hi => h i (by omega) hi.ne s]

theorem forTo_eq_foldl (g : σ → Nat → σ) (s : σ) : forTo n (fun i x => g x i) s = (List.range n).foldl g s := by
  induction n with
  | zero => rfl
  | succ n ih => rw [forTo_succ, ih, List.range_succ, List.foldl_append]; rfl

end

/-! ## The counters -/

/-- The counter after `x`: N is not kept but returns to 0 (43_resynth.md R182). -/
def nextCount (n x : Nat) : Nat := if x + 1 = n then 0 else x + 1

/-- The counters after the first `j` of them have counted on. -/
def countedTo (n j : Nat) (c : List Nat) : List Nat := c.mapIdx fun b x => if b < j then nextCount n x else x

theorem countedTo_zero (n : Nat) (c : List Nat) : countedTo n 0 c = c :=
  List.ext_getElem (by simp [countedTo]) fun b _ _ => by simp [countedTo]

theorem countedTo_length (n : Nat) (c : List Nat) : countedTo n c.length c = c.map (nextCount n) :=
  List.ext_getElem (by simp [countedTo]) fun b hb _ => by
    rw [countedTo, List.length_mapIdx] at hb
    simp [countedTo, hb]

theorem getD_countedTo (n j : Nat) (c : List Nat) : (countedTo n j c).getD j 0 = c.getD j 0 := by
  simp [countedTo, List.getD_eq_getElem?_getD]

theorem countedTo_succ (n j : Nat) (c : List Nat) :
    (countedTo n j c).set j (nextCount n (c.getD j 0)) = countedTo n (j + 1) c := by
  refine List.ext_getElem (by simp [countedTo]) fun b hb _ => ?_
  rw [List.length_set, countedTo, List.length_mapIdx] at hb
  rw [List.getElem_set]
  split
  next hbj => subst hbj; simp [countedTo, hb]
  next hbj =>
    have hlt : b ≤ j ↔ b < j := by omega
    simp [countedTo, hlt]

section
variable {V : Type} {cfg : Config V}

theorem counterAt_of_pattern {rs : Resynth V} {T b : Nat} (h : rs.rcnt = counterPattern cfg T) (hb : b < cfg.dm) :
    counterAt rs b = (T + (cfg.dm - 1 - b) * cfg.h) % cfg.n := by
  rw [counterAt, h]
  exact getD_map_range hb _ _

theorem length_counterPattern (T : Nat) : (counterPattern cfg T).length = cfg.dm := by simp [counterPattern]

theorem nextCount_counterPattern (hcfg : LegalGeometry cfg) (T : Nat) :
    (counterPattern cfg T).map (nextCount cfg.n) = counterPattern cfg (T + 1) := by
  rw [counterPattern, List.map_map]
  refine List.map_congr_left fun b _ => ?_
  rw [Function.comp_apply, nextCount, ite_mod_add_one hcfg.n_pos, Nat.add_right_comm]

/-- The counter of buffer `b` is a number of hops and the position in the hop (43_resynth.md R185). -/
theorem counter_eq_hops (hcfg : LegalGeometry cfg) (T b : Nat) : (T + (cfg.dm - 1 - b) * cfg.h) % cfg.n =
    (cfg.dm - 1 - b + T / cfg.h) % cfg.dm * cfg.h + T % cfg.h := by
  rw [ring_place hcfg, Nat.add_comm]

/-- Of dm buffers, buffer `m mod dm` is at its last hop after `m` hops. -/
theorem last_hop_iff {d b : Nat} (hb : b < d) (m : Nat) : (d - 1 - b + m) % d + 1 = d ↔ m % d = b := by
  have hlt := Nat.mod_lt m (Nat.zero_lt_of_lt hb)
  rw [← Nat.add_mod_mod]
  rcases Nat.lt_or_ge (d - 1 - b + m % d) d with hsmall | hlarge
  · rw [Nat.mod_eq_of_lt hsmall]
    omega
  · rw [Nat.mod_eq_sub_mod hlarge, Nat.mod_eq_of_lt (by omega)]
    omega

/-- In `d` rows of `h` places, the place after place `v` of row `u` is the end exactly for the last place of the last row. -/
theorem mul_add_add_one_eq_iff {u v d h : Nat} (hu : u < d) (hv : v < h) :
    u * h + v + 1 = d * h ↔ v + 1 = h ∧ u + 1 = d := by
  obtain ⟨e, rfl⟩ : ∃ e, d = u + 1 + e := ⟨d - (u + 1), by omega⟩
  rw [Nat.add_mul, Nat.succ_mul]
  rcases e with - | e
  · omega
  · rw [Nat.succ_mul]
    omega

/-- Counting on from output sample T, the counter of buffer `b` reaches N exactly at the end of its last hop. -/
theorem counter_full_iff (hcfg : LegalGeometry cfg) {b : Nat} (hb : b < cfg.dm) (T : Nat) :
    (T + (cfg.dm - 1 - b) * cfg.h) % cfg.n + 1 = cfg.n ↔ T % cfg.h + 1 = cfg.h ∧ T / cfg.h % cfg.dm = b := by
  rw [← last_hop_iff hb, counter_eq_hops hcfg, ← hcfg.dm_mul_h]
  exact mul_add_add_one_eq_iff (Nat.mod_lt _ hcfg.dm_pos) (Nat.mod_lt _ hcfg.h_pos)

end

/-! ## One output sample -/

section
variable {V : Type} {num : Num V} {cfg : Config V} {r : Rates V} {f : List (Bin V)}

theorem overlapSum_eq_foldl (rs : Resynth V) : overlapSum num cfg rs = (List.range cfg.dm).foldl
    (fun acc b => num.add acc (valAt num (bufferAt rs b) (counterAt rs b))) (num.ofNat 0) :=
  forTo_eq_foldl _ _

/-- The resynthesizer with other counters, beside the engine. -/
def withCounters (c : List Nat) (p : Resynth V × Engine V) : Resynth V × Engine V := ({ p.1 with rcnt := c }, p.2)

/-- Buffer `b` is refreshed where its counter is the last one before N (43_resynth.md R182). -/
def refreshIfFull (num : Num V) (cfg : Config V) (r : Rates V) (f : List (Bin V)) (c : List Nat) (b : Nat)
    (p : Resynth V × Engine V) : Resynth V × Engine V :=
  if c.getD b 0 + 1 = cfg.n then refresh num cfg r f b p else p

theorem refreshIfFull_of_full {rs : Resynth V} {b : Nat} (h : counterAt rs b + 1 = cfg.n) (p : Resynth V × Engine V) :
    refreshIfFull num cfg r f rs.rcnt b p = refresh num cfg r f b p := if_pos h

theorem refreshIfFull_of_not_full {rs : Resynth V} {b : Nat} (h : counterAt rs b + 1 ≠ cfg.n)
    (p : Resynth V × Engine V) : refreshIfFull num cfg r f rs.rcnt b p = p := if_neg h

/-- A refresh neither reads nor writes a counter, so counting and refreshing are independent. -/
theorem advance_withCounters {c : List Nat} {b : Nat} (hb : b < c.length) (p : Resynth V × Engine V) :
    advance num cfg r f b (withCounters c p) =
      withCounters (c.set b (nextCount cfg.n (c.getD b 0))) (refreshIfFull num cfg r f c b p) := by
  have hcount : counterAt (countUp b (withCounters c p).1) b = c.getD b 0 + 1 := getD_set_self hb _ _
  unfold refreshIfFull nextCount
  rcases advance_cases num cfg r f b (withCounters c p) with ⟨h, e⟩ | ⟨h, e⟩ <;> rw [hcount] at h <;> rw [e]
  · rw [if_pos h, if_pos h]
    simp [refreshAndClear, countUp, setCounter, withCounters, refresh, refreshEngine]
  · rw [if_neg h, if_neg h]
    rfl

theorem forTo_advance {c : List Nat} {j : Nat} (hj : j ≤ c.length) (p : Resynth V × Engine V) :
    forTo j (fun b q => advance num cfg r f b q) (withCounters c p) =
      withCounters (countedTo cfg.n j c) (forTo j (refreshIfFull num cfg r f c) p) := by
  induction j with
  | zero => rw [countedTo_zero]; rfl
  | succ j ih =>
    have hlen : j < (countedTo cfg.n j c).length := by simpa [countedTo] using hj
    rw [forTo_succ, ih (by omega), advance_withCounters hlen, getD_countedTo, countedTo_succ, forTo_succ]
    simp only [refreshIfFull, getD_countedTo]

/-- One output sample stores the sum, counts every counter on and refreshes the buffers whose counter reaches N. -/
theorem outputSample_eq {p : Resynth V × Engine V} (h : p.1.rcnt.length = cfg.dm) (i : Nat) :
    outputSample num cfg r f i p = withCounters (p.1.rcnt.map (nextCount cfg.n))
      (forTo cfg.dm (refreshIfFull num cfg r f p.1.rcnt)
        ({ p.1 with sout := p.1.sout.set i (overlapSum num cfg p.1) }, p.2)) := by
  rw [← countedTo_length, h, ← forTo_advance h.ge]
  rfl

/-- An output sample after which no counter is N refreshes nothing. -/
theorem outputSample_of_not_full {p : Resynth V × Engine V} (h : p.1.rcnt.length = cfg.dm)
    (hfull : ∀ b < cfg.dm, counterAt p.1 b + 1 ≠ cfg.n) (i : Nat) :
    outputSample num cfg r f i p = ({ p.1 with
      sout := p.1.sout.set i (overlapSum num cfg p.1), rcnt := p.1.rcnt.map (nextCount cfg.n) }, p.2) := by
  rw [outputSample_eq h, forTo_of_fixed fun b hb => refreshIfFull_of_not_full (hfull b hb) _]
  rfl

/-- An output sample after which the counter of buffer `b` alone is N refreshes that buffer. -/
theorem outputSample_of_full {p : Resynth V × Engine V} (h : p.1.rcnt.length = cfg.dm) {b : Nat} (hb : b < cfg.dm)
    (hfull : ∀ b' < cfg.dm, counterAt p.1 b' + 1 = cfg.n ↔ b = b') (i : Nat) :
    outputSample num cfg r f i p = refresh num cfg r f b ({ p.1 with
      sout := p.1.sout.set i (overlapSum num cfg p.1), rcnt := p.1.rcnt.map (nextCount cfg.n) }, p.2) := by
  rw [outputSample_eq h, forTo_single hb fun b' hb' hne =>
    refreshIfFull_of_not_full fun e => hne ((hfull b' hb').1 e).symm, refreshIfFull_of_full ((hfull b hb).2 rfl)]
  rfl

/-- Settles O40: under the counter pattern, counting on makes the counter of buffer `b` N exactly at the end of a hop that is
hop `b` modulo dm. -/
theorem outputSampleSumsAndRotates : Obligations.OutputSampleSumsAndRotates := by
  intro V num cfg r f i T rs te hcfg hrcnt acc b out
  have hlen : rs.rcnt.length = cfg.dm := hrcnt ▸ length_counterPattern T
  have hfull : ∀ b' < cfg.dm, counterAt rs b' + 1 = cfg.n ↔ T % cfg.h + 1 = cfg.h ∧ T / cfg.h % cfg.dm = b' := by
    intro b' hb'
    rw [counterAt_of_pattern hrcnt hb', counter_full_iff hcfg hb']
  have hacc : overlapSum num cfg rs = acc := by
    rw [overlapSum_eq_foldl]
    refine List.foldl_ext _ _ _ fun a b' hb' => ?_
    rw [counterAt_of_pattern hrcnt (List.mem_range.1 hb')]
  have hout : ({ rs with sout := rs.sout.set i (overlapSum num cfg rs), rcnt := rs.rcnt.map (nextCount cfg.n) } :
      Resynth V) = out := by
    rw [hacc, hrcnt, nextCount_counterPattern hcfg]
  rcases div_mod_add_one hcfg.h_pos T with ⟨hend, hdiv, hmod⟩ | ⟨hinside, -, hmod⟩
  · have hb : b = T / cfg.h % cfg.dm := by simp only [b, hdiv, Nat.add_sub_cancel]
    refine ⟨fun h => absurd hmod h, fun _ => ?_⟩
    rw [outputSample_of_full hlen (b := b) (hb ▸ Nat.mod_lt _ hcfg.dm_pos)
      (fun b' hb' => by simp only [hfull b' hb', hend, true_and, hb]), hout]
  · refine ⟨fun _ => ?_, fun h => by omega⟩
    rw [outputSample_of_not_full hlen fun b' hb' h => hinside ((hfull b' hb').1 h).1, hout]

end

end Sys2Proof.Machine
end

section
/-! PROOF. What a run of output samples leaves, and RESYNTH as a command (43_resynth.md R181, R182, R185, R186, R188). -/

namespace Sys2Proof.Machine

section
variable {V : Type} {num : Num V} {cfg : Config V} {r : Rates V} {f : List (Bin V)}

theorem outputSample_sout (i : Nat) (p : Resynth V × Engine V) :
    (outputSample num cfg r f i p).1.sout = p.1.sout.set i (overlapSum num cfg p.1) :=
  forTo_keeps (fun q : Resynth V × Engine V => q.1.sout = p.1.sout.set i (overlapSum num cfg p.1)) rfl
    fun b _ q hq => by
      rcases advance_cases num cfg r f b q with ⟨-, e⟩ | ⟨-, e⟩ <;> rw [e]
      · exact hq
      · exact hq

theorem length_sout_forTo_outputSample (n : Nat) (p : Resynth V × Engine V) :
    (forTo n (fun i q => outputSample num cfg r f i q) p).1.sout.length = p.1.sout.length :=
  forTo_keeps (fun q : Resynth V × Engine V => q.1.sout.length = p.1.sout.length) rfl fun i _ q hq => by
    rw [outputSample_sout, List.length_set, hq]

theorem length_sout_resynthesize (p : Resynth V × Engine V) :
    (resynthesize num cfg r f p).1.sout.length = p.1.sout.length := length_sout_forTo_outputSample cfg.vs p

/-- SOUT[i] is the overlap sum at output sample `i`; the later samples do not touch it (43_resynth.md R182). -/
theorem valAt_sout_forTo_outputSample {n i : Nat} {p : Resynth V × Engine V} (hlen : i < p.1.sout.length) (hi : i < n) :
    valAt num (forTo n (fun i q => outputSample num cfg r f i q) p).1.sout i =
      overlapSum num cfg (forTo i (fun i q => outputSample num cfg r f i q) p).1 := by
  induction n with
  | zero => omega
  | succ n ih =>
    rw [forTo_succ, outputSample_sout]
    rcases Nat.lt_or_eq_of_le (Nat.le_of_lt_succ hi) with hlt | rfl
    · rw [valAt_set_ne num hlt.ne', ih hlt]
    · exact valAt_set_self num (by rwa [length_sout_forTo_outputSample]) _

theorem valAt_sout_resynthesize {i : Nat} {p : Resynth V × Engine V} (hlen : p.1.sout.length = cfg.vs) (hi : i < cfg.vs) :
    valAt num (resynthesize num cfg r f p).1.sout i =
      overlapSum num cfg (forTo i (fun i q => outputSample num cfg r f i q) p).1 :=
  valAt_sout_forTo_outputSample (hlen.symm ▸ hi) hi

/-- A resynthesizer that has played on for `n` samples without a refresh. -/
def Resynth.playedOn (rs : Resynth V) (n : Nat) (sout : List V) : Resynth V :=
  { rs with sout := sout, rcnt := rs.rcnt.map (· + n) }

theorem counterAt_playedOn {rs : Resynth V} {b : Nat} (hb : b < rs.rcnt.length) (n : Nat) (sout : List V) :
    counterAt (rs.playedOn n sout) b = counterAt rs b + n := by
  simp [counterAt, Resynth.playedOn, List.getD_eq_getElem?_getD, hb]

/-- While no counter reaches N, output samples only play on (43_resynth.md R182, R188). -/
theorem forTo_outputSample_of_short {p : Resynth V × Engine V} (h : p.1.rcnt.length = cfg.dm) {n : Nat}
    (hshort : ∀ b < cfg.dm, counterAt p.1 b + n < cfg.n) :
    ∃ sout, forTo n (fun i q => outputSample num cfg r f i q) p = (p.1.playedOn n sout, p.2) := by
  induction n with
  | zero => exact ⟨p.1.sout, by simp [Resynth.playedOn]⟩
  | succ n ih =>
    obtain ⟨sout, e⟩ := ih fun b hb => by have := hshort b hb; omega
    have hcount : ∀ b < cfg.dm, counterAt (p.1.playedOn n sout) b + 1 < cfg.n := fun b hb => by
      rw [counterAt_playedOn (h.symm ▸ hb)]
      exact hshort b hb
    have hnext : (p.1.playedOn n sout).rcnt.map (nextCount cfg.n) = p.1.rcnt.map (· + (n + 1)) := by
      refine List.ext_getElem (by simp [Resynth.playedOn]) fun b hb _ => ?_
      have hlen : b < (p.1.playedOn n sout).rcnt.length := by simpa using hb
      have hlt := hcount b (by simpa [Resynth.playedOn, h] using hlen)
      rw [counterAt, List.getD_eq_getElem _ _ hlen] at hlt
      rw [List.getElem_map, nextCount, if_neg hlt.ne]
      simp [Resynth.playedOn, Nat.add_assoc]
    rw [forTo_succ, e, outputSample_of_not_full (p := (p.1.playedOn n sout, p.2)) (by simp [Resynth.playedOn, h])
      fun b hb => (hcount b hb).ne, hnext]
    exact ⟨_, rfl⟩

/-- Within a hop no counter reaches N (43_resynth.md R185). -/
theorem counterAt_add_lt_of_pattern (hcfg : LegalGeometry cfg) {rs : Resynth V} {T n : Nat}
    (h : rs.rcnt = counterPattern cfg T) (hn : T % cfg.h + n < cfg.h) : ∀ b < cfg.dm, counterAt rs b + n < cfg.n := by
  intro b hb
  have hhops := hop_end_le hcfg (Nat.mod_lt (cfg.dm - 1 - b + T / cfg.h) hcfg.dm_pos)
  rw [counterAt_of_pattern h hb, counter_eq_hops hcfg]
  omega

theorem forTo_outputSample_rcnt (hcfg : LegalGeometry cfg) {p : Resynth V × Engine V} {T : Nat}
    (h : p.1.rcnt = counterPattern cfg T) (n : Nat) :
    (forTo n (fun i q => outputSample num cfg r f i q) p).1.rcnt = counterPattern cfg (T + n) :=
  forTo_induct (fun i (q : Resynth V × Engine V) => q.1.rcnt = counterPattern cfg (T + i)) h
    fun _ _ _ hq => outputSample_rcnt num cfg r f hcfg.n_pos hq

/-- Within a hop the output samples only play on. -/
theorem forTo_outputSample_of_pattern (hcfg : LegalGeometry cfg) {p : Resynth V × Engine V} {T n : Nat}
    (h : p.1.rcnt = counterPattern cfg T) (hn : T % cfg.h + n < cfg.h) :
    ∃ sout, forTo n (fun i q => outputSample num cfg r f i q) p = (p.1.playedOn n sout, p.2) :=
  forTo_outputSample_of_short (h ▸ length_counterPattern T) (counterAt_add_lt_of_pattern hcfg h hn)

end

/-! ## RESYNTH -/

/-- Settles O43: RESYNTH reads the frame it is given, the rates, the resynthesizer and the engine, and nothing else. -/
theorem resynthUsesSelectedFrame : Obligations.ResynthUsesSelectedFrame := fun s an =>
  ⟨_, _, execResynth_next .frame s, execResynth_next .xf { s with xf := s.an.frame, an := an }, rfl, rfl⟩

/-- Settles O39: the command is the sample loop, and `resynthesize_rcnt` and `resetOf_rcnt` follow the counters. -/
theorem resynthAdvancesCounters : Obligations.ResynthAdvancesCounters :=
  ⟨fun s src => ⟨_, execResynth_next src s, rfl, by cases src <;> rfl,
    fun _ hcfg hT => resynthesize_rcnt num s.cfg s.rates (sourceFrame src s) (p := (s.rs, s.te)) hcfg.1.n_pos hT⟩,
  fun _ hcfg => resetOf_rcnt num hcfg.1⟩

/-- Settles O42: no counter reaches N, so each output sample only stores its sum and counts on. -/
theorem resynthWithoutRefresh : Obligations.ResynthWithoutRefresh := by
  intro s src hcfg hwf hshort
  obtain ⟨-, -, -, -, -, hrcnt, -, hsout, -⟩ := hwf
  have hplay {i : Nat} (hi : i ≤ s.cfg.vs) := forTo_outputSample_of_short (num := num) (r := s.rates)
    (f := sourceFrame src s) (p := (s.rs, s.te)) hrcnt (n := i) fun b hb => by have := hshort b hb; simp only; omega
  obtain ⟨sout, e⟩ := hplay le_rfl
  have hres : resynthesize num s.cfg s.rates (sourceFrame src s) (s.rs, s.te) = (s.rs.playedOn s.cfg.vs sout, s.te) := e
  have hlen := length_sout_resynthesize (num := num) (cfg := s.cfg) (r := s.rates) (f := sourceFrame src s) (s.rs, s.te)
  rw [hres] at hlen
  refine ⟨sout, (execResynth_next src s).trans (by rw [hres]; rfl), hlen.trans hsout, fun i hi => ?_⟩
  obtain ⟨sout', e'⟩ := hplay hi.le
  have hval := valAt_sout_resynthesize (num := num) (r := s.rates) (f := sourceFrame src s) (p := (s.rs, s.te)) hsout hi
  rw [hres, e', overlapSum_eq_foldl] at hval
  refine hval.trans (List.foldl_ext _ _ _ fun a b hb => ?_)
  rw [counterAt_playedOn (hrcnt.symm ▸ List.mem_range.1 hb)]
  rfl

end Sys2Proof.Machine
end

section
/-! PROOF. What a refresh leaves in PHS, SP, the engine and the output buffers (43_resynth.md R183, R184). -/

namespace Sys2Proof.Machine

/-! ## A loop over two arrays -/

section
variable {α β : Type} {d : α} {e : β} {g : Nat → α → α} {h : Nat → α → β} {a : List α} {b : List β}

/-- The loop that writes place `k` of two arrays in iteration `k`, from what the first one held there. -/
def forToPair (n : Nat) (d : α) (g : Nat → α → α) (h : Nat → α → β) (a : List α) (b : List β) : List α × List β :=
  forTo n (fun k p => (p.1.set k (g k (p.1.getD k d)), p.2.set k (h k (p.1.getD k d)))) (a, b)

theorem forToPair_succ (n : Nat) : forToPair (n + 1) d g h a b =
    ((forToPair n d g h a b).1.set n (g n ((forToPair n d g h a b).1.getD n d)),
      (forToPair n d g h a b).2.set n (h n ((forToPair n d g h a b).1.getD n d))) := rfl

theorem length_forToPair (n : Nat) :
    (forToPair n d g h a b).1.length = a.length ∧ (forToPair n d g h a b).2.length = b.length :=
  forTo_keeps (fun p : List α × List β => p.1.length = a.length ∧ p.2.length = b.length) ⟨rfl, rfl⟩
    fun _ _ _ hp => ⟨List.length_set.trans hp.1, List.length_set.trans hp.2⟩

theorem getD_forToPair_of_le {n k : Nat} (hk : n ≤ k) : (forToPair n d g h a b).1.getD k d = a.getD k d :=
  forTo_keeps (fun p : List α × List β => p.1.getD k d = a.getD k d) rfl
    fun _ hi _ hp => (getD_set_ne (by omega) _ _ _).trans hp

theorem getD_forToPair {n k : Nat} (hk : k < n) (ha : n ≤ a.length) (hb : n ≤ b.length) :
    (forToPair n d g h a b).1.getD k d = g k (a.getD k d) ∧ (forToPair n d g h a b).2.getD k e = h k (a.getD k d) := by
  induction n with
  | zero => omega
  | succ n ih =>
    obtain ⟨hlen, hlen'⟩ := length_forToPair (d := d) (g := g) (h := h) (a := a) (b := b) n
    rw [forToPair_succ]
    rcases Nat.lt_or_eq_of_le (Nat.le_of_lt_succ hk) with hlt | rfl
    · rw [getD_set_ne hlt.ne', getD_set_ne hlt.ne']
      exact ih hlt (by omega) (by omega)
    · rw [getD_set_self (by omega), getD_set_self (by omega), getD_forToPair_of_le le_rfl]
      exact ⟨rfl, rfl⟩

end

/-! ## A refresh -/

section
variable {V : Type} {num : Num V} {cfg : Config V} {r : Rates V} {f : List (Bin V)} {b : Nat} {p : Resynth V × Engine V}

/-- The running phase of bin `k` after a refresh that found it at `φ` (40_bin_ops.md R115, R117). -/
def rotatedPhase (num : Num V) (r : Rates V) (f : List (Bin V)) (k : Nat) (φ : V) : V :=
  wrap num (num.add φ (hz2inc num r (binAt num f k).freq k))

theorem refreshBins_eq_forToPair (phs : List V) (sp : List (Cx V)) : refreshBins num cfg r f phs sp =
    forToPair cfg.nb (zero num) (rotatedPhase num r f)
      (fun k φ => toRect num (binAt num f k).amp (rotatedPhase num r f k φ)) phs sp := rfl

/-- Each bin's running phase is advanced by one hop's increment, and its spectrum value has the frame's amplitude and
that phase (43_resynth.md R183). -/
theorem refresh_bin (hphs : p.1.phs.length = cfg.nb) (hsp : p.2.sp.length = cfg.nb) {k : Nat} (hk : k < cfg.nb) :
    valAt num (refresh num cfg r f b p).1.phs k = rotatedPhase num r f k (valAt num p.1.phs k) ∧
    cxAt num (refresh num cfg r f b p).2.sp k =
      toRect num (binAt num f k).amp (rotatedPhase num r f k (valAt num p.1.phs k)) := by
  have hbins := refreshBins_eq_forToPair (num := num) (cfg := cfg) (r := r) (f := f) p.1.phs p.2.sp
  simp only [refresh, refreshEngine, irfft_sp, hbins]
  exact getD_forToPair hk hphs.ge hsp.ge

theorem refresh_te : (refresh num cfg r f b p).2 =
    irfft num cfg { p.2 with sp := (refresh num cfg r f b p).2.sp } := rfl

theorem bufferAt_refresh_self (hb : b < p.1.ob.length) :
    bufferAt (refresh num cfg r f b p).1 b = playSegment num cfg b (refresh num cfg r f b p).2.rb :=
  getD_set_self hb _ _

theorem bufferAt_refresh_ne {b' : Nat} (h : b' ≠ b) : bufferAt (refresh num cfg r f b p).1 b' = bufferAt p.1 b' :=
  getD_set_ne h.symm _ _ _

theorem valAt_playSegment (b : Nat) (rb : List V) {i : Nat} (hi : i < cfg.n) : valAt num (playSegment num cfg b rb) i =
    num.mul (valAt num rb ((i + ringOffset cfg b) % cfg.n)) (valAt num cfg.ws i) := getD_map_range hi _ _

end

/-- Settles O41: a refresh writes PHS, SP and OB[b] element by element, and the engine as `irfft` leaves it. -/
theorem refreshResult : Obligations.RefreshResult := by
  intro V num cfg r f b rs te _ hb hob hphs hsp q
  refine ⟨fun k hk => refresh_bin (p := (rs, te)) hphs hsp (Nat.lt_succ_of_le hk), refresh_te, fun i hi => ?_,
    fun _ => bufferAt_refresh_ne, rfl, rfl⟩
  simp only [q]
  rw [bufferAt_refresh_self (hob.symm ▸ hb), valAt_playSegment _ _ hi]
  rfl

end Sys2Proof.Machine
end

section
/-! PROOF. The first H output samples after hardware reset are 0 under the ideal semantics (43_resynth.md R186). -/

namespace Sys2Proof.Machine

variable {c : Config ℝ}

theorem overlapSum_ideal (rs : Resynth ℝ) : overlapSum ideal c rs =
    ∑ b ∈ Finset.range c.dm, valAt ideal (bufferAt rs b) (counterAt rs b) := by
  have hpartial : ∀ n, forTo n (fun b acc => ideal.add acc (valAt ideal (bufferAt rs b) (counterAt rs b))) (zero ideal) =
      ∑ b ∈ Finset.range n, valAt ideal (bufferAt rs b) (counterAt rs b) := by
    intro n
    induction n with
    | zero => exact Nat.cast_zero
    | succ n ih => rw [forTo_succ, ih, Finset.sum_range_succ]; rfl
  exact hpartial c.dm

theorem valAt_replicate_zero (n i : Nat) : valAt ideal (List.replicate n (zero ideal)) i = 0 := by
  rw [valAt, List.getD_eq_getElem?_getD, List.getElem?_replicate]
  split <;> exact Nat.cast_zero

/-- The output buffers are as hardware reset leaves them (10_state.md R50). -/
def Resynth.Silent (c : Config ℝ) (rs : Resynth ℝ) : Prop := rs.ob = (Resynth.resetOf ideal c).ob

theorem valAt_bufferAt_reset (b i : Nat) : valAt ideal (bufferAt (Resynth.resetOf ideal c) b) i = 0 := by
  rw [bufferAt, Resynth.resetOf, List.getD_eq_getElem?_getD, List.getElem?_replicate]
  split
  · exact valAt_replicate_zero _ _
  · exact valAt_replicate_zero 0 i

theorem Resynth.Silent.overlapSum_eq_zero {rs : Resynth ℝ} (h : rs.Silent c) : overlapSum ideal c rs = 0 := by
  rw [overlapSum_ideal]
  refine Finset.sum_eq_zero fun b _ => ?_
  rw [bufferAt, h, ← bufferAt, valAt_bufferAt_reset]

/-- The commands 1 to `j` after hardware reset, with the frame and the rates each one finds. -/
noncomputable def resynthesized (c : Config ℝ) (r : Nat → Rates ℝ) (f : Nat → List (Bin ℝ)) (j : Nat) :
    Resynth ℝ × Engine ℝ :=
  forTo j (fun m p => resynthesize ideal c (r m) (f m) p) (Resynth.resetOf ideal c, Engine.resetOf ideal c)

variable {r : Nat → Rates ℝ} {f : Nat → List (Bin ℝ)}

theorem resynthesized_succ (j : Nat) :
    resynthesized c r f (j + 1) = resynthesize ideal c (r j) (f j) (resynthesized c r f j) := rfl

theorem resynthesized_rcnt (hcfg : LegalGeometry c) (j : Nat) :
    (resynthesized c r f j).1.rcnt = counterPattern c (j * c.vs) := by
  induction j with
  | zero => rw [Nat.zero_mul]; exact resetOf_rcnt ideal hcfg
  | succ j ih => rw [resynthesized_succ, resynthesize_rcnt ideal c _ _ hcfg.n_pos ih, Nat.succ_mul]

theorem length_sout_resynthesized (j : Nat) : (resynthesized c r f j).1.sout.length = c.vs := by
  induction j with
  | zero => exact List.length_replicate
  | succ j ih => rw [resynthesized_succ, length_sout_resynthesize, ih]

theorem silent_forTo_outputSample (hcfg : LegalGeometry c) {j i : Nat} (h : (resynthesized c r f j).1.Silent c)
    (hi : j * c.vs + i < c.h) :
    (forTo i (fun i q => outputSample ideal c (r j) (f j) i q) (resynthesized c r f j)).1.Silent c := by
  have hmod : j * c.vs % c.h = j * c.vs := Nat.mod_eq_of_lt (by omega)
  obtain ⟨sout, e⟩ := forTo_outputSample_of_pattern (num := ideal) (r := r j) (f := f j) hcfg
    (resynthesized_rcnt hcfg j) (hmod.symm ▸ hi)
  rw [e]
  exact h

/-- Commands that end before output sample H refresh nothing. -/
theorem silent_resynthesized (hcfg : LegalGeometry c) {j : Nat} (hj : j * c.vs < c.h) :
    (resynthesized c r f j).1.Silent c := by
  induction j with
  | zero => rfl
  | succ j ih =>
    rw [Nat.succ_mul] at hj
    exact silent_forTo_outputSample hcfg (ih (by omega)) hj

/-- Settles O58: before output sample H every buffer is as hardware reset left it, so every overlap sum is 0. -/
theorem firstHopOfOutputIsSilent : Obligations.FirstHopOfOutputIsSilent := by
  intro c r f hcfg j i hi hsample
  exact (valAt_sout_resynthesize (p := resynthesized c r f j) (length_sout_resynthesized j) hi).trans
    (silent_forTo_outputSample hcfg (silent_resynthesized hcfg (by omega)) hsample).overlapSum_eq_zero

end Sys2Proof.Machine
end

section
/-! PROOF. The analyzer and the resynthesizer in lockstep under the ideal semantics (43_resynth.md R187): every refresh
rebuilds the windowed segment of the hop before it, and every buffer then plays its part of the delayed input. -/

namespace Sys2Proof.Machine

variable {c : Config ℝ}

/-! ## The analyzer's part -/

/-- The analyzer at the end of hop `j + 1` of the stream, its samples accepted and the hop not yet completed. -/
noncomputable def hopInput (c : Config ℝ) (x : Nat → ℝ) (j : Nat) : Analyzer ℝ :=
  acceptSamples ideal c ((List.range c.h).map fun q => x (j * c.h + q)) 0 c.h (analyzed c x j).1

/-- A completed hop does not depend on what the engine held. -/
theorem analyze_hop (hcfg : LegalGeometry c) (x : Nat → ℝ) (j : Nat) (te : Engine ℝ) :
    analyze ideal c (ratesOf ideal c c.sr0) ((List.range c.h).map fun q => x (j * c.h + q)) c.h
      ((analyzed c x j).1, te) = completeHop ideal c (ratesOf ideal c c.sr0) (hopInput c x j, te) :=
  analyze_of_full _ hcfg.h_pos (by rw [analyzed_pos hcfg, Nat.zero_add])

theorem analyzed_succ_eq (hcfg : LegalGeometry c) (x : Nat → ℝ) (j : Nat) (te : Engine ℝ) :
    analyzed c x (j + 1) = completeHop ideal c (ratesOf ideal c c.sr0) (hopInput c x j, te) :=
  analyze_hop hcfg x j (analyzed c x j).2

theorem analyzed_hnum (hcfg : LegalGeometry c) (x : Nat → ℝ) (j : Nat) : (analyzed c x j).1.hnum = j % c.dm := by
  rw [analyzed_eq_takeSamples hcfg, (takeSamples_hnum_fcnt x _ (resetOf_indicesInRange hcfg)).1]
  simp only [Analyzer.resetOf, Nat.zero_add, Nat.mul_div_cancel _ hcfg.h_pos]

/-- The input delayed by `n` samples, 0 before it begins (43_resynth.md R187). -/
def delayed (n : Nat) (x : Nat → ℝ) (t : Nat) : ℝ := if t < n then 0 else x (t - n)

/-- After `j` hops the ring holds the last N samples, each at its place modulo N (42_analyzer.md R162). -/
theorem valAt_analyzed_ab (hcfg : LegalGeometry c) (x : Nat → ℝ) (j : Nat) {i : Nat} (hi : i < c.n) :
    valAt ideal (analyzed c x j).1.ab ((j * c.h + i) % c.n) = delayed c.n x (j * c.h + i) := by
  have hring : (analyzed c x j).1.ab = writeRing c.n 0 x (j * c.h) (Analyzer.resetOf ideal c).ab := by
    rw [analyzed_eq_takeSamples hcfg,
      takeSamples_ab hcfg _ _ (p := (Analyzer.resetOf ideal c, _)) (resetOf_indicesInRange hcfg)]
    simp only [Analyzer.resetOf, Nat.zero_mul, Nat.zero_add]
  rw [hring, delayed]
  split
  next hbefore =>
    rw [Nat.mod_eq_of_lt hbefore, valAt_writeRing_of_ne fun q hq => by rw [Nat.zero_add, Nat.mod_eq_of_lt] <;> omega]
    exact valAt_replicate_zero _ _
  next hafter =>
    have hplace : (0 + (j * c.h + i - c.n)) % c.n = (j * c.h + i) % c.n := by
      rw [Nat.zero_add, Nat.mod_eq_sub_mod (Nat.le_of_not_lt hafter)]
    rw [← hplace]
    exact valAt_writeRing List.length_replicate (by omega) (by omega) x

/-! ## The rebuilt spectrum -/

/-- The running phase of a bin follows the analyzer's previous phase (43_resynth.md R187). -/
theorem rotatedPhase_binAfter (hcfg : LegalGeometry c) (hsr : 0 < c.sr0) {f : List (Bin ℝ)} {k : Nat} {z : Cx ℝ} {φ : ℝ}
    (hf : binAt ideal f k = binAfter ideal (ratesOf ideal c c.sr0) k z φ) :
    rotatedPhase ideal (ratesOf ideal c c.sr0) f k φ = (toPolar ideal z).2 := by
  obtain ⟨-, hlow, hhigh, -⟩ := polarFormRoundTrip z
  obtain ⟨m, hm⟩ := wrap_ideal_sub_self ((toPolar ideal z).2 - φ)
  rw [rotatedPhase, hf, binAfter, frequencyConversionsInvert c c.sr0 _ k hcfg hsr]
  refine wrap_ideal_unique hlow hhigh (k := -m) ?_
  simp only [ideal] at hm ⊢
  push_cast
  linarith

section
variable {x : Nat → ℝ} {j b : Nat} {rs : Resynth ℝ} (hcfg : LegalGeometry c) (hsr : 0 < c.sr0)
  (hlen : rs.phs.length = c.nb) (hphs : rs.phs = (analyzed c x j).1.pph)
include hcfg hsr hlen hphs

/-- A refresh from the frame of hop `j + 1`, by a resynthesizer whose running phases are the analyzer's phases of hop `j`. -/
theorem refresh_analyzed_bin {k : Nat} (hk : k < c.nb) :
    valAt ideal (refresh ideal c (ratesOf ideal c c.sr0) (analyzed c x (j + 1)).1.frame b
        (rs, (analyzed c x (j + 1)).2)).1.phs k = valAt ideal (analyzed c x (j + 1)).1.pph k ∧
    cxAt ideal (refresh ideal c (ratesOf ideal c c.sr0) (analyzed c x (j + 1)).1.frame b
        (rs, (analyzed c x (j + 1)).2)).2.sp k = cxAt ideal (analyzed c x (j + 1)).2.sp k := by
  obtain ⟨-, -, hsp, -⟩ := analyzed_shaped (c := c) x (j + 1)
  obtain ⟨hpph, hframe⟩ := analyzed_bin hcfg x j hk
  obtain ⟨hphase, hspec⟩ := refresh_bin (num := ideal) (r := ratesOf ideal c c.sr0) (f := (analyzed c x (j + 1)).1.frame)
    (b := b) (p := (rs, (analyzed c x (j + 1)).2)) hlen hsp hk
  rw [hphs, rotatedPhase_binAfter hcfg hsr hframe] at hphase hspec
  refine ⟨hphase.trans hpph.symm, hspec.trans ?_⟩
  obtain ⟨-, -, -, hrect⟩ := polarFormRoundTrip (cxAt ideal (analyzed c x (j + 1)).2.sp k)
  rw [hframe]
  exact hrect

theorem refresh_analyzed_phs : (refresh ideal c (ratesOf ideal c c.sr0) (analyzed c x (j + 1)).1.frame b
    (rs, (analyzed c x (j + 1)).2)).1.phs = (analyzed c x (j + 1)).1.pph := by
  obtain ⟨⟨-, hpph, -⟩, -⟩ := analyzed_shaped (c := c) x (j + 1)
  have hlen' := (refreshBins_length ideal c (ratesOf ideal c c.sr0) (analyzed c x (j + 1)).1.frame rs.phs
    (analyzed c x (j + 1)).2.sp).1.trans hlen
  exact eq_of_getD_eq (hlen'.trans hpph.symm) fun k hk =>
    (refresh_analyzed_bin hcfg hsr hlen hphs (hpph ▸ hk)).1

/-- The inverse transform gives back the windowed segment of the hop (43_resynth.md R187). -/
theorem refresh_analyzed_rb : (refresh ideal c (ratesOf ideal c c.sr0) (analyzed c x (j + 1)).1.frame b
    (rs, (analyzed c x (j + 1)).2)).2.rb = windowSegment ideal c (hopInput c x j) := by
  obtain ⟨-, -, hsp, -⟩ := analyzed_shaped (c := c) x (j + 1)
  have hlen' := (refreshBins_length ideal c (ratesOf ideal c c.sr0) (analyzed c x (j + 1)).1.frame rs.phs
    (analyzed c x (j + 1)).2.sp).2.trans hsp
  have hspec : (refresh ideal c (ratesOf ideal c c.sr0) (analyzed c x (j + 1)).1.frame b
      (rs, (analyzed c x (j + 1)).2)).2.sp = (analyzed c x (j + 1)).2.sp :=
    eq_of_getD_eq (hlen'.trans hsp.symm) fun k hk => (refresh_analyzed_bin hcfg hsr hlen hphs (hsp ▸ hk)).2
  have hhop : (analyzed c x (j + 1)).2 =
      rfft ideal c { (analyzed c x j).2 with rb := windowSegment ideal c (hopInput c x j) } := by
    rw [analyzed_succ_eq hcfg x j (analyzed c x j).2]
    rfl
  rw [refresh_te, hspec, irfft_congr ideal c (te' := (analyzed c x (j + 1)).2) rfl, hhop,
    irfft_rfft hcfg (length_windowSegment ..)]

/-- Place `i` of the refilled buffer holds the delayed input under both windows (43_resynth.md R184, R187). -/
theorem valAt_bufferAt_refresh_analyzed (hob : rs.ob.length = c.dm) {i : Nat} (hi : i < c.n) :
    valAt ideal (bufferAt (refresh ideal c (ratesOf ideal c c.sr0) (analyzed c x (j + 1)).1.frame (j % c.dm)
      (rs, (analyzed c x (j + 1)).2)).1 (j % c.dm)) i =
    delayed c.n x ((j + 1) * c.h + i) * (valAt ideal c.wa i * valAt ideal c.ws i) := by
  have hb : j % c.dm < rs.ob.length := hob.symm ▸ Nat.mod_lt j hcfg.dm_pos
  have hle := ringOffset_le hcfg (j % c.dm)
  have hoffset : ringOffset c (j % c.dm) = (j + 1) * c.h % c.n := by
    rw [ringOffset, Nat.mod_add_mod, ← hcfg.dm_mul_h, Nat.mul_mod_mul_right]
  have hplace : (i + ringOffset c (j % c.dm)) % c.n = ((j + 1) * c.h + i) % c.n := by
    rw [hoffset, Nat.add_mod_mod, Nat.add_comm]
  have hturn : (((j + 1) * c.h + i) % c.n + c.n - ringOffset c (j % c.dm)) % c.n = i := by
    rw [← hplace, Nat.add_sub_assoc hle, Nat.mod_add_mod, Nat.add_assoc, Nat.add_sub_cancel' hle, Nat.add_mod_right,
      Nat.mod_eq_of_lt hi]
  have hhnum : (hopInput c x j).hnum = j % c.dm := analyzed_hnum hcfg x j
  have hab : (hopInput c x j).ab = (analyzed c x (j + 1)).1.ab := by
    rw [analyzed_succ_eq hcfg x j (analyzed c x j).2, completeHop_ab]
  rw [bufferAt_refresh_self hb, refresh_analyzed_rb hcfg hsr hlen hphs, valAt_playSegment _ _ hi,
    valAt_windowSegment _ (Nat.mod_lt _ hcfg.n_pos), hhnum, hab, hplace, hturn, valAt_analyzed_ab hcfg x (j + 1) hi]
  exact mul_assoc _ _ _

end

/-! ## The resynthesizer's part -/

section
variable {V : Type} {num : Num V} {cfg : Config V} {r : Rates V} {f : List (Bin V)}

/-- With VS = H a command plays on and, at its last output sample, refreshes the buffer whose turn it is
(43_resynth.md R185). -/
theorem resynthesize_hop (hcfg : LegalGeometry cfg) (hvs : cfg.vs = cfg.h) {j : Nat} {rs : Resynth V} (te : Engine V)
    (h : rs.rcnt = counterPattern cfg (j * cfg.h)) : ∃ sout, resynthesize num cfg r f (rs, te) =
      refresh num cfg r f (j % cfg.dm) ({ rs with sout := sout, rcnt := counterPattern cfg ((j + 1) * cfg.h) }, te) := by
  obtain ⟨m, hm⟩ : ∃ m, cfg.h = m + 1 := ⟨cfg.h - 1, by have := hcfg.h_pos; omega⟩
  have hend : j * cfg.h + m + 1 = (j + 1) * cfg.h := by rw [Nat.succ_mul, Nat.add_assoc, ← hm]
  obtain ⟨sout, e⟩ := forTo_outputSample_of_pattern (num := num) (r := r) (f := f) hcfg (p := (rs, te)) (n := m) h
    (by rw [Nat.mul_mod_left]; omega)
  have hrcnt : (rs.playedOn m sout).rcnt = counterPattern cfg (j * cfg.h + m) := by
    have := forTo_outputSample_rcnt (num := num) (r := r) (f := f) hcfg (p := (rs, te)) h m
    rwa [e] at this
  have hlast := (outputSampleSumsAndRotates V num cfg r f m _ _ te hcfg hrcnt).2
    (by rw [hend, Nat.mul_mod_left])
  rw [hend, Nat.mul_div_cancel _ hcfg.h_pos, Nat.add_sub_cancel] at hlast
  have hsplit : resynthesize num cfg r f (rs, te) =
      outputSample num cfg r f m (forTo m (fun i q => outputSample num cfg r f i q) (rs, te)) := by
    rw [resynthesize, hvs, hm, forTo_succ]
  exact ⟨_, hsplit.trans ((congrArg _ e).trans hlast)⟩

/-- At the start of a hop the counters are whole hops. -/
theorem counterAt_at_hop (hcfg : LegalGeometry cfg) {rs : Resynth V} {j b : Nat}
    (h : rs.rcnt = counterPattern cfg (j * cfg.h)) (hb : b < cfg.dm) :
    counterAt rs b = (cfg.dm - 1 - b + j) % cfg.dm * cfg.h := by
  rw [counterAt_of_pattern h hb, counter_eq_hops hcfg, Nat.mul_div_cancel _ hcfg.h_pos, Nat.mul_mod_left, Nat.add_zero]

end

/-- Until its next refresh every buffer plays, from output sample T on, the delayed input under both windows. -/
def PlaysDelayed (c : Config ℝ) (x : Nat → ℝ) (T : Nat) (rs : Resynth ℝ) : Prop :=
  ∀ b < c.dm, ∀ t, counterAt rs b + t < c.n → valAt ideal (bufferAt rs b) (counterAt rs b + t) =
    delayed c.n x (T + t) * (valAt ideal c.wa (counterAt rs b + t) * valAt ideal c.ws (counterAt rs b + t))

/-- Refreshed with the hop just analyzed, buffer `j mod dm` starts its turn; the counters of the others are one hop on. -/
theorem playsDelayed_succ (hcfg : LegalGeometry c) (hsr : 0 < c.sr0) {x : Nat → ℝ} {j : Nat} {rs : Resynth ℝ}
    (hlen : rs.phs.length = c.nb) (hphs : rs.phs = (analyzed c x j).1.pph) (hob : rs.ob.length = c.dm)
    (hrcnt : rs.rcnt = counterPattern c (j * c.h)) (hplays : PlaysDelayed c x (j * c.h) rs) (sout : List ℝ) :
    PlaysDelayed c x ((j + 1) * c.h) (refresh ideal c (ratesOf ideal c c.sr0) (analyzed c x (j + 1)).1.frame (j % c.dm)
      ({ rs with sout := sout, rcnt := counterPattern c ((j + 1) * c.h) }, (analyzed c x (j + 1)).2)).1 := by
  intro b hb t ht
  rw [counterAt_at_hop hcfg rfl hb, ← Nat.add_assoc] at ht ⊢
  rcases div_mod_add_one hcfg.dm_pos (c.dm - 1 - b + j) with ⟨hlast, -, hnext⟩ | ⟨hplaying, -, hnext⟩ <;>
    rw [hnext] at ht ⊢
  · obtain rfl := (last_hop_iff hb j).1 hlast
    rw [Nat.zero_mul, Nat.zero_add] at ht ⊢
    exact valAt_bufferAt_refresh_analyzed hcfg hsr hlen hphs hob ht
  · have hother : b ≠ j % c.dm := fun h => hplaying ((last_hop_iff hb j).2 h.symm)
    have hhop := hplays b hb (c.h + t)
    rw [counterAt_at_hop hcfg hrcnt hb, ← Nat.add_assoc, ← Nat.add_assoc, ← Nat.succ_mul, ← Nat.succ_mul] at hhop
    rw [bufferAt_refresh_ne hother]
    exact hhop ht

/-- The resynthesizer of the lockstep host after `j` rounds (43_resynth.md R187). -/
structure InLockstep (c : Config ℝ) (x : Nat → ℝ) (j : Nat) (rs : Resynth ℝ) : Prop where
  shaped : rs.ob.length = c.dm ∧ rs.phs.length = c.nb ∧ rs.sout.length = c.vs
  rcnt : rs.rcnt = counterPattern c (j * c.h)
  phs : rs.phs = (analyzed c x j).1.pph
  plays : PlaysDelayed c x (j * c.h) rs

theorem inLockstep_reset (hcfg : LegalGeometry c) (x : Nat → ℝ) : InLockstep c x 0 (Resynth.resetOf ideal c) where
  shaped := ⟨List.length_replicate, List.length_replicate, List.length_replicate⟩
  rcnt := by rw [Nat.zero_mul]; exact resetOf_rcnt ideal hcfg
  phs := rfl
  plays b _ t ht := by rw [valAt_bufferAt_reset, delayed, if_pos (by omega), zero_mul]

/-- A round refreshes one buffer with the hop just analyzed, and the other buffers play on. -/
theorem inLockstep_succ (hcfg : LegalGeometry c) (hvs : c.vs = c.h) (hsr : 0 < c.sr0) {x : Nat → ℝ} {j : Nat}
    {rs : Resynth ℝ} (h : InLockstep c x j rs) : InLockstep c x (j + 1)
      (resynthesize ideal c (ratesOf ideal c c.sr0) (analyzed c x (j + 1)).1.frame (rs, (analyzed c x (j + 1)).2)).1 := by
  obtain ⟨⟨hob, hlen, hsout⟩, hrcnt, hphs, hplays⟩ := h
  have hsout' := (length_sout_resynthesize (num := ideal) (cfg := c) (r := ratesOf ideal c c.sr0)
    (f := (analyzed c x (j + 1)).1.frame) (rs, (analyzed c x (j + 1)).2)).trans hsout
  obtain ⟨sout, e⟩ := resynthesize_hop (num := ideal) (r := ratesOf ideal c c.sr0) (f := (analyzed c x (j + 1)).1.frame)
    hcfg hvs (analyzed c x (j + 1)).2 hrcnt
  rw [e] at hsout' ⊢
  have hphs' := refresh_analyzed_phs (b := j % c.dm)
    (rs := { rs with sout := sout, rcnt := counterPattern c ((j + 1) * c.h) }) hcfg hsr hlen hphs
  obtain ⟨⟨-, hpph, -⟩, -⟩ := analyzed_shaped (c := c) x (j + 1)
  exact ⟨⟨List.length_set.trans hob, (congrArg _ hphs').trans hpph, hsout'⟩, rfl, hphs',
    playsDelayed_succ hcfg hsr hlen hphs hob hrcnt hplays sout⟩

/-! ## The two stages together -/

theorem lockstep_succ (hcfg : LegalGeometry c) {x : Nat → ℝ} {j : Nat} (h : (lockstep c x j).1 = (analyzed c x j).1) :
    (lockstep c x (j + 1)).1 = (analyzed c x (j + 1)).1 ∧ (lockstep c x (j + 1)).2.2 =
      (resynthesize ideal c (ratesOf ideal c c.sr0) (analyzed c x (j + 1)).1.frame
        ((lockstep c x j).2.2, (analyzed c x (j + 1)).2)).1 := by
  rw [analyzed_succ_eq hcfg x j (lockstep c x j).2.1, ← analyze_hop hcfg, ← h]
  exact ⟨rfl, rfl⟩

theorem lockstep_analyzer (hcfg : LegalGeometry c) (x : Nat → ℝ) (j : Nat) :
    (lockstep c x j).1 = (analyzed c x j).1 := by
  induction j with
  | zero => rfl
  | succ j ih => exact (lockstep_succ hcfg ih).1

theorem lockstep_resynth (hcfg : LegalGeometry c) (hvs : c.vs = c.h) (hsr : 0 < c.sr0) (x : Nat → ℝ) (j : Nat) :
    InLockstep c x j (lockstep c x j).2.2 := by
  induction j with
  | zero => exact inLockstep_reset hcfg x
  | succ j ih =>
    rw [(lockstep_succ hcfg (lockstep_analyzer hcfg x j)).2]
    exact inLockstep_succ hcfg hvs hsr ih

/-- The buffers take the hops of their turn one each, so their sum over the buffers is one over the hops. -/
theorem sum_over_turn {d : Nat} (g : Nat → ℝ) (j : Nat) :
    ∑ b ∈ Finset.range d, g ((d - 1 - b + j) % d) = ∑ m ∈ Finset.range d, g m := by
  have himage : ∑ m ∈ Finset.range d, g m = ∑ i ∈ Finset.Ico j (j + d), g (i % d) := by
    rw [← Nat.image_Ico_mod j d, Finset.sum_image (Nat.mod_injOn_Ico j d)]
  rw [Finset.sum_range_reflect (fun b => g ((b + j) % d)), himage, Finset.sum_Ico_eq_sum_range, Nat.add_sub_cancel_left]
  simp only [Nat.add_comm]

/-- Settles O60: in round `j` every buffer plays the delayed input under both windows, each at another hop of its turn. -/
theorem lockstepReconstruction : Obligations.LockstepReconstruction := by
  intro c x hcfg hvs hsr j r hr
  obtain ⟨⟨-, -, hsout⟩, hrcnt, -, hplays⟩ := lockstep_resynth hcfg hvs hsr x j
  rw [(lockstep_succ hcfg (lockstep_analyzer hcfg x j)).2, valAt_sout_resynthesize hsout (hvs.symm ▸ hr)]
  have hinside : j * c.h % c.h + r < c.h := by rwa [Nat.mul_mod_left, Nat.zero_add]
  have hlt := counterAt_add_lt_of_pattern hcfg hrcnt hinside
  have hlen : (lockstep c x j).2.2.rcnt.length = c.dm := hrcnt ▸ length_counterPattern _
  obtain ⟨sout, e⟩ := forTo_outputSample_of_pattern (num := ideal) (r := ratesOf ideal c c.sr0)
    (f := (analyzed c x (j + 1)).1.frame) hcfg (p := ((lockstep c x j).2.2, (analyzed c x (j + 1)).2)) hrcnt hinside
  have hterm : ∀ b < c.dm, valAt ideal (bufferAt ((lockstep c x j).2.2.playedOn r sout) b)
      (counterAt ((lockstep c x j).2.2.playedOn r sout) b) = delayed c.n x (j * c.h + r) *
        (valAt ideal c.wa (r + (c.dm - 1 - b + j) % c.dm * c.h) *
          valAt ideal c.ws (r + (c.dm - 1 - b + j) % c.dm * c.h)) := by
    intro b hb
    rw [counterAt_playedOn (hlen.symm ▸ hb), Nat.add_comm r, ← counterAt_at_hop hcfg hrcnt hb]
    exact hplays b hb r (hlt b hb)
  rw [e, overlapSum_ideal, Finset.sum_congr rfl fun b hb => hterm b (Finset.mem_range.1 hb), ← Finset.mul_sum,
    sum_over_turn fun m => valAt ideal c.wa (r + m * c.h) * valAt ideal c.ws (r + m * c.h), delayed, ite_mul, zero_mul]

end Sys2Proof.Machine
end

section
/-! PROOF. The command RESET over both outcomes of its rate test (44_system.md R200, R201). -/

namespace Sys2Proof.Machine

theorem bits_sign_eq_zero_iff (w : Word) : bits w 31 31 = 0 ↔ w.getLsbD 31 = false := by
  rw [BitVec.getLsbD, Nat.testBit_eq_decide_div_mod_eq, decide_eq_false_iff_not, Nat.mod_two_not_eq_one]
  rfl

/-- The rate test in the form of R200's reading: not negative, finite, not zero. -/
theorem isLegalRate_iff_getLsbD (w : Word) :
    isLegalRate w = true ↔ w.getLsbD 31 = false ∧ w.toNat / 2 ^ 23 % 2 ^ 8 ≠ 255 ∧ w ≠ 0 := by
  rw [isLegalRate_iff, bits_sign_eq_zero_iff]
  rfl

theorem exec_reset_of_not_legal {s : State} (h : ¬ isLegalRate s.arg = true) :
    exec .reset s = .next (raise .badRate (encode .reset) s) := by
  simp [exec, execReset, rateOperand, h]

/-- Settles O30: RESET branches on the rate test alone, and the test reads the sign, the exponent field and the zero word. -/
theorem resetCommandSetsRates : Obligations.ResetCommandSetsRates := by
  intro s sr legal
  have hlegal : isLegalRate s.arg = true ↔ legal := isLegalRate_iff_getLsbD s.arg
  constructor
  · intro h
    exact exec_reset_of_legal (hlegal.2 h)
  · intro h
    exact exec_reset_of_not_legal (mt hlegal.1 h)

end Sys2Proof.Machine
end

section
/-! PROOF. The control part after a step is a function of the control part before it: no sample, bin, spectrum or phase
enters it (60_exceptions.md R210, 70_reset_and_hazards.md R262). -/

namespace Sys2Proof.Machine

/-! ## Indices and counters -/

section
variable {V : Type} {num : Num V} {cfg : Config V} {r : Rates V}

/-- The integer state of the analyzer: HNUM, POS and FCNT (10_state.md R26, R29). -/
def Analyzer.indices (an : Analyzer V) : Nat × Nat × BitVec 32 := (an.hnum, an.pos, an.fcnt)

/-- An iteration of ANALYZE moves the indices by the number of samples alone (42_analyzer.md R161, R163). -/
theorem indices_analyzeIter (sin : List V) (i n : Nat) (p : Analyzer V × Engine V) :
    (analyzeIter num cfg r sin i n p).1.indices =
      if p.1.indices.2.1 + n = cfg.h then ((p.1.indices.1 + 1) % cfg.dm, 0, p.1.indices.2.2 + 1)
      else (p.1.indices.1, p.1.indices.2.1 + n, p.1.indices.2.2) := by
  change _ = if p.1.pos + n = cfg.h then _ else _
  unfold analyzeIter
  rw [acceptSamples_pos]
  split <;> rfl

theorem fitting_congr {an an' : Analyzer V} (h : an.indices = an'.indices) (len i : Nat) :
    fitting cfg len i an = fitting cfg len i an' :=
  congrArg (fun x : Nat × Nat × BitVec 32 => min (len - i) (cfg.h - x.2.1)) h

/-- Two runs of the loop of ANALYZE from the same indices, on any samples, end with the same indices. -/
theorem indices_analyzeLoop_congr (sin sin' : List V) (len fuel i : Nat) {p q : Analyzer V × Engine V}
    (h : p.1.indices = q.1.indices) :
    (analyzeLoop num cfg r sin len fuel i p).1.indices = (analyzeLoop num cfg r sin' len fuel i q).1.indices := by
  induction fuel generalizing i p q with
  | zero => exact h
  | succ fuel ih =>
    rw [analyzeLoop_succ, analyzeLoop_succ, fitting_congr h]
    split
    · exact ih _ (by rw [indices_analyzeIter, indices_analyzeIter, h])
    · exact h

theorem indices_analyze_congr {cfg' : Config V} (hcfg : cfg = cfg') {r' : Rates V} (hr : r = r') (sin sin' : List V)
    (len : Nat) {p q : Analyzer V × Engine V} (h : p.1.indices = q.1.indices) :
    (analyze num cfg r sin len p).1.indices = (analyze num cfg' r' sin' len q).1.indices := by
  subst hcfg hr
  exact indices_analyzeLoop_congr sin sin' len len 0 h

variable {f f' : List (Bin V)}

/-- Whether a counter counts up or returns to 0 depends on the counters alone (43_resynth.md R182). -/
theorem rcnt_advance_congr (b : Nat) {p q : Resynth V × Engine V} (h : p.1.rcnt = q.1.rcnt) :
    (advance num cfg r f b p).1.rcnt = (advance num cfg r f' b q).1.rcnt := by
  have hup : (countUp b p.1).rcnt = (countUp b q.1).rcnt := by simp only [countUp, setCounter_rcnt, counterAt, h]
  have hcount : counterAt (countUp b p.1) b = counterAt (countUp b q.1) b := congrArg (·.getD b 0) hup
  unfold advance
  rw [hcount]
  split
  · exact congrArg (·.set b 0) hup
  · exact hup

theorem rcnt_outputSample_congr (i : Nat) {p q : Resynth V × Engine V} (h : p.1.rcnt = q.1.rcnt) :
    (outputSample num cfg r f i p).1.rcnt = (outputSample num cfg r f' i q).1.rcnt :=
  forTo_rel (fun p q : Resynth V × Engine V => p.1.rcnt = q.1.rcnt) h fun b _ _ _ => rcnt_advance_congr b

theorem rcnt_resynthesize_congr {cfg' : Config V} (hcfg : cfg = cfg') {r' : Rates V} (hr : r = r')
    {p q : Resynth V × Engine V} (h : p.1.rcnt = q.1.rcnt) :
    (resynthesize num cfg r f p).1.rcnt = (resynthesize num cfg' r' f' q).1.rcnt := by
  subst hcfg hr
  exact forTo_rel (fun p q : Resynth V × Engine V => p.1.rcnt = q.1.rcnt) h fun i _ _ _ => rcnt_outputSample_congr i

end

/-! ## The control part after each shared update -/

theorem control_raise (c : Cause) (w : Word) (s : State) : control (raise c w s) =
    { control s with err := true, errcode := causeCode c, errcmd := w, busy := false } := rfl

theorem control_clearError (s : State) : control (clearError s) =
    { control s with err := false, errcode := 0, errcmd := 0 } := rfl

theorem control_setBusy (b : Bool) (s : State) : control (setBusy b s) = { control s with busy := b } := rfl

theorem control_withHost (rest : List HostAction) (s : State) :
    control (withHost rest s) = { control s with host := rest } := rfl

theorem control_performReset (s : State) : control (performReset s) =
    { control (State.resetOf (control s).cfg) with host := (control s).host } := rfl

section
variable {s u : State} (h : control s = control u)
include h

theorem control_withRates_congr {r r' : Rates Word} (hr : r = r') :
    control { s with rates := r } = control { u with rates := r' } := by
  change { control s with rates := r } = { control u with rates := r' }
  rw [h, hr]

/-- Of the analyzer and the engine, the control part shows the indices only. -/
theorem control_withAnalyzer_congr {an an' : Analyzer Word} (hindices : an.indices = an'.indices) (te te' : Engine Word) :
    control { s with an := an, te := te } = control { u with an := an', te := te' } := by
  change { control s with hnum := an.indices.1, pos := an.indices.2.1, fcnt := an.indices.2.2 } =
    { control u with hnum := an'.indices.1, pos := an'.indices.2.1, fcnt := an'.indices.2.2 }
  rw [h, hindices]

/-- Of the resynthesizer and the engine, the control part shows the counters only. -/
theorem control_withResynth_congr {rs rs' : Resynth Word} (hrcnt : rs.rcnt = rs'.rcnt) (te te' : Engine Word) :
    control { s with rs := rs, te := te } = control { u with rs := rs', te := te' } := by
  change { control s with rcnt := rs.rcnt } = { control u with rcnt := rs'.rcnt }
  rw [h, hrcnt]

theorem control_raise_congr (c : Cause) (w : Word) : control (raise c w s) = control (raise c w u) := by
  rw [control_raise, control_raise, h]

theorem control_storeLoc_congr (loc : Loc) (w : Word) : control (storeLoc loc w s) = control (storeLoc loc w u) := by
  cases loc with
  | csr r =>
    cases r with
    | status =>
      dsimp only [storeLoc]
      split
      · rw [control_clearError, control_clearError, h]
      · exact h
    | arg => exact congrArg (fun c : Control => { c with arg := w }) h
    | _ => exact h
  | _ => exact h

end

/-! ## The control part of an outcome -/

/-- What an outcome shows of the control part. -/
def controlOutcome : Result → Host.Outcome Control Fault Refusal
  | .next t    => .next (control t)
  | .fault r   => .fault r
  | .refused r => .refused r

theorem controlOutcome_next_congr {t v : State} (h : control t = control v) :
    controlOutcome (.next t) = controlOutcome (.next v) := congrArg Host.Outcome.next h

theorem exists_next_of_controlOutcome_eq {t : State} {a : Result} (h : controlOutcome (.next t) = controlOutcome a) :
    ∃ v, a = .next v ∧ control t = control v := by
  cases a with
  | next v => exact ⟨v, rfl, Host.Outcome.next.inj h⟩
  | fault r => cases h
  | refused r => cases h

theorem controlOutcome_complete_congr {a b : Result} (h : controlOutcome a = controlOutcome b) :
    controlOutcome (complete a) = controlOutcome (complete b) := by
  cases a with
  | next t =>
    obtain ⟨v, rfl, hv⟩ := exists_next_of_controlOutcome_eq h
    exact congrArg (fun c : Control => Host.Outcome.next { c with busy := false }) hv
  | fault r => cases r
  | refused r =>
    cases b with
    | refused r' => exact h
    | next v => cases h
    | fault r' => cases h

section
variable {s u : State} (h : control s = control u)
include h

/-- What a command does to the control part depends on the control part alone. -/
theorem controlOutcome_exec_congr (i : Instr) : controlOutcome (exec i s) = controlOutcome (exec i u) := by
  have hcfg : s.cfg = u.cfg := congrArg Control.cfg h
  have hrates : s.rates = u.rates := congrArg Control.rates h
  cases i with
  | cfftF | cfftI | rfft | irfft => exact controlOutcome_next_congr h
  | analyze len =>
    have hcheck : lengthOutOfRange len s = lengthOutOfRange len u := by rw [lengthOutOfRange, lengthOutOfRange, hcfg]
    have hindices : s.an.indices = u.an.indices := congrArg (fun c => (c.hnum, c.pos, c.fcnt)) h
    change controlOutcome (execAnalyze len s) = controlOutcome (execAnalyze len u)
    rw [execAnalyze, execAnalyze, hcheck]
    split
    · exact controlOutcome_next_congr (control_raise_congr h _ _)
    · exact controlOutcome_next_congr
        (control_withAnalyzer_congr h (indices_analyze_congr hcfg hrates s.sin u.sin len hindices) _ _)
  | resynth src =>
    have hrcnt : s.rs.rcnt = u.rs.rcnt := congrArg Control.rcnt h
    exact controlOutcome_next_congr (control_withResynth_congr h (rcnt_resynthesize_congr hcfg hrates hrcnt) _ _)
  | reset =>
    have hrate : rateOperand s = rateOperand u := congrArg Control.arg h
    change controlOutcome (execReset s) = controlOutcome (execReset u)
    rw [execReset, execReset, hrate]
    split
    · exact controlOutcome_next_congr (control_withRates_congr h (by rw [hcfg]))
    · exact controlOutcome_next_congr (control_raise_congr h _ _)

theorem controlOutcome_issue_congr (w : Word) : controlOutcome (issue w s) = controlOutcome (issue w u) := by
  have hbusy : control (setBusy true s) = control (setBusy true u) := by rw [control_setBusy, control_setBusy, h]
  have herr : s.err = u.err := congrArg Control.err h
  unfold issue
  rw [herr]
  split
  · exact controlOutcome_next_congr h
  · cases decode w with
    | ok i => exact controlOutcome_complete_congr (controlOutcome_exec_congr hbusy i)
    | error c => exact controlOutcome_next_congr (control_raise_congr hbusy c w)

theorem controlOutcome_performRead_congr (a : Addr) :
    controlOutcome (performRead a s) = controlOutcome (performRead a u) := by
  have hread (x : State) : controlOutcome (performRead a x) = .next (control x) := by
    unfold performRead
    cases hostRead x a <;> rfl
  rw [hread, hread, h]

theorem controlOutcome_performWrite_congr (a : Addr) (w : Word) :
    controlOutcome (performWrite a w s) = controlOutcome (performWrite a w u) := by
  have hcfg : s.cfg = u.cfg := congrArg Control.cfg h
  have hdone : control (respond .done s) = control (respond .done u) := h
  unfold performWrite
  rw [hcfg]
  cases locate u.cfg a with
  | none => exact controlOutcome_next_congr h
  | some loc =>
    dsimp only
    split
    · exact controlOutcome_next_congr h
    · split
      · exact controlOutcome_issue_congr hdone w
      · exact controlOutcome_next_congr (control_storeLoc_congr hdone loc w)

theorem controlOutcome_perform_congr (act : HostAction) :
    controlOutcome (perform act s) = controlOutcome (perform act u) := by
  have hbusy : s.busy = u.busy := congrArg Control.busy h
  unfold perform permitted
  rw [hbusy]
  split
  · cases act with
    | read a => exact controlOutcome_performRead_congr h a
    | write a w => exact controlOutcome_performWrite_congr h a w
    | hardwareReset => exact controlOutcome_next_congr (by rw [control_performReset, control_performReset, h])
  · rfl

theorem controlOutcome_step_congr : controlOutcome (step s) = controlOutcome (step u) := by
  have hhost : s.host = u.host := congrArg Control.host h
  unfold step runHost
  rw [hhost]
  cases u.host with
  | nil => exact controlOutcome_next_congr h
  | cons act rest =>
    exact controlOutcome_perform_congr (by rw [control_withHost, control_withHost, h]) act

end

/-- Settles O26: what a step's outcome shows of the control part is a function of the control part. -/
theorem controlIndependentOfValues : Obligations.ControlIndependentOfValues := fun _ _ h _ e =>
  exists_next_of_controlOutcome_eq (e ▸ controlOutcome_step_congr h)

end Sys2Proof.Machine
end

section
/-! PROOF. Recording, discarding and clearing command errors (60_exceptions.md R211 to R218). -/

namespace Sys2Proof.Machine

/-! ## One write as a step -/

theorem step_write_cmd {s : State} {w : Word} {rest : List HostAction} (hb : s.busy = false)
    (h : s.host = .write cmdAddr w :: rest) : step s = issue w (respond .done (withHost rest s)) :=
  (step_write hb h).trans (performWrite_cmd w _)

theorem step_write_store {s : State} {a : Addr} {w : Word} {rest : List HostAction} {loc : Loc} (hb : s.busy = false)
    (h : s.host = .write a w :: rest) (hloc : locate s.cfg a = some loc) (hrw : readOnly loc = false)
    (hcmd : loc ≠ .csr .cmd) : step s = .next (storeLoc loc w (respond .done (withHost rest s))) :=
  (step_write hb h).trans (performWrite_store (s := withHost rest s) hloc hrw hcmd w)

theorem issue_of_err {s : State} (herr : s.err = true) (w : Word) : issue w s = .next s := by
  simp [issue, herr]

theorem issue_of_decode_error {w : Word} {c : Cause} {s : State} (herr : s.err = false) (hdec : decode w = .error c) :
    issue w s = .next (raise c w (setBusy true s)) := by
  simp [issue, herr, hdec]

/-- Outside a command, an error changes the error registers and nothing else (60_exceptions.md R212). -/
theorem raise_of_not_busy {s : State} (hb : s.busy = false) (c : Cause) (w : Word) :
    raise c w s = { s with err := true, errcode := causeCode c, errcmd := w } := by
  rw [raise, ← hb]

theorem step_decode_error {s : State} {w : Word} {rest : List HostAction} {c : Cause} (hb : s.busy = false)
    (herr : s.err = false) (h : s.host = .write cmdAddr w :: rest) (hdec : decode w = .error c) :
    step s = .next { s with host := rest, response := .done, err := true, errcode := causeCode c, errcmd := w } := by
  rw [step_write_cmd hb h, issue_of_decode_error (s := respond .done (withHost rest s)) herr hdec]
  exact congrArg Host.Outcome.next (raise_of_not_busy (s := respond .done (withHost rest s)) hb c w)

/-- Settles O6: the decoder's cause is recorded. -/
theorem undecodableWordRecorded : Obligations.UndecodableWordRecorded := fun _ _ _ hb herr h =>
  ⟨step_decode_error hb herr h, step_decode_error hb herr h⟩

/-- Settles O11: a reserved bit of the RESET word keeps it from being decoded, so ARG is not looked at. -/
theorem reservedFieldBeforeBadRate : Obligations.ReservedFieldBeforeBadRate := by
  intro s rest w hb herr h hop hres
  obtain ⟨-, -, -, -, -, -, -, -, hreserved, -⟩ := decoderMatchesOpcodeTable w
  have hdec : decode w = .error .reservedField := hreserved.2 (.inl ⟨by simp [hop], hres⟩)
  exact step_decode_error hb herr h hdec

/-! ## While an error is recorded -/

/-- STATUS alone shows ERR. -/
theorem hostRead_withErr {s : State} {a : Addr} (ha : a ≠ statusAddr) (err : Bool) :
    hostRead { s with err := err } a = hostRead s a := by
  refine hostRead_congr rfl fun loc _ hloc => ?_
  cases loc with
  | csr r =>
    cases r with
    | status => exact absurd hloc.symm ha
    | _ => rfl
  | _ => rfl

/-- Settles O7: of the host's actions only the issue of a command looks at ERR. -/
theorem commandDiscardedWhileErr : Obligations.CommandDiscardedWhileErr := by
  intro s rest hb herr
  refine ⟨fun w h => ?_, fun a ha => (hostRead_withErr ha false).symm, fun a h => ?_, fun a w loc h hloc hrw ha => ?_⟩
  · exact (step_write_cmd hb h).trans (issue_of_err (s := respond .done (withHost rest s)) herr w)
  · rw [step_read (permitted_of_not_busy hb _) h]
    cases hread : hostRead s a with
    | none => exact performRead_unmapped (s := withHost rest s) ((hostRead_eq_none_iff s a).1 hread)
    | some x => exact performRead_of_hostRead (s := withHost rest s) hread
  · exact step_write_store hb h hloc hrw fun hcmd => ha (eq_cmdAddr_of_locate (hcmd ▸ hloc))

/-! ## The return from an error -/

theorem clearsError_eq_getLsbD (w : Word) : clearsError w = w.getLsbD 1 := by
  rw [BitVec.getLsbD, Nat.testBit_eq_decide_div_mod_eq]
  rfl

/-- STATUS is write 1 to clear (10_state.md R42). -/
theorem storeLoc_status (w : Word) (s : State) :
    storeLoc (.csr .status) w s = if w.getLsbD 1 then clearError s else s := by
  rw [← clearsError_eq_getLsbD, storeLoc]

theorem storeLoc_err_of_ne_status {loc : Loc} (h : loc ≠ .csr .status) (w : Word) (s : State) :
    (storeLoc loc w s).err = s.err := by
  cases loc with
  | csr r =>
    cases r with
    | status => exact absurd rfl h
    | _ => rfl
  | _ => rfl

theorem step_write_status {s : State} {w : Word} {rest : List HostAction} (hb : s.busy = false)
    (h : s.host = .write statusAddr w :: rest) : step s = .next (if w.getLsbD 1 then
      clearError (respond .done (withHost rest s)) else respond .done (withHost rest s)) := by
  rw [step_write_store hb h (loc := .csr .status) rfl rfl nofun, storeLoc_status]

/-- With no error recorded the error registers are 0 already (10_state.md R53). -/
theorem clearError_of_no_error {s : State} (hagree : ErrorRegistersAgree s) (herr : s.err = false) :
    clearError s = s := by
  obtain ⟨hcode, hcmd⟩ := hagree.1 herr
  cases s
  subst herr hcode hcmd
  rfl

/-- Settles O8: bit 1 of the word decides whether the error registers are cleared. -/
theorem errorClearedByStatusWrite : Obligations.ErrorClearedByStatusWrite := by
  intro s rest w hb h
  have hstep := step_write_status hb h
  refine ⟨fun hw => ?_, fun hw => ?_, fun hagree herr => ?_⟩
  · rw [hstep, if_pos hw]
    rfl
  · rw [hstep, hw]
    rfl
  · rw [hstep, clearError_of_no_error (s := respond .done (withHost rest s)) hagree herr, ite_self]
    rfl

/-! ## Which steps change ERR -/

/-- A command that does not raise leaves the error registers as they are (60_exceptions.md R212). -/
theorem exec_raises_or_keeps_err {i : Instr} {s t : State} (e : exec i s = .next t) :
    (∃ c, t = raise c (encode i) s) ∨ t.err = s.err := by
  obtain ⟨u, e', c⟩ := exec_cases i s
  obtain rfl : u = t := Host.Outcome.next.inj (e'.symm.trans e)
  cases i with
  | cfftF | cfftI | rfft | irfft | resynth => exact .inr (by rw [c])
  | analyze len =>
    rcases c with ⟨-, hraise⟩ | ⟨-, hnext⟩
    · exact .inl ⟨_, hraise⟩
    · exact .inr (by rw [hnext])
  | reset =>
    rcases c with ⟨-, hnext⟩ | ⟨-, hraise⟩
    · exact .inr (by rw [hnext])
    · exact .inl ⟨_, hraise⟩

/-- A step that sets ERR has issued a command word and raised an error, from the decoder or from the command
(60_exceptions.md R214). -/
theorem step_sets_err {s t : State} (herr : s.err = false) (e : step s = .next t) (ht : t.err = true) :
    ∃ w rest c, s.host = .write cmdAddr w :: rest ∧ t = raise c w (respond .done (withHost rest s)) := by
  have hkept (h : t.err = s.err) : False := by simp [h, herr] at ht
  rcases step_effect e with rfl | ⟨_, rest, hact, ⟨_, rfl⟩ | ⟨_, w, loc, -, -, -, rfl⟩ | ⟨w, c, rfl, -, -, rfl⟩ |
    ⟨w, i, u, rfl, -, hdec, hexec, rfl⟩ | ⟨-, rfl⟩⟩
  · exact (hkept rfl).elim
  · exact (hkept rfl).elim
  · rcases storeLoc_cases loc w (respond .done (withHost rest s)) with h | ⟨_, _, _, _, _, _, h⟩ <;>
      simp [h, herr] at ht
  · exact ⟨w, rest, c, hact, rfl⟩
  · obtain ⟨-, rfl⟩ := encodeOfDecode w i hdec
    rcases exec_raises_or_keeps_err hexec with ⟨c, rfl⟩ | h
    · exact ⟨_, rest, c, hact, rfl⟩
    · exact (hkept h).elim
  · simp at ht

/-- A step that clears ERR is a write of STATUS with bit 1 set, or a hardware reset (60_exceptions.md R216, R218). -/
theorem step_clears_err {s t : State} (herr : s.err = true) (e : step s = .next t) (ht : t.err = false) :
    (∃ w rest, s.host = .write statusAddr w :: rest ∧ w.getLsbD 1 = true ∧
      t = clearError (respond .done (withHost rest s))) ∨
    (∃ rest, s.host = .hardwareReset :: rest ∧ t = performReset (withHost rest s)) := by
  have hkept (h : t.err = s.err) : False := by simp [h, herr] at ht
  rcases step_effect e with rfl | ⟨_, rest, hact, ⟨_, rfl⟩ | ⟨a, w, loc, rfl, hloc, -, rfl⟩ | ⟨_, _, -, h, -⟩ |
    ⟨_, _, _, -, h, -⟩ | ⟨rfl, rfl⟩⟩
  · exact (hkept rfl).elim
  · exact (hkept rfl).elim
  · by_cases hstatus : loc = .csr .status
    · subst hstatus
      obtain rfl : statusAddr = a := addrOf_of_locate hloc
      rw [storeLoc_status] at ht ⊢
      split at ht
      next hw => exact .inl ⟨w, rest, hact, hw, if_pos hw⟩
      next => exact absurd (herr.symm.trans ht) nofun
    · exact (hkept (storeLoc_err_of_ne_status hstatus w _)).elim
  · simp [herr] at h
  · simp [herr] at h
  · exact .inr ⟨rest, hact, rfl⟩

/-- Settles O9: the step raises, and from BUSY = 0 raising changes the error registers only. -/
theorem errorsArePrecise : Obligations.ErrorsArePrecise := by
  intro s t hb herr e ht
  obtain ⟨w, rest, c, h, rfl⟩ := step_sets_err herr e ht
  obtain ⟨hlow, hhigh⟩ := causeCode_mem_range c
  exact ⟨w, rest, h, hlow, hhigh, raise_of_not_busy (s := respond .done (withHost rest s)) hb c w⟩

theorem causeCode_ne_zero (c : Cause) : causeCode c ≠ 0 := by
  cases c <;> decide

/-- Settles O10: `step_sets_err` and `step_clears_err` name the events. -/
theorem onlyTheseEventsChangeErr : Obligations.OnlyTheseEventsChangeErr := by
  intro s t _ e hne
  cases herr : s.err with
  | false =>
    obtain ⟨w, rest, c, h, rfl⟩ := step_sets_err herr e (by simpa [herr] using hne)
    exact .inl ⟨rfl, w, rest, h, rfl, causeCode_ne_zero c⟩
  | true =>
    refine .inr ⟨rfl, ?_⟩
    rcases step_clears_err herr e (by simpa [herr] using hne) with ⟨w, rest, h, hw, rfl⟩ | ⟨rest, h, rfl⟩
    · exact ⟨rfl, rfl, .inl ⟨w, rest, h, hw⟩⟩
    · exact ⟨rfl, rfl, .inr ⟨rest, h⟩⟩

end Sys2Proof.Machine
end

section
/-! PROOF. Every step from BUSY = 0 completes, and hardware reset from every state (70_reset_and_hazards.md R240, R262,
20_memory.md R78). -/

namespace Sys2Proof.Machine

/-! ## Hardware reset -/

theorem permitted_hardwareReset (s : State) : permitted .hardwareReset s = true := by
  simp [permitted]

/-- Settles O21: the host may reset the hardware at any time, BUSY or not. -/
theorem hardwareResetFromAnyState : Obligations.HardwareResetFromAnyState := fun s rest h =>
  (step_of_host_cons h).trans (if_pos (permitted_hardwareReset (withHost rest s)))

/-! ## What is permitted completes -/

theorem issue_completes (w : Word) (s : State) : ∃ t, issue w s = .next t := by
  rcases issue_cases w s with ⟨-, e⟩ | ⟨-, _, -, e⟩ | ⟨-, _, _, -, -, e⟩
  · exact ⟨_, e⟩
  · exact ⟨_, e⟩
  · exact ⟨_, e⟩

theorem performRead_completes (a : Addr) (s : State) : ∃ t, performRead a s = .next t := by
  cases hread : hostRead s a with
  | none => exact ⟨_, performRead_unmapped ((hostRead_eq_none_iff s a).1 hread)⟩
  | some w => exact ⟨_, performRead_of_hostRead hread⟩

theorem performWrite_completes (a : Addr) (w : Word) (s : State) : ∃ t, performWrite a w s = .next t := by
  by_cases hm : mapped s.cfg a
  · obtain ⟨loc, hloc⟩ := exists_locate_of_mapped hm
    by_cases hro : readOnly loc = true
    · exact ⟨_, performWrite_readOnly hloc hro w⟩
    · by_cases hcmd : loc = .csr .cmd
      · obtain rfl := eq_cmdAddr_of_locate (hcmd ▸ hloc)
        exact issue_completes w (respond .done s)
      · exact ⟨_, performWrite_store hloc (Bool.eq_false_iff.2 hro) hcmd w⟩
  · exact ⟨_, performWrite_unmapped hm w⟩

theorem perform_completes {act : HostAction} {s : State} (hp : permitted act s = true) :
    ∃ t, perform act s = .next t := by
  unfold perform
  rw [if_pos hp]
  cases act with
  | read a => exact performRead_completes a s
  | write a w => exact performWrite_completes a w s
  | hardwareReset => exact ⟨_, rfl⟩

/-! ## BUSY between steps -/

theorem step_of_host_nil {s : State} (h : s.host = []) : step s = .next s := by
  simp [step, runHost, h]

theorem step_completes {s : State} (hb : s.busy = false) : ∃ t, step s = .next t := by
  rcases step_cases s with ⟨-, e⟩ | ⟨act, rest, -, e⟩
  · exact ⟨s, e⟩
  · rw [e]
    exact perform_completes (permitted_of_not_busy (s := withHost rest s) hb act)

@[simp] theorem storeLoc_busy (loc : Loc) (w : Word) (s : State) : (storeLoc loc w s).busy = s.busy := by
  rcases storeLoc_cases loc w s with e | ⟨_, _, _, _, _, _, e⟩ <;> simp [e]

/-- Only a command sets BUSY, and its end, an error included, clears it within the step (30_encoding.md R94,
60_exceptions.md R214). -/
theorem step_keeps_not_busy {s t : State} (hb : s.busy = false) (e : step s = .next t) : t.busy = false := by
  rcases step_effect e with rfl | ⟨_, rest, -, ⟨_, rfl⟩ | ⟨_, _, _, -, -, -, rfl⟩ | ⟨_, _, -, -, -, rfl⟩ |
    ⟨_, _, _, -, -, -, -, rfl⟩ | ⟨-, rfl⟩⟩
  · exact hb
  · exact hb
  · simpa using hb
  · rfl
  · rfl
  · rfl

/-- Settles O12: from BUSY = 0 every action is permitted, and what is permitted completes. -/
theorem everyStepCompletes : Obligations.EveryStepCompletes := by
  refine ⟨fun s hb => ?_, fun s => step_of_host_nil⟩
  obtain ⟨t, e⟩ := step_completes hb
  exact ⟨t, e, step_keeps_not_busy hb e⟩

end Sys2Proof.Machine
end
